-- ==== Sys2Proof/Word.lean ====
section
/-! DEFINITION. The word types of Q23K (`00_scope.md` R6, R7). -/

namespace Sys2Proof

/-- A word: every register, memory word and sample container is 32 bits wide (R6 `XLEN`, `ALEN`, R7). -/
abbrev Word := BitVec 32

/-- One byte of the sample memory, as an agent that sees bytes views it (`20_memory.md` R51). -/
abbrev Byte := BitVec 8

end Sys2Proof
end

