-- ==== Sys2Proof/Config.lean ====
section
/-! DEFINITION. The parameters of the block (`00_scope.md` R6, `10_state.md` R43) and the free values.

Decided parameters are plain definitions at the values of R6. OPEN parameters (`BASE`, `T_ISSUE`, `T_ELEM`, `T_DONE`) are opaque
constants, so that nothing can be proved of their values (log 15). `MEM_VALID`, OPEN too, is a field of the machine's
State (log 6). `FTZ = false` is the arithmetic of `Machine/Float32.lean` itself: the spec describes no other. -/

namespace Sys2Proof.Config

/-- `NG`, the number of gain-state slots (R6, D4). -/
abbrev ng : Nat := 8

/-- `RAMP_STEP`, the binary32 word nearest to 1/254 (R6, D13). -/
def rampStep : Word := 0x3B810204#32

/-- `RAMP_EPS`, the binary32 word nearest to 1/127 (R6, D13). -/
def rampEps : Word := 0x3C010204#32

/-- `Q_SCALE`, the quantizer's scale factor 2^23 (R6). -/
def qScale : Nat := 8388608

/-- `Q_MAX`, the upper saturation bound (R6). -/
def qMax : Int := 8388607

/-- `Q_MIN`, the lower saturation bound (R6). -/
def qMin : Int := -8388608

/-- `QNAN_Q23`, the quantizer's result for a NaN (R6, D10). -/
def qnanQ23 : Int := 0

/-- `CANON_NAN`, the NaN every arithmetic operation returns (R6, D9). -/
def canonNan : Word := 0x7FC00000#32

/-- `ID_VALUE`, what the `ID` register reads: `0x51323300 + (NG-1)` (R6, R31, D26). -/
def idValue : Word := 0x51323300#32 + BitVec.ofNat 32 (ng - 1)

/-- The byte an address of the sample memory that nothing has written reads as.
DESIGN CHOICE (unsafe): R42 leaves the contents of the sample memory to the platform; log 1. -/
def unwrittenByte : Byte := 0#8

/-- The free values: the `n`-th value that the spec leaves unspecified and a read returns (U3, U6).
No body: nothing in Lean can evaluate it (log 5). -/
opaque freeWord : Nat → Word

/-- The word number of `BASE`, OPEN; `BASE` is word aligned (`92_eei_decisions.md`, open parameters).
DESIGN CHOICE (safe): the spec gives no width of the host's address space, so the model sets `BASE` no upper bound; log 15. -/
opaque baseWord : Nat

/-- `BASE`: byte address of register offset 0 in the host's address space (R20, U13). No rule depends on it. -/
def base : Nat := 4 * baseWord

/-- One less than `T_ISSUE`, OPEN (R6, R175). -/
opaque issueCyclesLessOne : Nat

/-- One less than `T_ELEM`, OPEN (R6, R175). -/
opaque elemCyclesLessOne : Nat

/-- One less than `T_DONE`, OPEN (R6, R175). -/
opaque doneCyclesLessOne : Nat

/-- The clock cycles of an accepted command of `len` elements, `T_ISSUE + LEN * T_ELEM + T_DONE`, each parameter
finite and at least 1 (R108, R175). No step depends on it. -/
def commandCycles (len : Word) : Nat :=
  (issueCyclesLessOne + 1) + len.toNat * (elemCyclesLessOne + 1) + (doneCyclesLessOne + 1)

end Sys2Proof.Config
end

