-- ==== Sys2Proof/Syntax.lean ====
section
/-! DEFINITION. The syntax: registers, instructions, and the two kinds of encoded word (`10_state.md` R20, `30_encoding.md`). -/

namespace Sys2Proof

/-- The number of a gain-state slot `G[k]`, `k < NG` (R32). -/
abbrev Slot := Fin Config.ng

/-- A register of the register port, by the name `10_state.md` R20 gives it; `reserved a` is the word offset `a` where R20 lists
no implemented register (R35). -/
inductive PortReg where
  | cmd
  | status
  | ctrl
  | src1
  | src2
  | dst
  | len
  | target
  | kscale
  | gvalid
  | id
  | gain (k : Slot)
  | reserved (a : BitVec 6)
deriving DecidableEq, Repr

/-- The instructions, one constructor for each row of `spec/opcode_table.json`: the four commands the engine runs, and the two
register-port transactions of the host. -/
inductive Instr where
  /-- `QUANT`, float block to Q23 block (R91). -/
  | quant
  /-- `RAMP g`, scale by a gain that ramps at zero crossings (R102). -/
  | ramp (g : Slot)
  /-- `ZIP`, scale and interleave (R115). -/
  | zip
  /-- `ZIPQ`, scale, interleave and quantize (R116). -/
  | zipq
  /-- `WR reg, v` (R131). -/
  | wr (r : PortReg) (v : Word)
  /-- `RD reg` (R132). -/
  | rd (r : PortReg)
deriving DecidableEq, Repr

/-- An encoded instruction: a 32-bit command word, as `CMD` holds it (R70), or a 40-bit port record (R75). -/
inductive Encoded where
  | command (w : Word)
  | record (r : BitVec 40)
deriving DecidableEq, Repr

/-- Why the decoder rejects an encoded word. -/
inductive DecodeError where
  /-- The command word is `ILLEGAL` (R73). On the port this is the refusal with code 1 (R152), not a stop of the model. -/
  | illegalCommand
  /-- Bit 38 of a port record is not 0 (R75). -/
  | recordBit38
  /-- The data bits of a read record are not 0 (R75). -/
  | readDataNotZero
deriving DecidableEq, Repr

end Sys2Proof
end

