-- ==== Sys2Proof/WellFormed.lean ====
section
/-! DEFINITION. Which terms of the syntax stand for an instruction.

A slot number is below `NG` by its type. What is left to check is that a `reserved` register is one: an offset that R20 gives a
register is written by that register's name, so each word offset has one spelling. -/

namespace Sys2Proof

/-- Whether R20 lists no implemented register at the word offset: 11 to 15, `16 + k` for `NG <= k`, and 32 to 63 (R35, R76). -/
def reservedOffset (a : BitVec 6) : Bool :=
  (11 ≤ a.toNat && a.toNat ≤ 15) || 16 + Config.ng ≤ a.toNat

/-- A register is well formed when a `reserved` offset is one. -/
def PortReg.wellFormed : PortReg → Bool
  | .reserved a => reservedOffset a
  | _ => true

/-- An instruction is well formed when its register is. -/
def Instr.wellFormed : Instr → Bool
  | .quant => true
  | .ramp _ => true
  | .zip => true
  | .zipq => true
  | .wr r _ => r.wellFormed
  | .rd r => r.wellFormed

end Sys2Proof
end

