-- ==== Sys2Proof/Decode.lean ====
section
/-! DEFINITION. Decoding, total and rejecting by name, and the encoder (`30_encoding.md` R70 to R76, R80). -/

namespace Sys2Proof

/-- Decoding of a command word: `OPC` in bits 3:0, `GSEL` in 7:4, `RSV` in 31:8 (R70); which words are legal, R71 to R73. -/
def decodeCommand (w : Word) : Except DecodeError Instr :=
  let opc := (w.extractLsb' 0 4).toNat
  let gsel := (w.extractLsb' 4 4).toNat
  let rsv := (w.extractLsb' 8 24).toNat
  if rsv ≠ 0 then .error .illegalCommand
  else if opc = 2 then
    if h : gsel < Config.ng then .ok (.ramp ⟨gsel, h⟩) else .error .illegalCommand
  else if gsel ≠ 0 then .error .illegalCommand
  else if opc = 1 then .ok .quant
  else if opc = 3 then .ok .zip
  else if opc = 4 then .ok .zipq
  else .error .illegalCommand

/-- Which register a word offset selects (R76). -/
def portRegAt (a : BitVec 6) : PortReg :=
  match a.toNat with
  | 0 => .cmd
  | 1 => .status
  | 2 => .ctrl
  | 3 => .src1
  | 4 => .src2
  | 5 => .dst
  | 6 => .len
  | 7 => .target
  | 8 => .kscale
  | 9 => .gvalid
  | 10 => .id
  | n => if h : 16 ≤ n ∧ n - 16 < Config.ng then .gain ⟨n - 16, h.2⟩ else .reserved a

/-- Decoding of a 40-bit port record: `we` in bit 39, 0 in bit 38, the word offset in 37:32, the data in 31:0, which are 0 in
a read (R75). -/
def decodeRecord (r : BitVec 40) : Except DecodeError Instr :=
  let reg := portRegAt (r.extractLsb' 32 6)
  let data : Word := r.extractLsb' 0 32
  if r.getLsbD 38 then .error .recordBit38
  else if r.getLsbD 39 then .ok (.wr reg data)
  else if data = 0#32 then .ok (.rd reg)
  else .error .readDataNotZero

/-- Decoding of an encoded instruction of either kind. -/
def decode : Encoded → Except DecodeError Instr
  | .command w => decodeCommand w
  | .record r => decodeRecord r

/-- The word offset of a register (R20, R76). -/
def portOffset : PortReg → BitVec 6
  | .cmd => 0#6
  | .status => 1#6
  | .ctrl => 2#6
  | .src1 => 3#6
  | .src2 => 4#6
  | .dst => 5#6
  | .len => 6#6
  | .target => 7#6
  | .kscale => 8#6
  | .gvalid => 9#6
  | .id => 10#6
  | .gain k => BitVec.ofNat 6 (16 + k.val)
  | .reserved a => a

/-- The host's address of a register: `BASE` plus its byte offset (R20). No rule depends on it (U13). -/
def portAddress (r : PortReg) : Nat := Config.base + 4 * (portOffset r).toNat

/-- The 40-bit port record of the triple (`we`, offset, data): `we` in bit 39, 0 in bit 38, the word offset in 37:32, the data in
31:0 (R75). -/
def portRecord (we : Bool) (a : BitVec 6) (d : Word) : BitVec 40 :=
  (BitVec.ofBool we).setWidth 40 <<< 39 ||| a.setWidth 40 <<< 32 ||| d.setWidth 40

/-- The words of a well-formed instruction (R71, R75). -/
def encode : Instr → Encoded
  | .quant => .command 0x00000001#32
  | .ramp g => .command (0x00000002#32 + BitVec.ofNat 32 (16 * g.val))
  | .zip => .command 0x00000003#32
  | .zipq => .command 0x00000004#32
  | .wr r v => .record (portRecord true (portOffset r) v)
  | .rd r => .record (portRecord false (portOffset r) 0#32)

/-- The encoded word that `nbits` bits of a table row make: 32 bits are a command word, 40 a port record (log 19). -/
def encodedOfBits (nbits w : Nat) : Encoded :=
  if nbits ≤ 32 then .command (BitVec.ofNat 32 w) else .record (BitVec.ofNat 40 w)

/-- The instruction the decoder reads from an instruction whose bits are `w`, numbered as `spec/opcode_table.json` numbers
them; none where it refuses. -/
def decodeTableWord (nbits w : Nat) : Option Instr :=
  match decode (encodedOfBits nbits w) with
  | .ok i => some i
  | .error _ => none

end Sys2Proof
end

