-- ==== Sys2Proof/Machine/State.lean ====
section
/-! DEFINITION. The machine's state as plain data, the reasons a step can stop, and the state after reset (`10_state.md`). -/

namespace Sys2Proof.Machine

/-- The sample memory: the bytes that differ from what an unlisted address reads as, addresses strictly rising
(`20_memory.md` R50, R51; `Memory.wf` states the form). -/
abbrev Memory := List Host.Cell

/-- A range of byte addresses `lo, …, lo + size - 1`. -/
structure Region where
  lo : Nat
  size : Nat
deriving DecidableEq, Repr

/-- What `STATUS.ERRCODE` records (`60_exceptions.md` R152). Codes 6 to 15 are never produced. -/
inductive ErrCode where
  /-- 0: no refusal recorded. -/
  | noError
  /-- 1, `ILLEGAL`: not a legal command word. -/
  | illegal
  /-- 2, `NOGAIN`: the slot of a `RAMP` holds no GainState. -/
  | nogain
  /-- 3, `MISALIGNED`: a base address the command uses is not a multiple of 4. -/
  | misaligned
  /-- 4, `RANGE`: a block the command uses extends past byte address `2^32 - 1`. -/
  | range
  /-- 5, `BUSYWR`: a write to a locked register while a command runs. -/
  | busywr
deriving DecidableEq, Repr

/-- What the world outside the engine does next. A list of these in State is one interleaving of the agents
(`43_host_port.md` R143; log 8). -/
inductive Event where
  /-- The host performs the transaction of a port record (R75, R130). -/
  | port (r : BitVec 40)
  /-- The host looks at bit 0 of the value it has just read and, while it is 1, goes back to read `STATUS` again before any
  later register-port transaction of its own: the loop of `WAIT` (`30_encoding.md` R78). Accesses to the sample memory, the host's own
  among them, it does not hold back (DESIGN CHOICE, log 8). -/
  | await
  /-- The engine takes its next step, if a command runs (R136). -/
  | engine
  /-- Reset takes effect; `inflight` of the memory writes of the element at `IDX` were performed before it did
  (`70_reset_and_hazards.md` R170, R172, U7; log 12). -/
  | rstRise (inflight : Nat)
  /-- The reset input goes low again (R170). -/
  | rstFall
  /-- Another agent writes bytes to the sample memory, the first at `a` (R51, R61, R67; log 11). -/
  | agentWrite (a : Word) (bytes : List Byte)
  /-- Another agent reads `count` bytes of the sample memory from `a` on (R51, R62, R67; log 11). -/
  | agentRead (a : Word) (count : Nat)
deriving DecidableEq, Repr

/-- The state of Q23K. `INVENTORY.md`, under State, lists each field with its rule and reset value. -/
structure State where
  /-- `CMD`: the last accepted command word (R21). -/
  cmd : Word
  /-- `STATUS.BUSY` (R22). -/
  busy : Bool
  /-- `STATUS.DONE` (R22). -/
  done : Bool
  /-- `STATUS.ERR` (R22). -/
  err : Bool
  /-- `STATUS.ERRCODE` (R22, R152). -/
  errcode : ErrCode
  /-- `CTRL.IE` (R23). -/
  ie : Bool
  /-- `SRC1` (R24). -/
  src1 : Word
  /-- `SRC2` (R25). -/
  src2 : Word
  /-- `DST` (R26). -/
  dst : Word
  /-- `LEN` (R27). -/
  len : Word
  /-- `TARGET` (R28). -/
  target : Word
  /-- `KSCALE` (R29). -/
  kscale : Word
  /-- The implemented bits of `GVALID` (R30). -/
  gvalid : BitVec Config.ng
  /-- The gain-state file `G[0..NG-1]` (R32). -/
  gains : Vector Word Config.ng
  /-- The hidden working scale `SW` of a running `RAMP` (R39). -/
  sw : Word
  /-- The hidden previous output sample `PREV` of a running `RAMP` (R39). -/
  prev : Word
  /-- The hidden index `IDX` of the next element (R39, R40). -/
  idx : Word
  /-- The sample memory (R38, R50). -/
  mem : Memory
  /-- The level of the reset input `rst` (R170). -/
  rst : Bool
  /-- `p_rdata`: the value the host's last register read returned (R130, R132), which no reset takes back (log 4). -/
  pRdata : Word
  /-- `MEM_VALID`, the platform's parameter: where the memory port reaches memory (R59; log 6). No step changes it. -/
  memValid : List Region
  /-- The model's own: the events still to come (R143; log 8). -/
  events : List Event
  /-- The model's own: how many free values have been drawn (U3, U6; log 5). -/
  freeCount : Nat
  /-- The model's own: what the last memory read by another agent returned (R62; log 11). -/
  agentRdata : List Byte
deriving DecidableEq, Repr

/-- Why the machine stops with a fault. Raised by the engine's memory accesses only. -/
inductive Fault where
  /-- The engine's access at this address lies outside `MEM_VALID`: undefined behaviour, the platform's (R59, U1; log 7).
  Safe: the model stops where the hardware goes on in an unknown way. -/
  | outsideMemory (addr : Nat)
  /-- The engine was to access an address that is no multiple of 4 or not below `2^32`. Acceptance excludes it (R54, R56, R134), so no
  run from reset raises it; it is there for states no run reaches (log 17). Safe. -/
  | unformableAddress (addr : Nat)
deriving DecidableEq, Repr

/-- Why the model has no next state. Not the block's own refusal (R151), which is a next state. -/
inductive Refusal where
  /-- An instruction without a meaning yet, by its mnemonic; raised by an arm of `exec` only. Safe. -/
  | notModelled (mnemonic : String)
  /-- What was to be decoded encodes no instruction: a port record that R75 does not give, raised by a step that takes one
  (log 14); or an illegal word in `CMD` while a command runs, which no run from reset reaches (log 17). Safe. -/
  | undecodable (why : DecodeError)
  /-- Another agent accessed the footprint of a running command in a way R67 forbids; raised by the step that takes the access. U2 lets a
  model refuse such executions (log 11). Safe. -/
  | racingAccess
  /-- Another agent accessed an address outside the memory the platform has; raised by the step that takes the access (log 11). Safe. -/
  | agentOutsideMemory
deriving DecidableEq, Repr

/-- The body of a command's loop for one index, computed from the state before it: its memory writes in order, and the values it
leaves in `SW` and `PREV` (R136; the reads come before the writes in every command, R60). -/
structure Element where
  writes : List (Nat × Word)
  sw : Word
  prev : Word
deriving DecidableEq, Repr

/-- What comes next of a state: an encoded instruction to be run in a state, or an outcome that needs no instruction. -/
inductive Activity where
  | run (w : Encoded) (s : State)
  | settled (o : Host.Outcome State Fault Refusal)
deriving Repr

/-- The state right after reset (R42, R171). The values of `gains`, `sw`, `prev`, `idx`, `pRdata` and the model's own fields are the
model's choices (log 2 to log 6, log 8). -/
def State.reset : State where
  cmd := 0#32
  busy := false
  done := false
  err := false
  errcode := .noError
  ie := false
  src1 := 0#32
  src2 := 0#32
  dst := 0#32
  len := 0#32
  target := 0#32
  kscale := 0#32
  gvalid := 0#Config.ng
  gains := Vector.replicate Config.ng 0#32
  sw := 0#32
  prev := 0#32
  idx := 0#32
  mem := []
  rst := false
  pRdata := 0#32
  memValid := [⟨0, 2 ^ 32⟩]
  events := []
  freeCount := 0
  agentRdata := []

end Sys2Proof.Machine
end

