-- ==== Sys2Proof/Machine/Memory.lean ====
section
/-! DEFINITION. The sample memory as a canonical list of bytes, and the little-endian words in it (`20_memory.md` R50 to R53). -/

namespace Sys2Proof.Machine

/-- The byte at an address; what an unlisted address reads as is `Config.unwrittenByte` (log 1). -/
def Memory.readByte : Memory → Nat → Byte
  | [], _ => Config.unwrittenByte
  | (a, b) :: m, x => if a = x then b else Memory.readByte m x

/-- The memory with nothing listed at an address. -/
def Memory.erase : Memory → Nat → Memory
  | [], _ => []
  | (a, b) :: m, x => if a = x then Memory.erase m x else (a, b) :: Memory.erase m x

/-- The memory with a byte listed before the first higher address. -/
def Memory.insert : Memory → Nat → Byte → Memory
  | [], x, v => [(x, v)]
  | (a, b) :: m, x, v => if x < a then (x, v) :: (a, b) :: m else (a, b) :: Memory.insert m x v

/-- A write of one byte; it keeps the canonical form (`Memory.wf`). -/
def Memory.writeByte (m : Memory) (x : Nat) (v : Byte) : Memory :=
  if v = Config.unwrittenByte then Memory.erase m x else Memory.insert (Memory.erase m x) x v

/-- Whether every listed address is above `lo` and below the end of the address space, addresses strictly rise, and no listed byte
is what an unlisted address reads as. -/
def Memory.wfAbove : Nat → Memory → Bool
  | _, [] => true
  | lo, (a, b) :: m => lo ≤ a && a < 2 ^ 32 && b != Config.unwrittenByte && Memory.wfAbove (a + 1) m

/-- The canonical form of a memory. -/
def Memory.wf (m : Memory) : Bool := Memory.wfAbove 0 m

/-- The word at an address: the byte at `a + j` is its bits `8j+7 : 8j` (R51, R52). -/
def Memory.readWord (m : Memory) (a : Nat) : Word :=
  Memory.readByte m (a + 3) ++ Memory.readByte m (a + 2) ++ Memory.readByte m (a + 1) ++ Memory.readByte m a

/-- A write of a word, all four bytes (R51, R53). -/
def Memory.writeWord (m : Memory) (a : Nat) (v : Word) : Memory :=
  Memory.writeByte (Memory.writeByte (Memory.writeByte (Memory.writeByte m a (v.extractLsb' 0 8))
    (a + 1) (v.extractLsb' 8 8)) (a + 2) (v.extractLsb' 16 8)) (a + 3) (v.extractLsb' 24 8)

/-- A write of bytes to consecutive addresses, the first at `a`. -/
def Memory.writeBytes (m : Memory) (a : Nat) : List Byte → Memory
  | [] => m
  | b :: bs => Memory.writeBytes (Memory.writeByte m a b) (a + 1) bs

/-- The `n` bytes from `a` on. -/
def Memory.readBytes (m : Memory) (a : Nat) : Nat → List Byte
  | 0 => []
  | n + 1 => Memory.readByte m a :: Memory.readBytes m (a + 1) n

/-- The `n` words of the block with base `a`, element `i` at `a + 4*i` (R56). -/
def Memory.readBlock (m : Memory) (a : Nat) : Nat → List Word
  | 0 => []
  | n + 1 => Memory.readWord m a :: Memory.readBlock m (a + 4) n

end Sys2Proof.Machine
end

