-- ==== Sys2Proof/Machine/Ops.lean ====
section
/-! DEFINITION. The named operations over memory, the gain-state file and the block's one exception (`00_scope.md` R8). -/

namespace Sys2Proof.Machine

/-! ### Memory, as the engine reaches it -/

/-- Whether the word at an address lies in `MEM_VALID` (R59). -/
def State.reaches (s : State) (addr : Nat) : Bool :=
  s.memValid.any fun r => r.lo ≤ addr && addr + 4 ≤ r.lo + r.size

/-- Whether the memory port can be given the address: a multiple of 4 below `2^32` (R50, R52). -/
def formable (addr : Nat) : Bool := addr % 4 == 0 && addr < 2 ^ 32

/-- `MemRead(addr, 4)` (R52). -/
def State.memRead (s : State) (addr : Nat) : Except Fault Word :=
  if !formable addr then .error (.unformableAddress addr)
  else if !s.reaches addr then .error (.outsideMemory addr)
  else .ok (Memory.readWord s.mem addr)

/-- `MemWrite(addr, 4, v)` (R53). -/
def State.memWrite (s : State) (addr : Nat) (v : Word) : Except Fault State :=
  if !formable addr then .error (.unformableAddress addr)
  else if !s.reaches addr then .error (.outsideMemory addr)
  else .ok { s with mem := Memory.writeWord s.mem addr v }

/-- Several writes, one after the other in the order listed (R60). -/
def State.memWrites (s : State) : List (Nat × Word) → Except Fault State
  | [] => .ok s
  | (a, v) :: ws =>
    match s.memWrite a v with
    | .ok s' => s'.memWrites ws
    | .error f => .error f

/-! ### The gain-state file -/

/-- `G[k]` (R8, R32). -/
def State.gain (s : State) (k : Slot) : Word := s.gains[k]

/-- `G[k] <- v` (R8, R32). -/
def State.setGain (s : State) (k : Slot) (v : Word) : State := { s with gains := s.gains.set k v }

/-- `GVALID[k]` (R30). -/
def State.gainValid (s : State) (k : Slot) : Bool := s.gvalid.getLsbD k

/-! ### The refusal, the block's one exception, and its acknowledgement -/

/-- `refuse(code)`: the code is kept if it is the first since `ERR` was last 0, `ERR` is set, and nothing else changes; no
mode, vector or saved context exists (R151, R154). -/
def State.refuse (s : State) (code : ErrCode) : State :=
  { s with err := true, errcode := if s.err then s.errcode else code }

/-- The acknowledgement, a write of `v` to `STATUS`: bit 1 clears `DONE`, bit 2 clears `ERR` and `ERRCODE`, nothing is restored
(R138, R155). -/
def State.acknowledge (s : State) (v : Word) : State :=
  { s with
    done := s.done && !v.getLsbD 1
    err := s.err && !v.getLsbD 2
    errcode := if v.getLsbD 2 then .noError else s.errcode }

/-- A host write that the lock covers: performed while no command runs, refused with `BUSYWR` while one does (R137). -/
def State.locked (s : State) (write : State → State) : State :=
  if s.busy then s.refuse .busywr else write s

/-! ### Engine steps -/

/-- The part of the completion step every command shares: `BUSY <- 0`, `DONE <- 1` (R136). -/
def State.complete (s : State) : State := { s with busy := false, done := true }

/-- One engine step of a command with this loop body and this completion: the element step for `IDX` while `IDX < LEN`, then
`IDX <- IDX + 1`; the completion step otherwise; nothing while no command runs (R136). -/
def State.engineStep (s : State) (body : State → Except Fault Element) (finish : State → State) :
    Host.Outcome State Fault Refusal :=
  if !s.busy then .next s
  else if s.idx.toNat < s.len.toNat then
    match body s with
    | .error f => .fault f
    | .ok e =>
      match s.memWrites e.writes with
      | .error f => .fault f
      | .ok s' => .next { s' with sw := e.sw, prev := e.prev, idx := s.idx + 1#32 }
  else .next (finish s)

end Sys2Proof.Machine
end

