-- ==== Sys2Proof/Machine/Flags.lean ====
section
/-! DEFINITION. The flags as the host reads them (`10_state.md` R22, R23, R30, R36) and the interrupt output (R41). -/

namespace Sys2Proof.Machine

/-- The 4-bit code of `ERRCODE` (R152). -/
def ErrCode.bits : ErrCode → BitVec 4
  | .noError => 0#4
  | .illegal => 1#4
  | .nogain => 2#4
  | .misaligned => 3#4
  | .range => 4#4
  | .busywr => 5#4

/-- The word `STATUS` reads as: `ERRCODE` in 7:4, `ERR` in 2, `DONE` in 1, `BUSY` in 0, the reserved bits 0 (R22). -/
def State.statusWord (s : State) : Word :=
  0#24 ++ s.errcode.bits ++ 0#1 ++ BitVec.ofBool s.err ++ BitVec.ofBool s.done ++ BitVec.ofBool s.busy

/-- The word `CTRL` reads as: `IE` in bit 0, the reserved bits 0 (R23). -/
def State.ctrlWord (s : State) : Word := 0#31 ++ BitVec.ofBool s.ie

/-- The word `GVALID` reads as: bits `NG` to 31 are 0 (R30). -/
def State.gvalidWord (s : State) : Word := s.gvalid.setWidth 32

/-- The interrupt output, a level: `irq = CTRL.IE and (STATUS.DONE or STATUS.ERR)` (R41, R156). -/
def State.irq (s : State) : Bool := s.ie && (s.done || s.err)

end Sys2Proof.Machine
end

