-- ==== Sys2Proof/Machine/Operands.lean ====
section
/-! DEFINITION. The operands of the commands: element addresses, blocks and the footprint (`20_memory.md` R54, R56, R58;
`30_encoding.md` R74). -/

namespace Sys2Proof.Machine

/-- The byte address of element `i` of the block with this base, computed without wrap (R56). -/
def elementAddress (base : Word) (i : Nat) : Nat := base.toNat + 4 * i

/-- A block of words: its base and its count. -/
abbrev Block := Word × Nat

/-- The blocks a command reads, a function of the opcode and the operand registers (R58). -/
def State.readBlocks (s : State) : Instr → List Block
  | .quant => [(s.src1, s.len.toNat)]
  | .ramp _ => [(s.src1, s.len.toNat)]
  | .zip => [(s.src1, s.len.toNat), (s.src2, s.len.toNat)]
  | .zipq => [(s.src1, s.len.toNat), (s.src2, s.len.toNat)]
  | .wr _ _ => []
  | .rd _ => []

/-- The block a command writes (R58). -/
def State.writeBlocks (s : State) : Instr → List Block
  | .quant => [(s.dst, s.len.toNat)]
  | .ramp _ => [(s.dst, s.len.toNat)]
  | .zip => [(s.dst, 2 * s.len.toNat)]
  | .zipq => [(s.dst, 2 * s.len.toNat)]
  | .wr _ _ => []
  | .rd _ => []

/-- The blocks whose base registers a command uses (R134 `used`). -/
def State.usedBlocks (s : State) (i : Instr) : List Block := s.readBlocks i ++ s.writeBlocks i

/-- Whether a base address has bits 1:0 other than `00` (R54). -/
def misaligned (b : Block) : Bool := b.1.extractLsb' 0 2 != 0#2

/-- Whether a block would extend past byte address `2^32 - 1`; the sum is over unbounded integers (R134). -/
def outOfRange (b : Block) : Bool := b.1.toNat + 4 * b.2 > 2 ^ 32

/-- Whether the command is a `RAMP` whose slot holds no GainState (R134, check 2). -/
def State.lacksGain (s : State) : Instr → Bool
  | .ramp g => !s.gainValid g
  | _ => false

/-- Whether a byte address lies in a block. -/
def inBlock (addr : Nat) (b : Block) : Bool := b.1.toNat ≤ addr && addr < b.1.toNat + 4 * b.2

end Sys2Proof.Machine
end

