-- ==== Sys2Proof/Machine/HostPort.lean ====
section
/-! DEFINITION. The host register port: issue and acceptance of commands, `WR` and `RD` (`43_host_port.md`). -/

namespace Sys2Proof.Machine

/-- The acceptance checks in their order: the code of the first that fails, or the command (R134, R153). The checks on addresses are
skipped when `LEN = 0`; none looks at `MEM_VALID`, at data or at overlap. -/
def State.acceptance (s : State) (c : Word) : Except ErrCode Instr :=
  match decodeCommand c with
  | .error _ => .error .illegal
  | .ok i =>
    if s.lacksGain i then .error .nogain
    else if s.len ≠ 0#32 ∧ (s.usedBlocks i).any misaligned then .error .misaligned
    else if s.len ≠ 0#32 ∧ (s.usedBlocks i).any outOfRange then .error .range
    else .ok i

/-- Acceptance of the word `c`, which decodes to `i`: `CMD <- c`, `BUSY <- 1`, `IDX <- 0`, and `SW <- G[g]` for `RAMP g`; `DONE`, `ERR`
and `ERRCODE` are not changed (R135). -/
def State.accept (s : State) (c : Word) (i : Instr) : State :=
  { s with
    cmd := c
    busy := true
    idx := 0#32
    sw := match i with
      | .ramp g => s.gain g
      | _ => s.sw }

/-- Issue: the word is refused with the first failing check's code, or accepted, in one atomic step (R133). -/
def State.issue (s : State) (c : Word) : State :=
  match s.acceptance c with
  | .error code => s.refuse code
  | .ok i => s.accept c i

/-- `WR GVALID, v`: every slot with `v[k] = 1` is discarded (R140). -/
def State.discardGains (s : State) (v : Word) : State :=
  { s with gvalid := s.gvalid &&& ~~~(v.setWidth Config.ng) }

/-- `WR G[k], v`: the slot holds `v` and is valid (R141). -/
def State.createGain (s : State) (k : Slot) (v : Word) : State :=
  { s.setGain k v with gvalid := s.gvalid ||| (1#Config.ng <<< k.val) }

/-- A register write, by the register and `BUSY` (R131, R137 to R141, R31, R35). -/
def State.writeReg (s : State) (r : PortReg) (v : Word) : State :=
  match r with
  | .cmd => s.locked fun s => s.issue v
  | .status => s.acknowledge v
  | .ctrl => { s with ie := v.getLsbD 0 }
  | .src1 => s.locked fun s => { s with src1 := v }
  | .src2 => s.locked fun s => { s with src2 := v }
  | .dst => s.locked fun s => { s with dst := v }
  | .len => s.locked fun s => { s with len := v }
  | .target => s.locked fun s => { s with target := v }
  | .kscale => s.locked fun s => { s with kscale := v }
  | .gvalid => s.locked fun s => s.discardGains v
  | .id => s
  | .gain k => s.locked fun s => s.createGain k v
  | .reserved _ => s

/-- Whether the spec leaves the value of this read unspecified: a slot with `GVALID[k] = 0` (R33, U3). -/
def State.readIsFree (s : State) : PortReg → Bool
  | .gain k => !s.gainValid k
  | _ => false

/-- The 32-bit value a register read returns (R132, R20 to R35); the next free value for a slot that holds none (log 5). -/
def State.readReg (s : State) (r : PortReg) : Word :=
  match r with
  | .cmd => s.cmd
  | .status => s.statusWord
  | .ctrl => s.ctrlWord
  | .src1 => s.src1
  | .src2 => s.src2
  | .dst => s.dst
  | .len => s.len
  | .target => s.target
  | .kscale => s.kscale
  | .gvalid => s.gvalidWord
  | .id => Config.idValue
  | .gain k => if s.gainValid k then s.gain k else Config.freeWord s.freeCount
  | .reserved _ => 0#32

/-- `WR reg, v` (R131). A register write never accesses the sample memory and always has a next state. -/
def execWr (r : PortReg) (v : Word) (s : State) : Host.Outcome State Fault Refusal :=
  .next (s.writeReg r v)

/-- `RD reg` (R132): the value goes to the read data of the port; nothing of the block changes. A free value is drawn at each
unspecified read, so that two reads may differ (U3). -/
def execRd (r : PortReg) (s : State) : Host.Outcome State Fault Refusal :=
  .next { s with
    pRdata := s.readReg r
    freeCount := if s.readIsFree r then s.freeCount + 1 else s.freeCount }

end Sys2Proof.Machine
end

