-- ==== Sys2Proof/Machine/Float32.lean ====
section
/-! DEFINITION. The binary32 primitives (`00_scope.md` R9 to R15), by exact integer arithmetic.

The exact real values are counted in units: every finite binary32 value is an integer number of units of `2^-149`, a product of
two of them an integer number of units of `2^-298` (R9). -/

namespace Sys2Proof.Machine

/-- `S = w[31]` (R9). -/
def fSign (w : Word) : Bool := w.getLsbD 31

/-- `E = uint(w[30:23])` (R9). -/
def fExp (w : Word) : Nat := (w.extractLsb' 23 8).toNat

/-- `F = uint(w[22:0])` (R9). -/
def fFrac (w : Word) : Nat := (w.extractLsb' 0 23).toNat

/-- Whether the word is a NaN: `E = 255`, `F != 0` (R9). -/
def fIsNaN (w : Word) : Bool := fExp w == 255 && fFrac w != 0

/-- Whether the word is an infinity: `E = 255`, `F = 0` (R9). -/
def fIsInf (w : Word) : Bool := fExp w == 255 && fFrac w == 0

/-- Whether the word is a zero of either sign (R9). -/
def fIsZero (w : Word) : Bool := fExp w == 0 && fFrac w == 0

/-- `|val(w)|` in units of `2^-149` for a finite word: `F` when `E = 0`, `(2^23 + F) * 2^(E-1)` otherwise (R9). For an infinity the
same formula gives `2^277`, above every finite word's, which is all a comparison asks of it (R14). -/
def fUnits (w : Word) : Nat :=
  if fExp w = 0 then fFrac w else (2 ^ 23 + fFrac w) * 2 ^ (fExp w - 1)

/-- `val(w)` with its sign, in units of `2^-149`. -/
def fValue (w : Word) : Int :=
  if fSign w then -(fUnits w : Int) else (fUnits w : Int)

/-- The word of a magnitude with a sign bit. -/
def withSign (neg : Bool) (mag : Nat) : Word :=
  BitVec.ofNat 32 (mag + if neg then 2 ^ 31 else 0)

/-- The infinity of a sign. -/
def infinity (neg : Bool) : Word := withSign neg 0x7F800000

/-- `n / 2^sh`, rounded to the nearest integer, ties to even. -/
def roundShift (n sh : Nat) : Nat :=
  let q := n / 2 ^ sh
  let r := n % 2 ^ sh
  if 2 * r > 2 ^ sh ∨ (2 * r = 2 ^ sh ∧ q % 2 = 1) then q + 1 else q

/-- The magnitude `n * 2^-(149+k)` rounded to 24 significant bits, or to a multiple of `2^-149` where that is coarser, nearest with
ties to even, as the integer that encodes it with the exponent unbounded: `(E - 1) * 2^23` plus the 24-bit significand, which is
`E * 2^23 + F`, and the significand alone when `E` is 0 or 1 (R10). -/
def roundMagnitude (n k : Nat) : Nat :=
  let sh := max (Nat.log2 n + 1 - 24) k
  (sh - k) * 2 ^ 23 + roundShift n sh

/-- `round32(x, s)` for `x` of magnitude `n * 2^-(149+k)` and the sign `neg`, the sign `s` when `n = 0`: a rounded magnitude of
`2^128` or more is the infinity (R10). -/
def round32 (neg : Bool) (n k : Nat) : Word :=
  withSign neg (min (roundMagnitude n k) 0x7F800000)

/-- `fmul32`, binary32 multiply (R11). -/
def fmul32 (a b : Word) : Word :=
  if fIsNaN a || fIsNaN b || (fIsInf a && fIsZero b) || (fIsZero a && fIsInf b) then Config.canonNan
  else if fIsInf a || fIsInf b then infinity (fSign a != fSign b)
  else round32 (fSign a != fSign b) (fUnits a * fUnits b) 149

/-- `fadd32`, binary32 add (R12). -/
def fadd32 (a b : Word) : Word :=
  if fIsNaN a || fIsNaN b || (fIsInf a && fIsInf b && fSign a != fSign b) then Config.canonNan
  else if fIsInf a then infinity (fSign a)
  else if fIsInf b then infinity (fSign b)
  else
    let x := fValue a + fValue b
    round32 (if x = 0 then fSign a && fSign b else decide (x < 0)) x.natAbs 0

/-- `fsub32(a, b) = fadd32(a, b xor 0x80000000)` (R12). -/
def fsub32 (a b : Word) : Word := fadd32 a (b ^^^ 0x80000000#32)

/-- `fabs32` (R13). -/
def fabs32 (a : Word) : Word := a &&& 0x7FFFFFFF#32

/-- Whether neither word is a NaN, so that the two compare (R14). -/
def fOrdered (a b : Word) : Bool := !fIsNaN a && !fIsNaN b

/-- `flt32` (R14). -/
def flt32 (a b : Word) : Bool := fOrdered a b && fValue a < fValue b

/-- `fle32` (R14). -/
def fle32 (a b : Word) : Bool := fOrdered a b && fValue a ≤ fValue b

/-- `fgt32` (R14). -/
def fgt32 (a b : Word) : Bool := fOrdered a b && fValue b < fValue a

/-- `fge32` (R14). -/
def fge32 (a b : Word) : Bool := fOrdered a b && fValue b ≤ fValue a

/-- `feq32` (R14). -/
def feq32 (a b : Word) : Bool := fOrdered a b && fValue a == fValue b

/-- `fne32` (R14). -/
def fne32 (a b : Word) : Bool := !feq32 a b

end Sys2Proof.Machine
end

