-- ==== Sys2Proof/Machine/Quantizer.lean ====
section
/-! DEFINITION. The float-to-Q23 quantizer: `q23` and `QUANT` (`40_quantizer.md`). -/

namespace Sys2Proof.Machine

/-- `q23(w)` on the bit fields, the form R90 says a model should implement: scale by `2^23`, truncate toward zero, saturate;
the result is the 32-bit two's-complement word. -/
def q23 (w : Word) : Word :=
  let e := fExp w
  let r : Int :=
    if e = 255 ∧ fFrac w ≠ 0 then Config.qnanQ23
    else if 127 ≤ e then (if fSign w then Config.qMin else Config.qMax)
    else if e = 0 then 0
    else
      let sh := 127 - e
      let m : Nat := if 24 ≤ sh then 0 else (2 ^ 23 + fFrac w) >>> sh
      if fSign w then -(m : Int) else (m : Int)
  BitVec.ofInt 32 r

/-- The integer `trunc(v * Q_SCALE)` saturated to `[Q_MIN, Q_MAX]`, `v` being `val(w)`, with a NaN sent to `QNAN_Q23`: the first form
of R90, on exact values. `fValue` counts units of `2^-149`, so the product with `Q_SCALE` is divided by `2^149`; `Int.tdiv` rounds
toward zero. The machine runs `q23`; the statements compare the two. -/
def q23Real (w : Word) : Int :=
  if fIsNaN w then Config.qnanQ23
  else if fIsInf w then (if fSign w then Config.qMin else Config.qMax)
  else
    let y := fValue w * Config.qScale
    if y > Config.qMax * 2 ^ 149 then Config.qMax
    else if y < Config.qMin * 2 ^ 149 then Config.qMin
    else y.tdiv (2 ^ 149)

/-- The body of `QUANT`'s loop for the index `IDX` (R91). -/
def State.quantElement (s : State) : Except Fault Element :=
  match s.memRead (elementAddress s.src1 s.idx.toNat) with
  | .error f => .error f
  | .ok w => .ok ⟨[(elementAddress s.dst s.idx.toNat, q23 w)], s.sw, s.prev⟩

/-- `QUANT`: one engine step of the command (R91, R136). -/
def execQuant (s : State) : Host.Outcome State Fault Refusal :=
  s.engineStep State.quantElement State.complete

end Sys2Proof.Machine
end

