-- ==== Sys2Proof/Machine/RampedScaler.lean ====
section
/-! DEFINITION. The zero-cross ramped scaler: `crossing`, `rampstep` and `RAMP` (`41_ramped_scaler.md`). -/

namespace Sys2Proof.Machine

/-- `crossing(p, y)`: the previous and the current output sample have, or touch, opposite sign (R100). -/
def crossing (p y : Word) : Bool :=
  (fle32 p 0#32 && fge32 y 0#32) || (fge32 p 0#32 && fle32 y 0#32)

/-- The scale after the unconditional step toward the target, R101's `s1`. -/
def rampMoved (sw tgt : Word) : Word :=
  if flt32 sw tgt then fadd32 sw Config.rampStep else fsub32 sw Config.rampStep

/-- `rampstep(sw, tgt)`: the unconditional step, then the snap to the exact bits of the target when the rounded distance is
below `RAMP_EPS` (R101). -/
def rampstep (sw tgt : Word) : Word :=
  let s1 := rampMoved sw tgt
  if flt32 (fabs32 (fsub32 s1 tgt)) Config.rampEps then tgt else s1

/-- The scale after the element with index `i` and output `y`: it steps only for `i >= 1`, while it differs from the target, at a
crossing from the previous output `p` (R102, step 2). -/
def rampScale (i : Nat) (p y sw tgt : Word) : Word :=
  if 1 ≤ i && fne32 sw tgt && crossing p y then rampstep sw tgt else sw

/-- The body of `RAMP`'s loop for the index `IDX`: the output uses the scale from before the element's own step (R102). -/
def State.rampElement (s : State) : Except Fault Element :=
  match s.memRead (elementAddress s.src1 s.idx.toNat) with
  | .error f => .error f
  | .ok x =>
    let y := fmul32 x s.sw
    .ok ⟨[(elementAddress s.dst s.idx.toNat, y)], rampScale s.idx.toNat s.prev y s.sw s.target, y⟩

/-- The completion step of `RAMP g`: `G[g] <- SW`, then as every command (R102, R136). -/
def State.rampComplete (g : Slot) (s : State) : State := (s.setGain g s.sw).complete

/-- `RAMP g`: one engine step of the command (R102, R136). -/
def execRamp (g : Slot) (s : State) : Host.Outcome State Fault Refusal :=
  s.engineStep State.rampElement (State.rampComplete g)

end Sys2Proof.Machine
end

