-- ==== Sys2Proof/Machine/ZipInterleaver.lean ====
section
/-! DEFINITION. The scale-and-interleave operator: `ZIP` and `ZIPQ` (`42_zip_interleaver.md`). -/

namespace Sys2Proof.Machine

/-- The body of a zip loop for the index `IDX`: read channel 1, read channel 2, then write both products, each through `out`, at
output elements `2n` and `2n+1` (R115, R116, R56). -/
def State.zipElementWith (s : State) (out : Word → Word) : Except Fault Element :=
  match s.memRead (elementAddress s.src1 s.idx.toNat) with
  | .error f => .error f
  | .ok a =>
    match s.memRead (elementAddress s.src2 s.idx.toNat) with
    | .error f => .error f
    | .ok b =>
      .ok ⟨[(elementAddress s.dst (2 * s.idx.toNat), out (fmul32 a s.kscale)),
            (elementAddress s.dst (2 * s.idx.toNat + 1), out (fmul32 b s.kscale))], s.sw, s.prev⟩

/-- The body of `ZIP`'s loop: the products as they are (R115). -/
def State.zipElement (s : State) : Except Fault Element := s.zipElementWith fun y => y

/-- The body of `ZIPQ`'s loop: each product, rounded to binary32, converted to Q23 (R116). -/
def State.zipqElement (s : State) : Except Fault Element := s.zipElementWith q23

/-- `ZIP`: one engine step of the command (R115, R136). -/
def execZip (s : State) : Host.Outcome State Fault Refusal :=
  s.engineStep State.zipElement State.complete

/-- `ZIPQ`: one engine step of the command (R116, R136). -/
def execZipq (s : State) : Host.Outcome State Fault Refusal :=
  s.engineStep State.zipqElement State.complete

end Sys2Proof.Machine
end

