-- ==== Sys2Proof/Machine/Dispatch.lean ====
section
/-! DEFINITION. The meaning of each instruction, one arm per constructor. -/

namespace Sys2Proof.Machine

/-- The meaning of an instruction: for a command, one engine step of it; for `WR` and `RD`, the transaction. -/
def exec (i : Instr) (s : State) : Host.Outcome State Fault Refusal :=
  match i with
  | .quant => Sys2Proof.Machine.execQuant s
  | .ramp g => Sys2Proof.Machine.execRamp g s
  | .zip => Sys2Proof.Machine.execZip s
  | .zipq => Sys2Proof.Machine.execZipq s
  | .wr r v => Sys2Proof.Machine.execWr r v s
  | .rd r => Sys2Proof.Machine.execRd r s

end Sys2Proof.Machine
end

