-- ==== Sys2Proof/Machine/HostProgram.lean ====
section
/-! DEFINITION. Host programs: the lines of the host notation and what they expand to (`30_encoding.md` R77 to R79). The block
knows nothing of them; they say which port records stand in State's events for a program. -/

namespace Sys2Proof.Machine

/-- A line of the host notation (R77, R78). -/
inductive HostLine where
  /-- `WR reg, v`. -/
  | write (r : PortReg) (v : Word)
  /-- `RD reg`. -/
  | read (r : PortReg)
  /-- `QUANT`, `RAMP g<k>`, `ZIP` or `ZIPQ` alone: the write of its word to `CMD`. -/
  | issue (c : Word)
  /-- `WAIT`. -/
  | wait
  /-- `ACK mask`. -/
  | ack (mask : Word)
  /-- `GSET g<k>, v`. -/
  | gset (k : Slot) (v : Word)
  /-- `GDROP g<k>`. -/
  | gdrop (k : Slot)
  /-- `QUANT src, dst, n`. -/
  | quantCall (src dst n : Word)
  /-- `RAMP g<k>, src, dst, n, target`. -/
  | rampCall (k : Slot) (src dst n target : Word)
  /-- `ZIP src1, src2, dst, n, k`. -/
  | zipCall (src1 src2 dst n k : Word)
  /-- `ZIPQ src1, src2, dst, n, k`. -/
  | zipqCall (src1 src2 dst n k : Word)
deriving DecidableEq, Repr

/-- The word of a command as R77 writes it. -/
def commandWord (i : Instr) : Word :=
  match encode i with
  | .command w => w
  | .record _ => 0#32

/-- The transactions a line expands to; the `CMD` write is last (R77, R78). Of `WAIT` it is the transaction that is repeated. -/
def HostLine.expand : HostLine → List Instr
  | .write r v => [.wr r v]
  | .read r => [.rd r]
  | .issue c => [.wr .cmd c]
  | .wait => [.rd .status]
  | .ack mask => [.wr .status mask]
  | .gset k v => [.wr (.gain k) v]
  | .gdrop k => [.wr .gvalid (1#32 <<< k.val)]
  | .quantCall src dst n => [.wr .src1 src, .wr .dst dst, .wr .len n, .wr .cmd (commandWord .quant)]
  | .rampCall k src dst n target =>
    [.wr .src1 src, .wr .dst dst, .wr .len n, .wr .target target, .wr .cmd (commandWord (.ramp k))]
  | .zipCall src1 src2 dst n k =>
    [.wr .src1 src1, .wr .src2 src2, .wr .dst dst, .wr .len n, .wr .kscale k, .wr .cmd (commandWord .zip)]
  | .zipqCall src1 src2 dst n k =>
    [.wr .src1 src1, .wr .src2 src2, .wr .dst dst, .wr .len n, .wr .kscale k, .wr .cmd (commandWord .zipq)]

/-- The event of a transaction: the host performs its port record. -/
def portEvent (i : Instr) : List Event :=
  match encode i with
  | .record r => [.port r]
  | .command _ => []

/-- What the host does after the transactions of a line, before its next: after a `WAIT` it looks whether to go back (R78). -/
def HostLine.afterwards : HostLine → List Event
  | .wait => [.await]
  | _ => []

/-- The events of a host line. -/
def HostLine.events (l : HostLine) : List Event := l.expand.flatMap portEvent ++ l.afterwards

/-- The events of a host program, a list of lines (R77), when nothing but the host and the waiting it asks for takes a turn in between;
other events of other agents may be put anywhere among these (R143). -/
def hostProgram (ls : List HostLine) : List Event := ls.flatMap HostLine.events

/-- Whether an event is the host's at its register port.
DESIGN CHOICE (safe): the host's own accesses to the sample memory are not among these. They are `agentRead` and `agentWrite` like those of
any other agent (log 11), and a `WAIT` does not hold them back, which the spec leaves open (R78 speaks of register reads); log 8. -/
def Event.ofHost : Event → Bool
  | .port _ => true
  | .await => true
  | .engine => false
  | .rstRise _ => false
  | .rstFall => false
  | .agentWrite _ _ => false
  | .agentRead _ _ => false

/-- Whether `WAIT` goes back: the value read has bit 0 (`BUSY`) equal to 1 (R78). -/
def State.waitAgain (s : State) : Bool := s.pRdata.getLsbD 0

/-- The end of a round of `WAIT`: when the host goes back, the engine takes a turn, then whatever is not the host's at its register port
happens up to the host's next transaction there, then comes another round, and only then any later transaction of the host (R78).
DESIGN CHOICE (safe): these turns, and that memory accesses of the host listed before its next transaction are not held back: they happen
before the next round, at `BUSY = 1`, and race if they are on the footprint (R67); log 8. -/
def State.awaitTurn (s : State) : State :=
  { s with
    events :=
      if s.waitAgain then
        .engine :: s.events.takeWhile (fun e => !e.ofHost) ++ HostLine.wait.events ++ s.events.dropWhile (fun e => !e.ofHost)
      else s.events }

end Sys2Proof.Machine
end

