-- ==== Sys2Proof/Machine/Environment.lean ====
section
/-! DEFINITION. What the world outside the engine does: reset, other agents of the sample memory, and which agent moves next
(`70_reset_and_hazards.md` R170 to R172; `20_memory.md` R51, R67; `43_host_port.md` R143). -/

namespace Sys2Proof.Machine

/-! ### Reset -/

/-- The body of a command's loop for the index `IDX`. -/
def State.element (s : State) : Instr → Except Fault Element
  | .quant => s.quantElement
  | .ramp _ => s.rampElement
  | .zip => s.zipElement
  | .zipq => s.zipqElement
  | .wr _ _ => .ok ⟨[], s.sw, s.prev⟩
  | .rd _ => .ok ⟨[], s.sw, s.prev⟩

/-- The memory writes of the element the engine is at, in order; none when no element is in progress.
DESIGN CHOICE (unsafe): of an element with a READ outside `MEM_VALID`, which the spec leaves undefined (R59, U1), there are none either, so
that a reset during it leaves the memory as it is; log 12. -/
def State.pendingWrites (s : State) : List (Nat × Word) :=
  if s.busy && s.idx.toNat < s.len.toNat then
    match decodeCommand s.cmd with
    | .error _ => []
    | .ok i =>
      match s.element i with
      | .error _ => []
      | .ok e => e.writes
  else []

/-- The memory after the writes, in order, up to the first that the memory port does not reach.
DESIGN CHOICE (unsafe): that write, outside `MEM_VALID` and so undefined (R59, U1), and those after it are not performed; log 12. -/
def State.memAfter (s : State) (ws : List (Nat × Word)) : Memory :=
  (ws.takeWhile fun w => formable w.1 && s.reaches w.1).foldl (fun m w => Memory.writeWord m w.1 w.2) s.mem

/-- Reset takes effect after `inflight` of the writes of the element in progress (R170, R172, U7; log 12): every register goes to its
reset value and the command, if any, is abandoned; the sample memory is not touched but for those writes. The platform's parameter,
the events to come, the counter of free values, and what the host and other agents have read are not the block's. -/
def State.takeReset (s : State) (inflight : Nat) : State :=
  { State.reset with
    mem := s.memAfter (s.pendingWrites.take inflight)
    rst := true
    pRdata := s.pRdata
    memValid := s.memValid
    events := s.events
    freeCount := s.freeCount
    agentRdata := s.agentRdata }

/-- A port transaction while `rst = 1` is ignored: a write has no effect, a read returns unspecified data (R170, U6; log 20). -/
def State.portInReset (s : State) (r : BitVec 40) : Host.Outcome State Fault Refusal :=
  match decodeRecord r with
  | .error e => .refused (.undecodable e)
  | .ok (.rd _) => .next { s with pRdata := Config.freeWord s.freeCount, freeCount := s.freeCount + 1 }
  | .ok _ => .next s

/-! ### Other agents of the sample memory -/

/-- Whether the byte at an address lies in memory the platform has. -/
def State.agentReaches (s : State) (addr : Nat) : Bool := addr < 2 ^ 32 && s.reaches (addr / 4 * 4)

/-- The command that runs, if one does. -/
def State.running (s : State) : Option Instr :=
  if s.busy then
    match decodeCommand s.cmd with
    | .ok i => some i
    | .error _ => none
  else none

/-- Whether another agent's write of the byte at `addr` races with the running command: it lies in the command's read or write set
(R67, U2). -/
def State.writeRaces (s : State) (addr : Nat) : Bool :=
  match s.running with
  | some i => (s.usedBlocks i).any (inBlock addr)
  | none => false

/-- Whether another agent's read of the byte at `addr` races with the running command: it lies in the write set (R67, U2). -/
def State.readRaces (s : State) (addr : Nat) : Bool :=
  match s.running with
  | some i => (s.writeBlocks i).any (inBlock addr)
  | none => false

/-- Another agent writes `bytes` from the address `a` on, the byte at `a + j` being the `j`-th (R51, R61, R67; log 11). -/
def State.agentWrite (s : State) (a : Word) (bytes : List Byte) : Host.Outcome State Fault Refusal :=
  let addrs := List.range' a.toNat bytes.length
  if !addrs.all s.agentReaches then .refused .agentOutsideMemory
  else if addrs.any s.writeRaces then .refused .racingAccess
  else .next { s with mem := Memory.writeBytes s.mem a.toNat bytes }

/-- Another agent reads `count` bytes from the address `a` on (R51, R62, R67; log 11). -/
def State.agentRead (s : State) (a : Word) (count : Nat) : Host.Outcome State Fault Refusal :=
  let addrs := List.range' a.toNat count
  if !addrs.all s.agentReaches then .refused .agentOutsideMemory
  else if addrs.any s.readRaces then .refused .racingAccess
  else .next { s with agentRdata := Memory.readBytes s.mem a.toNat count }

/-! ### Which agent moves next -/

/-- The engine's turn: it runs the word in `CMD` while a command runs, and does nothing otherwise (R136). -/
def State.engineTurn (s : State) : Activity :=
  if s.busy then .run (.command s.cmd) s else .settled (.next s)

/-- What one event does, in the state that has taken it. -/
def State.eventTurn (s : State) : Event → Activity
  | .port r => if s.rst then .settled (s.portInReset r) else .run (.record r) s
  | .await => .settled (.next s.awaitTurn)
  | .engine => s.engineTurn
  | .rstRise n => .settled (.next (s.takeReset n))
  | .rstFall => .settled (.next { s with rst := false })
  | .agentWrite a bs => .settled (s.agentWrite a bs)
  | .agentRead a n => .settled (s.agentRead a n)

/-- What comes next: the first of the events to come (R143), or, when there is none, the engine, which is never starved
(R136, R143; log 8). -/
def State.nextActivity (s : State) : Activity :=
  match s.events with
  | [] => s.engineTurn
  | e :: rest => State.eventTurn { s with events := rest } e

/-! ### Placing an instruction where the next step takes it -/

/-- The state with this encoded instruction as the very next thing to run: a port record as the host's next transaction; a command
word as the running command, accepted just now (R135), with the engine's turn next (log 10). -/
def State.withEncoded (s : State) : Encoded → State
  | .record r => { s with rst := false, events := .port r :: s.events }
  | .command w =>
    let s' := match decodeCommand w with
      | .ok i => s.accept w i
      | .error _ => { s with cmd := w, busy := true, idx := 0#32 }
    { s' with rst := false, events := .engine :: s.events }

end Sys2Proof.Machine
end

