-- ==== Sys2Proof/Machine/Step.lean ====
section
/-! DEFINITION. One step of the machine: one atomic event of `43_host_port.md` R143. -/

namespace Sys2Proof.Machine

/-- The outcome of what comes next: an encoded instruction is decoded and run. -/
def runActivity : Activity → Host.Outcome State Fault Refusal
  | .settled o => o
  | .run w s =>
    match decode w with
    | .ok i => exec i s
    | .error e => .refused (.undecodable e)

/-- One step: a host transaction, an engine step, an edge of reset or an access of another agent (R143). -/
def step (s : State) : Host.Outcome State Fault Refusal := runActivity s.nextActivity

/-- The state with the instruction of a table row's bits stored where the next step takes its instruction (log 10, log 19). -/
def State.withFetchWord (s : State) (nbits w : Nat) : State := s.withEncoded (encodedOfBits nbits w)

end Sys2Proof.Machine
end

