-- ==== Sys2Proof/Safety.lean ====
section
/-! DEFINITION. What counts as a good state and a safe run, in the terms the statements use; and the source's ramped scaler as a
function on blocks, which the `RAMP` command is compared with. -/

namespace Sys2Proof.Machine

/-- Whether a run has ended: the host has performed its last transaction and `BUSY = 0` (`70_reset_and_hazards.md` R176). -/
def State.ended (s : State) : Bool := !s.busy && s.events.all fun e => !e.ofHost

/-- The invariant of the machine. -/
structure State.Inv (s : State) : Prop where
  /-- The sample memory has its canonical form. -/
  memory : Memory.wf s.mem = true
  /-- `ERRCODE` is 0 exactly when `ERR` is 0 (R22, R152). -/
  errcode : s.err = false ↔ s.errcode = .noError
  /-- `CMD` is 0 or a legal command word (R21). -/
  cmd : s.cmd = 0#32 ∨ ∃ i, decodeCommand s.cmd = .ok i
  /-- While a command runs its word still passes the acceptance checks, and `IDX <= LEN` (R40, R65, R134). -/
  running : s.busy = true → (∃ i, s.acceptance s.cmd = .ok i) ∧ s.idx.toNat ≤ s.len.toNat
  /-- No command runs during reset (R171). -/
  inReset : s.rst = true → s.busy = false

/-- Every word of the command's footprint lies in `MEM_VALID`: the precondition that U1 puts on every claim about an accepted command
(`20_memory.md` R58, R59). -/
def State.footprintIn (s : State) (i : Instr) : Prop :=
  ∀ b ∈ s.usedBlocks i, ∀ j, j < b.2 → s.reaches (b.1.toNat + 4 * j) = true

/-- The command `i` has just been accepted, its footprint lies in memory, and every turn from here on is the engine's. -/
structure State.Ready (s : State) (i : Instr) : Prop where
  busy : s.busy = true
  events : s.events = []
  cmd : decodeCommand s.cmd = .ok i
  idx : s.idx = 0#32
  /-- What the acceptance checks on addresses established (R134). -/
  legal : s.len ≠ 0#32 → ∀ b ∈ s.usedBlocks i, b.1.toNat % 4 = 0 ∧ b.1.toNat + 4 * b.2 ≤ 2 ^ 32
  memory : s.footprintIn i

/-- What a running command can depend on: the state with every other field blanked out. -/
def State.engineView (s : State) : State :=
  { s with
    done := false
    err := false
    errcode := .noError
    ie := false
    rst := false
    pRdata := 0#32
    events := []
    freeCount := 0
    agentRdata := [] }

/-- The ramped scaler on a block, per sample as R102 gives it: `p` is the previous output, none at the start of a block. The result
is the output block and the scale at the end. -/
def rampRun (tgt : Word) : Option Word → Word → List Word → List Word × Word
  | _, sw, [] => ([], sw)
  | p, sw, x :: xs =>
    let y := fmul32 x sw
    let sw' := match p with
      | none => sw
      | some q => if fne32 sw tgt && crossing q y then rampstep sw tgt else sw
    let r := rampRun tgt (some y) sw' xs
    (y :: r.1, r.2)

/-- The addresses of the accesses of a command's element at `IDX`, in the order the engine performs them (R56, R60). -/
def State.elementAccesses (s : State) : Instr → List Nat
  | .quant => [elementAddress s.src1 s.idx.toNat, elementAddress s.dst s.idx.toNat]
  | .ramp _ => [elementAddress s.src1 s.idx.toNat, elementAddress s.dst s.idx.toNat]
  | .zip => [elementAddress s.src1 s.idx.toNat, elementAddress s.src2 s.idx.toNat,
      elementAddress s.dst (2 * s.idx.toNat), elementAddress s.dst (2 * s.idx.toNat + 1)]
  | .zipq => [elementAddress s.src1 s.idx.toNat, elementAddress s.src2 s.idx.toNat,
      elementAddress s.dst (2 * s.idx.toNat), elementAddress s.dst (2 * s.idx.toNat + 1)]
  | .wr _ _ => []
  | .rd _ => []

/-- The word `r` is the rounding of the exact magnitude `n * 2^-(149+k)` with the sign `neg` (R10; `n` counts units of `2^-(149+k)`). It is
no NaN and has the sign; it is an infinity exactly from the midpoint of the largest finite value and `2^128` on; otherwise it is nearest
among all finite words, and of two equally near the one whose last fraction bit is 0. -/
structure IsRounding (neg : Bool) (n k : Nat) (r : Word) : Prop where
  notNaN : fIsNaN r = false
  sign : fSign r = neg
  overflow : fIsInf r = true ↔ (2 ^ 25 - 1) * 2 ^ 252 * 2 ^ k ≤ n
  nearest : fIsInf r = false → ∀ v : Word, fExp v ≠ 255 →
    ((n : Int) - (fUnits r * 2 ^ k : Nat)).natAbs ≤ ((n : Int) - (fUnits v * 2 ^ k : Nat)).natAbs ∧
    (((n : Int) - (fUnits r * 2 ^ k : Nat)).natAbs = ((n : Int) - (fUnits v * 2 ^ k : Nat)).natAbs →
      fUnits v ≠ fUnits r → r.getLsbD 0 = false)

/-- Two byte ranges do not meet. -/
def apart (a n b m : Nat) : Prop := a + n ≤ b ∨ b + m ≤ a

end Sys2Proof.Machine
end

