-- ==== Sys2Proof/Certificates/Slice0/Obligations.lean ====
section
/-! DEFINITION. The statements about Q23K that the provers settle; `OBLIGATIONS.json` lists them. -/

open Sys2Proof Sys2Proof.Machine

/-! ### Encoding -/

/-- Words written out from the spec's encodings decode to what they stand for: the five kinds of command word (R71) and the four examples
of port records that R75 gives. -/
def Obligations.SpecWordsDecode : Prop :=
  decodeTableWord 32 0x00000001 = some .quant ∧
  decodeTableWord 32 0x00000072 = some (.ramp 7) ∧
  decodeTableWord 32 0x00000003 = some .zip ∧
  decodeTableWord 32 0x00000004 = some .zipq ∧
  decodeTableWord 32 0x00000082 = none ∧
  decodeTableWord 40 0x8300001000 = some (.wr .src1 0x00001000#32) ∧
  decodeTableWord 40 0x8000000012 = some (.wr .cmd 0x00000012#32) ∧
  decodeTableWord 40 0x0100000000 = some (.rd .status) ∧
  decodeTableWord 40 0x933F800000 = some (.wr (.gain 3) 0x3F800000#32)

/-- R71: the eleven exact words decode to their commands, and no other word is a legal command word. -/
def Obligations.CommandWordsAreTheElevenLegal : Prop :=
  ∀ (w : Word) (i : Instr), decode (.command w) = .ok i ↔
    (w = 0x00000001#32 ∧ i = .quant) ∨
    (∃ g : Slot, w = 0x00000002#32 + BitVec.ofNat 32 (16 * g.val) ∧ i = .ramp g) ∨
    (w = 0x00000003#32 ∧ i = .zip) ∨
    (w = 0x00000004#32 ∧ i = .zipq)

/-- R73: which words are illegal, by the fields of the word, and that an illegal word written to `CMD` while `BUSY = 0` changes `ERR` and
`ERRCODE` alone. -/
def Obligations.IllegalCommandWords : Prop :=
  ∀ w : Word,
    let opc := (w.extractLsb' 0 4).toNat
    let gsel := (w.extractLsb' 4 4).toNat
    let rsv := (w.extractLsb' 8 24).toNat
    let illegal := opc = 0 ∨ 5 ≤ opc ∨ rsv ≠ 0 ∨ ((opc = 1 ∨ opc = 3 ∨ opc = 4) ∧ gsel ≠ 0) ∨
      (opc = 2 ∧ Config.ng ≤ gsel)
    (decode (.command w) = .error .illegalCommand ↔ illegal) ∧
    (illegal → ∀ s : State, s.busy = false → exec (.wr .cmd w) s =
      .next { s with err := true, errcode := if s.err then s.errcode else .illegal })

/-- R76: what each word offset selects. -/
def Obligations.OffsetSelectsRegister : Prop :=
  portRegAt 0#6 = .cmd ∧ portRegAt 1#6 = .status ∧ portRegAt 2#6 = .ctrl ∧ portRegAt 3#6 = .src1 ∧
  portRegAt 4#6 = .src2 ∧ portRegAt 5#6 = .dst ∧ portRegAt 6#6 = .len ∧ portRegAt 7#6 = .target ∧
  portRegAt 8#6 = .kscale ∧ portRegAt 9#6 = .gvalid ∧ portRegAt 10#6 = .id ∧
  (∀ k : Slot, portRegAt (BitVec.ofNat 6 (16 + k.val)) = .gain k) ∧
  ∀ a : BitVec 6, (11 ≤ a.toNat ∧ a.toNat ≤ 15) ∨ 16 + Config.ng ≤ a.toNat → portRegAt a = .reserved a

/-- Every well-formed instruction, with every value of every operand, decodes back from its encoding (R70, R71, R75, R76). -/
def Obligations.DecodeOfEncode : Prop :=
  ∀ i : Instr, i.wellFormed = true → decode (encode i) = .ok i

/-- Whatever decodes is well formed and is the only encoding of what it decodes to: each instruction has one word. -/
def Obligations.EncodeOfDecode : Prop :=
  ∀ (x : Encoded) (i : Instr), decode x = .ok i → i.wellFormed = true ∧ encode i = x

/-! ### The step -/

/-- A step runs the decoded instruction. The host's next transaction, out of reset: `exec` of what its record decodes to, with that record
taken off the events to come. The engine's turn while a command runs, listed or because nothing is: `exec` of what `CMD` decodes to.
The engine's turn while no command runs, listed or because nothing is, and a command's meaning then: nothing (R136). That the order of turns stands in State is the
model's choice, log 8. -/
def Obligations.StepRunsDecodedInstruction : Prop :=
  (∀ (s : State) (r : BitVec 40) (rest : List Event) (i : Instr), s.events = .port r :: rest → s.rst = false →
    decode (.record r) = .ok i → step s = exec i { s with events := rest }) ∧
  (∀ (s : State) (rest : List Event) (i : Instr), s.events = .engine :: rest → s.busy = true →
    decode (.command s.cmd) = .ok i → step s = exec i { s with events := rest }) ∧
  (∀ (s : State) (i : Instr), s.events = [] → s.busy = true →
    decode (.command s.cmd) = .ok i → step s = exec i s) ∧
  (∀ s : State, s.events = [] → s.busy = false → step s = .next s) ∧
  (∀ (s : State) (rest : List Event), s.events = .engine :: rest → s.busy = false → step s = .next { s with events := rest }) ∧
  (∀ s : State, s.busy = false → exec .quant s = .next s ∧ (∀ g, exec (.ramp g) s = .next s) ∧
    exec .zip s = .next s ∧ exec .zipq s = .next s)

/-! ### Register writes -/

/-- A write of an operand register while `BUSY = 0` stores all 32 bits as written and changes nothing else (R24 to R29, R131). -/
def Obligations.WriteOperandRegisterStores : Prop :=
  ∀ (s : State) (v : Word), s.busy = false →
    exec (.wr .src1 v) s = .next { s with src1 := v } ∧
    exec (.wr .src2 v) s = .next { s with src2 := v } ∧
    exec (.wr .dst v) s = .next { s with dst := v } ∧
    exec (.wr .len v) s = .next { s with len := v } ∧
    exec (.wr .target v) s = .next { s with target := v } ∧
    exec (.wr .kscale v) s = .next { s with kscale := v }

/-- The lock: while `BUSY = 1` a write to a locked register is dropped and reported by `refuse(BUSYWR)`, and nothing else changes
(R137, R151). -/
def Obligations.WriteWhileBusyDropped : Prop :=
  ∀ (s : State) (r : PortReg) (v : Word), s.busy = true →
    (r = .cmd ∨ r = .src1 ∨ r = .src2 ∨ r = .dst ∨ r = .len ∨ r = .target ∨ r = .kscale ∨ r = .gvalid ∨
      ∃ k, r = .gain k) →
    exec (.wr r v) s = .next { s with err := true, errcode := if s.err then s.errcode else .busywr }

/-- R138: `WR STATUS, v`, at any time. -/
def Obligations.WriteStatusAcknowledges : Prop :=
  ∀ (s : State) (v : Word), ∃ t, exec (.wr .status v) s = .next t ∧
    t = { s with
      done := if v.getLsbD 1 then false else s.done
      err := if v.getLsbD 2 then false else s.err
      errcode := if v.getLsbD 2 then .noError else s.errcode } ∧
    t.irq = (t.ie && (t.done || t.err))

/-- R139: `WR CTRL, v`, at any time. -/
def Obligations.WriteCtrlSetsEnable : Prop :=
  ∀ (s : State) (v : Word), exec (.wr .ctrl v) s = .next { s with ie := v.getLsbD 0 }

/-- R140: `WR GVALID, v` while `BUSY = 0` clears the valid bits of the slots with a 1 in `v`, sets none, and changes nothing else; the bits
of a discarded slot are unspecified: a read of it draws a free value (log 5). -/
def Obligations.WriteGvalidDiscards : Prop :=
  ∀ (s : State) (v : Word), s.busy = false → ∃ t, exec (.wr .gvalid v) s = .next t ∧
    t = { s with gvalid := t.gvalid } ∧
    (∀ k : Slot, t.gainValid k = (s.gainValid k && !v.getLsbD k.val)) ∧
    (∀ k : Slot, v.getLsbD k.val = true → exec (.rd (.gain k)) t =
      .next { t with pRdata := Config.freeWord t.freeCount, freeCount := t.freeCount + 1 })

/-- `WR G[k], v` while `BUSY = 0` stores all 32 bits and sets `GVALID[k]`; every other slot and valid bit, and everything else, is
unchanged (R141). -/
def Obligations.WriteGainCreates : Prop :=
  ∀ (s : State) (k : Slot) (v : Word), s.busy = false → ∃ t, exec (.wr (.gain k) v) s = .next t ∧
    t = { s with gains := t.gains, gvalid := t.gvalid } ∧
    t.gain k = v ∧ t.gainValid k = true ∧
    ∀ j : Slot, j ≠ k → t.gain j = s.gain j ∧ t.gainValid j = s.gainValid j

/-- A write of `ID` or of a reserved offset has no effect and sets no flag, whatever `BUSY` is (R31, R35). -/
def Obligations.WriteIdOrReservedIgnored : Prop :=
  ∀ (s : State) (v : Word), exec (.wr .id v) s = .next s ∧ ∀ a, exec (.wr (.reserved a) v) s = .next s

/-! ### Issue -/

/-- Acceptance of `QUANT` and of `RAMP g`: the valid slot, and with `LEN != 0` the two aligned blocks that fit, give the accepted state
(R134, R135). -/
def Obligations.AcceptOneInputCommand : Prop :=
  ∀ s : State, s.busy = false →
    (s.len ≠ 0#32 → s.src1.toNat % 4 = 0 ∧ s.dst.toNat % 4 = 0 ∧
      s.src1.toNat + 4 * s.len.toNat ≤ 2 ^ 32 ∧ s.dst.toNat + 4 * s.len.toNat ≤ 2 ^ 32) →
    exec (.wr .cmd 0x00000001#32) s = .next { s with cmd := 0x00000001#32, busy := true, idx := 0#32 } ∧
    ∀ g : Slot, s.gainValid g = true →
      exec (.wr .cmd (0x00000002#32 + BitVec.ofNat 32 (16 * g.val))) s =
        .next { s with cmd := 0x00000002#32 + BitVec.ofNat 32 (16 * g.val), busy := true, idx := 0#32, sw := s.gain g }

/-- Acceptance of `ZIP` and of `ZIPQ`: with `LEN != 0` three aligned blocks that fit, the output of `2*LEN` words (R134, R135). -/
def Obligations.AcceptZipCommand : Prop :=
  ∀ s : State, s.busy = false →
    (s.len ≠ 0#32 → s.src1.toNat % 4 = 0 ∧ s.src2.toNat % 4 = 0 ∧ s.dst.toNat % 4 = 0 ∧
      s.src1.toNat + 4 * s.len.toNat ≤ 2 ^ 32 ∧ s.src2.toNat + 4 * s.len.toNat ≤ 2 ^ 32 ∧
      s.dst.toNat + 8 * s.len.toNat ≤ 2 ^ 32) →
    exec (.wr .cmd 0x00000003#32) s = .next { s with cmd := 0x00000003#32, busy := true, idx := 0#32 } ∧
    exec (.wr .cmd 0x00000004#32) s = .next { s with cmd := 0x00000004#32, busy := true, idx := 0#32 }

/-- The refusals of a legal command word and their priority: `NOGAIN` whatever `LEN` and the addresses are; then `MISALIGNED`; then,
with every used base aligned, `RANGE`; each changes `ERR` and `ERRCODE` alone. `QUANT` and `RAMP` do not look at `SRC2`
(R133, R134, R151, R153). -/
def Obligations.RefusalOfLegalCommands : Prop :=
  ∀ s : State, s.busy = false →
    let refused (code : ErrCode) : Host.Outcome State Fault Refusal :=
      .next { s with err := true, errcode := if s.err then s.errcode else code }
    let ramp (g : Slot) : Word := 0x00000002#32 + BitVec.ofNat 32 (16 * g.val)
    let aligned1 := s.src1.toNat % 4 = 0 ∧ s.dst.toNat % 4 = 0
    let fits1 := s.src1.toNat + 4 * s.len.toNat ≤ 2 ^ 32 ∧ s.dst.toNat + 4 * s.len.toNat ≤ 2 ^ 32
    let aligned2 := aligned1 ∧ s.src2.toNat % 4 = 0
    let fits2 := s.src1.toNat + 4 * s.len.toNat ≤ 2 ^ 32 ∧ s.src2.toNat + 4 * s.len.toNat ≤ 2 ^ 32 ∧
      s.dst.toNat + 8 * s.len.toNat ≤ 2 ^ 32
    (∀ g, s.gainValid g = false → exec (.wr .cmd (ramp g)) s = refused .nogain) ∧
    (s.len ≠ 0#32 → ¬ aligned1 → exec (.wr .cmd 0x00000001#32) s = refused .misaligned ∧
      ∀ g, s.gainValid g = true → exec (.wr .cmd (ramp g)) s = refused .misaligned) ∧
    (s.len ≠ 0#32 → aligned1 → ¬ fits1 → exec (.wr .cmd 0x00000001#32) s = refused .range ∧
      ∀ g, s.gainValid g = true → exec (.wr .cmd (ramp g)) s = refused .range) ∧
    (s.len ≠ 0#32 → ¬ aligned2 → exec (.wr .cmd 0x00000003#32) s = refused .misaligned ∧
      exec (.wr .cmd 0x00000004#32) s = refused .misaligned) ∧
    (s.len ≠ 0#32 → aligned2 → ¬ fits2 → exec (.wr .cmd 0x00000003#32) s = refused .range ∧
      exec (.wr .cmd 0x00000004#32) s = refused .range)

/-- R154: `ERRCODE` is written only by a refusal that finds `ERR = 0`; a refusal while `ERR = 1` keeps both. -/
def Obligations.FirstErrorSticks : Prop :=
  ∀ (s : State) (code : ErrCode),
    (s.refuse code).err = true ∧
    (s.err = false → (s.refuse code).errcode = code) ∧
    (s.err = true → (s.refuse code).errcode = s.errcode) ∧
    ∀ code' : ErrCode, (s.refuse code).refuse code' = s.refuse code

/-! ### Register reads -/

/-- A register read returns the value of the register and changes nothing else; a read of a slot with `GVALID[k] = 0` returns a free
value, for every value of the counter (R20 to R35, R132; log 5). -/
def Obligations.ReadReturnsRegister : Prop :=
  ∀ s : State,
    exec (.rd .cmd) s = .next { s with pRdata := s.cmd } ∧
    exec (.rd .status) s = .next { s with pRdata := s.statusWord } ∧
    exec (.rd .ctrl) s = .next { s with pRdata := if s.ie then 1#32 else 0#32 } ∧
    exec (.rd .src1) s = .next { s with pRdata := s.src1 } ∧
    exec (.rd .src2) s = .next { s with pRdata := s.src2 } ∧
    exec (.rd .dst) s = .next { s with pRdata := s.dst } ∧
    exec (.rd .len) s = .next { s with pRdata := s.len } ∧
    exec (.rd .target) s = .next { s with pRdata := s.target } ∧
    exec (.rd .kscale) s = .next { s with pRdata := s.kscale } ∧
    (∃ w : Word, exec (.rd .gvalid) s = .next { s with pRdata := w } ∧ (∀ k : Slot, w.getLsbD k.val = s.gainValid k) ∧
      ∀ j, Config.ng ≤ j → w.getLsbD j = false) ∧
    exec (.rd .id) s = .next { s with pRdata := 0x51323307#32 } ∧
    (∀ a, exec (.rd (.reserved a)) s = .next { s with pRdata := 0#32 }) ∧
    (∀ k, s.gainValid k = true → exec (.rd (.gain k)) s = .next { s with pRdata := s.gain k }) ∧
    (∀ k, s.gainValid k = false → exec (.rd (.gain k)) s =
      .next { s with pRdata := Config.freeWord s.freeCount, freeCount := s.freeCount + 1 })

/-- The word `STATUS` reads as, bit by bit, with the codes of R152 (R22). -/
def Obligations.StatusWordLayout : Prop :=
  ∀ s : State,
    s.statusWord.getLsbD 0 = s.busy ∧ s.statusWord.getLsbD 1 = s.done ∧ s.statusWord.getLsbD 2 = s.err ∧
    s.statusWord.getLsbD 3 = false ∧ (∀ j, 8 ≤ j → s.statusWord.getLsbD j = false) ∧
    s.statusWord.extractLsb' 4 4 = (match s.errcode with
      | .noError => 0#4
      | .illegal => 1#4
      | .nogain => 2#4
      | .misaligned => 3#4
      | .range => 4#4
      | .busywr => 5#4)

/-- The interrupt: with `IE = 1` a completion step and a refusal raise it; a write of 1 to both sticky bits, or of 0 to `IE`, lets it
fall (R41, R156). -/
def Obligations.InterruptFollowsStickyBits : Prop :=
  (∀ s : State, s.ie = true → s.complete.irq = true ∧ ∀ code, (s.refuse code).irq = true) ∧
  (∀ s : State, ∃ t, exec (.wr .status 0x00000006#32) s = .next t ∧ t.irq = false) ∧
  (∀ s : State, ∃ t, exec (.wr .ctrl 0x00000000#32) s = .next t ∧ t.irq = false)

/-! ### Engine steps -/

/-- The element step of `QUANT` (R91, R136): the word stored is `q23` of the word read; nothing else changes but `IDX`. -/
def Obligations.QuantElementStep : Prop :=
  ∀ s : State, s.busy = true → s.idx.toNat < s.len.toNat →
    let src := elementAddress s.src1 s.idx.toNat
    let dst := elementAddress s.dst s.idx.toNat
    formable src = true → s.reaches src = true → formable dst = true → s.reaches dst = true →
    exec .quant s = .next { s with
      mem := Memory.writeWord s.mem dst (q23 (Memory.readWord s.mem src))
      idx := s.idx + 1#32 }

/-- The element step of `RAMP g` (R102, R136): the output is the product with the scale from before the step; the scale steps only for
`i >= 1`, while it differs from `TARGET`, at a crossing; `PREV` is the output; `G[g]` does not change yet. -/
def Obligations.RampElementStep : Prop :=
  ∀ (s : State) (g : Slot), s.busy = true → s.idx.toNat < s.len.toNat →
    let src := elementAddress s.src1 s.idx.toNat
    let dst := elementAddress s.dst s.idx.toNat
    formable src = true → s.reaches src = true → formable dst = true → s.reaches dst = true →
    let y := fmul32 (Memory.readWord s.mem src) s.sw
    exec (.ramp g) s = .next { s with
      mem := Memory.writeWord s.mem dst y
      sw := if s.idx ≠ 0#32 ∧ fne32 s.sw s.target = true ∧ crossing s.prev y = true then rampstep s.sw s.target else s.sw
      prev := y
      idx := s.idx + 1#32 }

/-- The element step of `ZIP` (R115, R136): both inputs are read, then the products are written at output elements `2n` and `2n+1`. -/
def Obligations.ZipElementStep : Prop :=
  ∀ s : State, s.busy = true → s.idx.toNat < s.len.toNat →
    let in1 := elementAddress s.src1 s.idx.toNat
    let in2 := elementAddress s.src2 s.idx.toNat
    let out1 := elementAddress s.dst (2 * s.idx.toNat)
    let out2 := elementAddress s.dst (2 * s.idx.toNat + 1)
    (∀ a, a = in1 ∨ a = in2 ∨ a = out1 ∨ a = out2 → formable a = true ∧ s.reaches a = true) →
    exec .zip s = .next { s with
      mem := Memory.writeWord (Memory.writeWord s.mem out1 (fmul32 (Memory.readWord s.mem in1) s.kscale))
        out2 (fmul32 (Memory.readWord s.mem in2) s.kscale)
      idx := s.idx + 1#32 }

/-- The element step of `ZIPQ` (R116, R136): as `ZIP`, with `q23` of each rounded product. -/
def Obligations.ZipqElementStep : Prop :=
  ∀ s : State, s.busy = true → s.idx.toNat < s.len.toNat →
    let in1 := elementAddress s.src1 s.idx.toNat
    let in2 := elementAddress s.src2 s.idx.toNat
    let out1 := elementAddress s.dst (2 * s.idx.toNat)
    let out2 := elementAddress s.dst (2 * s.idx.toNat + 1)
    (∀ a, a = in1 ∨ a = in2 ∨ a = out1 ∨ a = out2 → formable a = true ∧ s.reaches a = true) →
    exec .zipq s = .next { s with
      mem := Memory.writeWord (Memory.writeWord s.mem out1 (q23 (fmul32 (Memory.readWord s.mem in1) s.kscale)))
        out2 (q23 (fmul32 (Memory.readWord s.mem in2) s.kscale))
      idx := s.idx + 1#32 }

/-- The completion step of each command: `BUSY <- 0`, `DONE <- 1`, for `RAMP g` also `G[g] <- SW`, and nothing else (R136). -/
def Obligations.CompletionStep : Prop :=
  ∀ s : State, s.busy = true → s.idx = s.len →
    exec .quant s = .next { s with busy := false, done := true } ∧
    exec .zip s = .next { s with busy := false, done := true } ∧
    exec .zipq s = .next { s with busy := false, done := true } ∧
    ∀ g : Slot, exec (.ramp g) s = .next { s with busy := false, done := true, gains := s.gains.set g s.sw }

/-- The frame of a command's engine step: the host-visible registers but `BUSY` and `DONE` are unchanged, those two while elements are left;
no slot changes but that of a completing `RAMP`; `SW` and `PREV` are `RAMP`'s; and every byte of memory outside the words the element
stores, at the addresses the meaning computes, is as it was (R34, R91, R102, R115, R116). -/
def Obligations.EngineStepFrame : Prop :=
  ∀ (s t : State) (i : Instr), (i = .quant ∨ (∃ g, i = .ramp g) ∨ i = .zip ∨ i = .zipq) → exec i s = .next t →
    (t.cmd = s.cmd ∧ t.err = s.err ∧ t.errcode = s.errcode ∧ t.ie = s.ie ∧ t.src1 = s.src1 ∧ t.src2 = s.src2 ∧
      t.dst = s.dst ∧ t.len = s.len ∧ t.target = s.target ∧ t.kscale = s.kscale ∧ t.gvalid = s.gvalid ∧ t.rst = s.rst ∧
      t.pRdata = s.pRdata ∧ t.memValid = s.memValid ∧ t.events = s.events ∧ t.freeCount = s.freeCount ∧
      t.agentRdata = s.agentRdata) ∧
    (s.idx.toNat < s.len.toNat → t.busy = s.busy ∧ t.done = s.done) ∧
    (∀ k, i ≠ .ramp k ∨ s.idx.toNat < s.len.toNat → t.gain k = s.gain k) ∧
    ((∀ g, i ≠ .ramp g) → t.sw = s.sw ∧ t.prev = s.prev) ∧
    (s.len.toNat ≤ s.idx.toNat → ∀ a, Memory.readByte t.mem a = Memory.readByte s.mem a) ∧
    ((i = .quant ∨ ∃ g, i = .ramp g) → ∀ a,
      a < elementAddress s.dst s.idx.toNat ∨ elementAddress s.dst s.idx.toNat + 4 ≤ a →
      Memory.readByte t.mem a = Memory.readByte s.mem a) ∧
    ((i = .zip ∨ i = .zipq) → ∀ a,
      a < elementAddress s.dst (2 * s.idx.toNat) ∨ elementAddress s.dst (2 * s.idx.toNat) + 8 ≤ a →
      Memory.readByte t.mem a = Memory.readByte s.mem a)

/-- Where the spec gives an access no behaviour the model stops by name, and only there. An element step faults at the first of its
accesses, the reads before the writes, that lies outside `MEM_VALID`, and at no other (R58 to R60, U1); a step faults only so. Another
agent's write, of bytes that all lie in memory, is refused exactly when one of them lies in the read or write set of a running command, and
its read exactly when one lies in the write set; otherwise the access is performed (R67, U2). The stops are the model's choice among the
treatments U1 and U2 offer (log 7, log 11). -/
def Obligations.UndefinedAccessesStop : Prop :=
  (∀ (s : State) (i : Instr) (f : Fault), (i = .quant ∨ (∃ g, i = .ramp g) ∨ i = .zip ∨ i = .zipq) → s.busy = true →
    s.idx.toNat < s.len.toNat → (∀ a ∈ s.elementAccesses i, formable a = true) →
    (exec i s = .fault f ↔ ∃ before a after, s.elementAccesses i = before ++ a :: after ∧ (∀ b ∈ before, s.reaches b = true) ∧
      s.reaches a = false ∧ f = .outsideMemory a)) ∧
  (∀ (s : State) (f : Fault), s.Inv → step s = .fault f → s.busy = true ∧ s.idx.toNat < s.len.toNat ∧
    ∃ i a, decode (.command s.cmd) = .ok i ∧ a ∈ s.elementAccesses i ∧ s.reaches a = false ∧ f = .outsideMemory a) ∧
  ∀ (s : State) (a : Word) (rest : List Event),
    let inputs (x : Nat) : Prop := (s.src1.toNat ≤ x ∧ x < s.src1.toNat + 4 * s.len.toNat) ∨
      ((decode (.command s.cmd) = .ok .zip ∨ decode (.command s.cmd) = .ok .zipq) ∧
        s.src2.toNat ≤ x ∧ x < s.src2.toNat + 4 * s.len.toNat)
    let output (x : Nat) : Prop := s.dst.toNat ≤ x ∧ (x < s.dst.toNat + 4 * s.len.toNat ∨
      ((decode (.command s.cmd) = .ok .zip ∨ decode (.command s.cmd) = .ok .zipq) ∧ x < s.dst.toNat + 8 * s.len.toNat))
    let runs : Prop := s.busy = true ∧ ∃ i, decode (.command s.cmd) = .ok i
    (∀ bs : List Byte, s.events = .agentWrite a bs :: rest →
      (∀ j, j < bs.length → a.toNat + j < 2 ^ 32 ∧ s.reaches ((a.toNat + j) / 4 * 4) = true) →
      ((∃ j, j < bs.length ∧ runs ∧ (inputs (a.toNat + j) ∨ output (a.toNat + j))) → step s = .refused .racingAccess) ∧
      ((∀ j, j < bs.length → ¬ (runs ∧ (inputs (a.toNat + j) ∨ output (a.toNat + j)))) →
        step s = .next { s with events := rest, mem := Memory.writeBytes s.mem a.toNat bs })) ∧
    (∀ n : Nat, s.events = .agentRead a n :: rest →
      (∀ j, j < n → a.toNat + j < 2 ^ 32 ∧ s.reaches ((a.toNat + j) / 4 * 4) = true) →
      ((∃ j, j < n ∧ runs ∧ output (a.toNat + j)) → step s = .refused .racingAccess) ∧
      ((∀ j, j < n → ¬ (runs ∧ output (a.toNat + j))) →
        step s = .next { s with events := rest, agentRdata := Memory.readBytes s.mem a.toNat n }))

/-! ### Whole commands -/

/-- `QUANT`, just accepted and left alone, with its output block not above its input unless past its end (disjoint, in place, or
overlapping from below; R66): after `LEN` element steps and one completion step every output word is `q23` of its own input word, every byte
outside the output block is as it was, and nothing else has changed but `BUSY`, `DONE` and `IDX` (R91, R93, R136). Overlap from above (R66 (b)) is
left to the single steps of `QuantElementStep`. -/
def Obligations.QuantCommandConvertsBlock : Prop :=
  ∀ s : State, s.Ready .quant →
    (s.dst.toNat ≤ s.src1.toNat ∨ s.src1.toNat + 4 * s.len.toNat ≤ s.dst.toNat) →
    ∃ t : State, Host.Core.run Sys2Proof.core (s.len.toNat + 1) s = .next t ∧
      t = { s with mem := t.mem, busy := false, done := true, idx := s.len } ∧
      Memory.readBlock t.mem s.dst.toNat s.len.toNat =
        (Memory.readBlock s.mem s.src1.toNat s.len.toNat).map q23 ∧
      ∀ a, a < s.dst.toNat ∨ s.dst.toNat + 4 * s.len.toNat ≤ a → Memory.readByte t.mem a = Memory.readByte s.mem a

/-- `RAMP g`, just accepted and left alone, under the same condition on its blocks: the output block and the final `G[g]` are those of
the source's ramped scaler on the input block, from the scale the slot held (R66, R102, R109, R136). Overlap from above is left to the
single steps of `RampElementStep`. -/
def Obligations.RampCommandRunsScaler : Prop :=
  ∀ (s : State) (g : Slot), s.Ready (.ramp g) → s.sw = s.gain g →
    (s.dst.toNat ≤ s.src1.toNat ∨ s.src1.toNat + 4 * s.len.toNat ≤ s.dst.toNat) →
    let r := rampRun s.target none (s.gain g) (Memory.readBlock s.mem s.src1.toNat s.len.toNat)
    ∃ t : State, Host.Core.run Sys2Proof.core (s.len.toNat + 1) s = .next t ∧
      t = { s with mem := t.mem, busy := false, done := true, idx := s.len, sw := t.sw, prev := t.prev, gains := t.gains } ∧
      Memory.readBlock t.mem s.dst.toNat s.len.toNat = r.1 ∧ t.gain g = r.2 ∧
      (∀ k, k ≠ g → t.gain k = s.gain k) ∧
      ∀ a, a < s.dst.toNat ∨ s.dst.toNat + 4 * s.len.toNat ≤ a → Memory.readByte t.mem a = Memory.readByte s.mem a

/-- `ZIP`, just accepted and left alone, with its output block apart from both inputs: element `2n` derives from channel 1 sample `n`,
element `2n+1` from channel 2 sample `n` (R115, R117, R136). Overlapping blocks are left to the single steps of `ZipElementStep`. -/
def Obligations.ZipCommandInterleaves : Prop :=
  ∀ s : State, s.Ready .zip →
    apart s.dst.toNat (8 * s.len.toNat) s.src1.toNat (4 * s.len.toNat) →
    apart s.dst.toNat (8 * s.len.toNat) s.src2.toNat (4 * s.len.toNat) →
    ∃ t : State, Host.Core.run Sys2Proof.core (s.len.toNat + 1) s = .next t ∧
      t = { s with mem := t.mem, busy := false, done := true, idx := s.len } ∧
      (∀ n, n < s.len.toNat →
        Memory.readWord t.mem (s.dst.toNat + 8 * n) = fmul32 (Memory.readWord s.mem (s.src1.toNat + 4 * n)) s.kscale ∧
        Memory.readWord t.mem (s.dst.toNat + 8 * n + 4) = fmul32 (Memory.readWord s.mem (s.src2.toNat + 4 * n)) s.kscale) ∧
      ∀ a, a < s.dst.toNat ∨ s.dst.toNat + 8 * s.len.toNat ≤ a → Memory.readByte t.mem a = Memory.readByte s.mem a

/-- `ZIPQ`, just accepted and left alone, with its output block apart from both inputs: what `ZIP` would store, with `q23` applied
(R116, R117, R136). Overlapping blocks are left to the single steps of `ZipqElementStep`. -/
def Obligations.ZipqCommandInterleavesQuantized : Prop :=
  ∀ s : State, s.Ready .zipq →
    apart s.dst.toNat (8 * s.len.toNat) s.src1.toNat (4 * s.len.toNat) →
    apart s.dst.toNat (8 * s.len.toNat) s.src2.toNat (4 * s.len.toNat) →
    ∃ t : State, Host.Core.run Sys2Proof.core (s.len.toNat + 1) s = .next t ∧
      t = { s with mem := t.mem, busy := false, done := true, idx := s.len } ∧
      (∀ n, n < s.len.toNat →
        Memory.readWord t.mem (s.dst.toNat + 8 * n) =
          q23 (fmul32 (Memory.readWord s.mem (s.src1.toNat + 4 * n)) s.kscale) ∧
        Memory.readWord t.mem (s.dst.toNat + 8 * n + 4) =
          q23 (fmul32 (Memory.readWord s.mem (s.src2.toNat + 4 * n)) s.kscale)) ∧
      ∀ a, a < s.dst.toNat ∨ s.dst.toNat + 8 * s.len.toNat ≤ a → Memory.readByte t.mem a = Memory.readByte s.mem a

/-- One call of the quantizer by the host: from an idle block, out of reset, whose next events are the four transactions of the line
`QUANT src, dst, n`, with operands that pass the checks and lie in memory and blocks that lie apart, the block is converted after those
four transactions, `n` element steps and one completion step; the run has ended, and nothing else has changed (R78, R79, R91, R133 to R136,
R176). -/
def Obligations.QuantCallConvertsBlock : Prop :=
  ∀ (s : State) (src dst n : Word), s.busy = false → s.rst = false → s.events = (HostLine.quantCall src dst n).events →
    (n ≠ 0#32 → src.toNat % 4 = 0 ∧ dst.toNat % 4 = 0 ∧
      src.toNat + 4 * n.toNat ≤ 2 ^ 32 ∧ dst.toNat + 4 * n.toNat ≤ 2 ^ 32) →
    (∀ j, j < n.toNat → s.reaches (src.toNat + 4 * j) = true ∧ s.reaches (dst.toNat + 4 * j) = true) →
    apart dst.toNat (4 * n.toNat) src.toNat (4 * n.toNat) →
    ∃ t : State, Host.Core.run Sys2Proof.core (n.toNat + 5) s = .next t ∧
      t = { s with src1 := src, dst := dst, len := n, cmd := 0x00000001#32, mem := t.mem, done := true, idx := n, events := [] } ∧
      t.ended = true ∧
      (∀ i, i < n.toNat → Memory.readWord t.mem (dst.toNat + 4 * i) = q23 (Memory.readWord s.mem (src.toNat + 4 * i))) ∧
      ∀ a, a < dst.toNat ∨ dst.toNat + 4 * n.toNat ≤ a → Memory.readByte t.mem a = Memory.readByte s.mem a

/-- The lines of the host notation are the port records R75, R77 and R78 give: a call is its operand writes, then the `CMD` write; `ACK`,
`GSET` and `GDROP` are one write each; a program is its lines one after the other. A round of `WAIT` is one read of `STATUS` and a look at
bit 0 of the value read: 0, and the host goes on; 1, and another round comes before any later transaction of the host. That the engine, and
whatever is not the host's at its register port up to its next transaction there (its own memory accesses too), moves before that round is
the model's choice, log 8. -/
def Obligations.HostLinesExpandToRecords : Prop :=
  (∀ (r : PortReg) (v : Word), (HostLine.write r v).events = [.port (portRecord true (portOffset r) v)]) ∧
  (∀ r : PortReg, (HostLine.read r).events = [.port (portRecord false (portOffset r) 0#32)]) ∧
  (∀ c : Word, (HostLine.issue c).events = [.port (portRecord true 0#6 c)]) ∧
  (∀ src dst n : Word, (HostLine.quantCall src dst n).events =
    [.port (portRecord true 3#6 src), .port (portRecord true 5#6 dst), .port (portRecord true 6#6 n),
     .port 0x8000000001#40]) ∧
  (∀ (k : Slot) (src dst n tgt : Word), (HostLine.rampCall k src dst n tgt).events =
    [.port (portRecord true 3#6 src), .port (portRecord true 5#6 dst), .port (portRecord true 6#6 n),
     .port (portRecord true 7#6 tgt), .port (0x8000000002#40 + BitVec.ofNat 40 (16 * k.val))]) ∧
  (∀ src1 src2 dst n k : Word, (HostLine.zipCall src1 src2 dst n k).events =
    [.port (portRecord true 3#6 src1), .port (portRecord true 4#6 src2), .port (portRecord true 5#6 dst),
     .port (portRecord true 6#6 n), .port (portRecord true 8#6 k), .port 0x8000000003#40]) ∧
  (∀ src1 src2 dst n k : Word, (HostLine.zipqCall src1 src2 dst n k).events =
    [.port (portRecord true 3#6 src1), .port (portRecord true 4#6 src2), .port (portRecord true 5#6 dst),
     .port (portRecord true 6#6 n), .port (portRecord true 8#6 k), .port 0x8000000004#40]) ∧
  (∀ mask : Word, (HostLine.ack mask).events = [.port (portRecord true 1#6 mask)]) ∧
  (∀ (k : Slot) (v : Word), (HostLine.gset k v).events = [.port (portRecord true (BitVec.ofNat 6 (16 + k.val)) v)]) ∧
  (∀ k : Slot, (HostLine.gdrop k).events = [.port (portRecord true 9#6 (BitVec.ofNat 32 (2 ^ k.val)))]) ∧
  (∀ (l : HostLine) (ls : List HostLine), hostProgram (l :: ls) = l.events ++ hostProgram ls) ∧
  HostLine.wait.events = [.port 0x0100000000#40, .await] ∧
  ∀ (s : State) (rest : List Event), s.events = .await :: rest →
    (s.pRdata.getLsbD 0 = false → step s = .next { s with events := rest }) ∧
    (s.pRdata.getLsbD 0 = true → ∀ others later : List Event, rest = others ++ later →
      (∀ e ∈ others, e.ofHost = false) → (∀ e ∈ later.head?, e.ofHost = true) →
      step s = .next { s with events := .engine :: (others ++ .port 0x0100000000#40 :: .await :: later) })

/-- Every accepted command completes, after exactly the element steps left and one completion step, whatever the data, the gain, the
target and the overlap of its blocks (R108, R136, R150); and so `WAIT` terminates: with a `WAIT` next, a round for each of those steps finds
`BUSY = 1`, the last finds `BUSY = 0`, the state is that completed one, and no later transaction of the host has happened (R78). That the
engine takes one turn a round is the model's choice, log 8; other transactions between two engine steps disturb nothing, by
`HostTransactionsDoNotDisturb`. -/
def Obligations.AcceptedCommandCompletes : Prop :=
  ∀ (s : State) (i : Instr), s.Inv → s.busy = true → s.events = [] → decode (.command s.cmd) = .ok i → s.footprintIn i →
    (∀ k, k ≤ s.len.toNat - s.idx.toNat → ∃ u : State, Host.Core.run Sys2Proof.core k s = .next u ∧
      u.busy = true ∧ u.idx.toNat = s.idx.toNat + k) ∧
    ∃ t : State, Host.Core.run Sys2Proof.core (s.len.toNat - s.idx.toNat + 1) s = .next t ∧
      t.busy = false ∧ t.done = true ∧
      ∀ later : List Event, (∀ e ∈ later.head?, e.ofHost = true) →
        Host.Core.run Sys2Proof.core (3 * (s.len.toNat - s.idx.toNat + 1) + 2) { s with events := HostLine.wait.events ++ later } =
          .next { t with events := later, pRdata := t.statusWord }

/-- The scale of a `RAMP` does not change at the first element of a block, nor at any element while it compares equal to the target
(R103). -/
def Obligations.RampScaleHeld : Prop :=
  ∀ (s t : State) (g : Slot), exec (.ramp g) s = .next t →
    s.idx = 0#32 ∨ feq32 s.sw s.target = true → t.sw = s.sw

/-- A `RAMP` whose scale is a NaN stores the canonical NaN at every element and never changes its scale (R107). -/
def Obligations.RampNanScale : Prop :=
  ∀ (s : State) (g : Slot), s.busy = true → s.idx.toNat < s.len.toNat → fIsNaN s.sw = true →
    let src := elementAddress s.src1 s.idx.toNat
    let dst := elementAddress s.dst s.idx.toNat
    formable src = true → s.reaches src = true → formable dst = true → s.reaches dst = true →
    exec (.ramp g) s = .next { s with
      mem := Memory.writeWord s.mem dst 0x7FC00000#32
      prev := 0x7FC00000#32
      idx := s.idx + 1#32 }

/-! ### Arithmetic -/

/-- R10: `round32` of the exact magnitude `n * 2^-(149+k)` is its rounding, to nearest with ties to even, for either sign and every `n` and
`k`. So the product of two finite words is the rounding of the exact product with the xor of the signs (R11), and their sum and
difference, unless the exact one is zero, the rounding of the exact one with its own sign (R12). -/
def Obligations.RoundToNearestEven : Prop :=
  (∀ (neg : Bool) (n k : Nat), IsRounding neg n k (round32 neg n k)) ∧
  ∀ a b : Word, fExp a ≠ 255 → fExp b ≠ 255 →
    IsRounding (fSign a != fSign b) (fUnits a * fUnits b) 149 (fmul32 a b) ∧
    (fValue a + fValue b ≠ 0 →
      IsRounding (decide (fValue a + fValue b < 0)) (fValue a + fValue b).natAbs 0 (fadd32 a b)) ∧
    (fValue a - fValue b ≠ 0 →
      IsRounding (decide (fValue a - fValue b < 0)) (fValue a - fValue b).natAbs 0 (fsub32 a b))

/-- `fmul32` where the product is not rounded (where it is: `RoundToNearestEven`): NaN operands and an infinity times a zero give `CANON_NAN`; any other product with an infinity
is the infinity of the xor of the signs; a product with a zero is the zero of that sign (R11). -/
def Obligations.MultiplySpecialCases : Prop :=
  ∀ a b : Word,
    (fIsNaN a = true ∨ fIsNaN b = true → fmul32 a b = 0x7FC00000#32) ∧
    (fIsInf a = true → fIsZero b = true → fmul32 a b = 0x7FC00000#32 ∧ fmul32 b a = 0x7FC00000#32) ∧
    (fIsInf a = true → fIsNaN b = false → fIsZero b = false →
      fmul32 a b = (if fSign a = fSign b then 0x7F800000#32 else 0xFF800000#32) ∧ fmul32 b a = fmul32 a b) ∧
    (fIsZero a = true → fExp b ≠ 255 →
      fmul32 a b = (if fSign a = fSign b then 0x00000000#32 else 0x80000000#32) ∧ fmul32 b a = fmul32 a b)

/-- `fadd32` where the sum is not rounded (where it is: `RoundToNearestEven`): NaN operands and infinities of opposite sign give `CANON_NAN`; any other sum with an infinity is
that infinity; an exact zero sum is `-0` when both signs are 1 and `+0` otherwise; and `fsub32(v, v) = +0` for finite `v` (R12). -/
def Obligations.AddSpecialCases : Prop :=
  ∀ a b : Word,
    (fIsNaN a = true ∨ fIsNaN b = true → fadd32 a b = 0x7FC00000#32) ∧
    (fIsInf a = true → fIsInf b = true → fSign a ≠ fSign b → fadd32 a b = 0x7FC00000#32) ∧
    (fIsInf a = true → fIsNaN b = false → (fIsInf b = true → fSign b = fSign a) → fadd32 a b = a ∧ fadd32 b a = a) ∧
    (fExp a ≠ 255 → fExp b ≠ 255 → fValue a + fValue b = 0 →
      fadd32 a b = if fSign a = true ∧ fSign b = true then 0x80000000#32 else 0x00000000#32) ∧
    (fExp a ≠ 255 → fsub32 a a = 0x00000000#32)

/-- Multiplying by 1.0 gives every non-NaN word back, bit for bit (R103 (d), R115). -/
def Obligations.MultiplyByOneIsIdentity : Prop :=
  ∀ x : Word, fIsNaN x = false → fmul32 x 0x3F800000#32 = x ∧ fmul32 0x3F800000#32 x = x

/-- R16: multiplying a binary32 value by `2^23` (the word `0x4B000000`) is exact unless it overflows, and overflow gives the infinity of
the same sign; an infinity stays as it is. In units of `2^-149`, `2^128` is `2^277`. -/
def Obligations.MultiplyByQScaleExact : Prop :=
  ∀ w : Word,
    (fIsInf w = true → fmul32 w 0x4B000000#32 = w) ∧
    (fExp w ≠ 255 → fUnits w * 2 ^ 23 < 2 ^ 277 → fUnits (fmul32 w 0x4B000000#32) = fUnits w * 2 ^ 23 ∧
      fSign (fmul32 w 0x4B000000#32) = fSign w ∧ fExp (fmul32 w 0x4B000000#32) ≠ 255) ∧
    (fExp w ≠ 255 → 2 ^ 277 ≤ fUnits w * 2 ^ 23 →
      fmul32 w 0x4B000000#32 = if fSign w then 0xFF800000#32 else 0x7F800000#32)

/-- Comparisons (R14): with a NaN all are false but `fne32`. Without one exactly one of less, equal, greater holds and the others follow;
finite words compare as their exact values do; an infinity lies beyond every finite value. By bits: zeros of both signs are equal, a set sign
is below a clear one, and of one sign the magnitude bits decide, the other way round for negative words. -/
def Obligations.ComparisonsOrderValues : Prop :=
  ∀ a b : Word,
    (fIsNaN a = true ∨ fIsNaN b = true → flt32 a b = false ∧ fle32 a b = false ∧ fgt32 a b = false ∧ fge32 a b = false ∧
      feq32 a b = false ∧ fne32 a b = true) ∧
    (fIsNaN a = false → fIsNaN b = false →
      ((flt32 a b = true ∧ feq32 a b = false ∧ fgt32 a b = false) ∨ (flt32 a b = false ∧ feq32 a b = true ∧ fgt32 a b = false) ∨
        (flt32 a b = false ∧ feq32 a b = false ∧ fgt32 a b = true)) ∧
      fle32 a b = (flt32 a b || feq32 a b) ∧ fge32 a b = (fgt32 a b || feq32 a b) ∧ fne32 a b = !feq32 a b ∧
      fgt32 a b = flt32 b a ∧ feq32 a b = feq32 b a ∧
      (fExp a ≠ 255 → fExp b ≠ 255 → (flt32 a b = true ↔ fValue a < fValue b) ∧ (feq32 a b = true ↔ fValue a = fValue b)) ∧
      (fExp a ≠ 255 → flt32 0xFF800000#32 a = true ∧ flt32 a 0x7F800000#32 = true) ∧
      flt32 0xFF800000#32 0x7F800000#32 = true ∧
      (feq32 a b = true ↔ a = b ∨ (fIsZero a = true ∧ fIsZero b = true)) ∧
      (flt32 a b = true ↔
        (fSign a = true ∧ fSign b = false ∧ ¬ (fIsZero a = true ∧ fIsZero b = true)) ∨
        (fSign a = false ∧ fSign b = false ∧ a.toNat < b.toNat) ∨
        (fSign a = true ∧ fSign b = true ∧ b.toNat < a.toNat)))

/-- R90: the two forms of the quantizer agree on all words, and the upper eight bits are the sign extension of bit 23. -/
def Obligations.QuantizerFormsAgree : Prop :=
  ∀ w : Word, q23 w = BitVec.ofInt 32 (q23Real w) ∧ (q23 w).toInt = q23Real w ∧
    ∀ j, 24 ≤ j → j < 32 → (q23 w).getLsbD j = (q23 w).getLsbD 23

/-- The quantizer's output is always within its bounds, and it is odd below magnitude 1.0 (R92 (c), (e)). -/
def Obligations.QuantizerBoundedAndOdd : Prop :=
  ∀ w : Word, -8388608 ≤ (q23 w).toInt ∧ (q23 w).toInt ≤ 8388607 ∧
    (fIsNaN w = false → fUnits w < 2 ^ 149 → (q23 (w ^^^ 0x80000000#32)).toInt = -(q23 w).toInt)

/-- The quantizer is monotone over the non-NaN words (R92 (f)). -/
def Obligations.QuantizerMonotone : Prop :=
  ∀ v w : Word, fle32 v w = true → (q23 v).toInt ≤ (q23 w).toInt

/-- A crossing, by bits: neither sample is a NaN, and one of them is a zero or their signs differ (R100). -/
def Obligations.CrossingByZeroOrSign : Prop :=
  ∀ p y : Word, crossing p y = true ↔
    fIsNaN p = false ∧ fIsNaN y = false ∧ (fIsZero p = true ∨ fIsZero y = true ∨ fSign p ≠ fSign y)

/-- The absorbed step: a finite scale of magnitude above `2^17` (in units of `2^-149`, above `2^166`) is not moved by the ramp step in either
direction; at `2^17` and at `-2^17` exactly only the step toward zero moves it, to the neighbouring word (R107 (a)). -/
def Obligations.RampStepAbsorbed : Prop :=
  (∀ sw : Word, fExp sw ≠ 255 → 2 ^ 166 < fUnits sw →
    fadd32 sw 0x3B810204#32 = sw ∧ fsub32 sw 0x3B810204#32 = sw) ∧
  fadd32 0x48000000#32 0x3B810204#32 = 0x48000000#32 ∧ fsub32 0x48000000#32 0x3B810204#32 = 0x47FFFFFF#32 ∧
  fsub32 0xC8000000#32 0x3B810204#32 = 0xC8000000#32 ∧ fadd32 0xC8000000#32 0x3B810204#32 = 0xC7FFFFFF#32

/-- The source's invariant of the gain, in the rounded arithmetic, for scales below `2^15` in magnitude (in units, below `2^164`) and any finite
target: a step moves the scale strictly toward the target and never past it; and when the scale differs from the target by less than
`RAMP_EPS` it lands on the target's exact bits (R104, R105). Scales from `2^15` to `2^17` in magnitude are left out. -/
def Obligations.RampStepMovesTowardTarget : Prop :=
  ∀ sw tgt : Word, fUnits sw < 2 ^ 164 → fExp tgt ≠ 255 →
    (flt32 sw tgt = true → flt32 sw (rampstep sw tgt) = true ∧ fle32 (rampstep sw tgt) tgt = true) ∧
    (flt32 tgt sw = true → flt32 (rampstep sw tgt) sw = true ∧ fle32 tgt (rampstep sw tgt) = true) ∧
    (fne32 sw tgt = true → flt32 (fabs32 (fsub32 sw tgt)) 0x3C010204#32 = true → rampstep sw tgt = tgt)

/-! ### Reset -/

/-- What the spec states of the state after reset: the registers it gives values, the flags, no valid slot, `irq = 0` (R42, R171). Nothing
is said of `G[k]`, `SW`, `PREV`, `IDX`, which R42 leaves unspecified. -/
def Obligations.ResetRegisters : Prop :=
  let s := State.reset
  s.cmd = 0#32 ∧ s.statusWord = 0#32 ∧ s.ctrlWord = 0#32 ∧ s.src1 = 0#32 ∧ s.src2 = 0#32 ∧ s.dst = 0#32 ∧ s.len = 0#32 ∧
  s.target = 0#32 ∧ s.kscale = 0#32 ∧ s.gvalidWord = 0#32 ∧ (∀ k, s.gainValid k = false) ∧ s.irq = false ∧
  exec (.rd .id) s = .next { s with pRdata := 0x51323307#32 }

/-- Reset at any time: the registers go to their reset values and the command, if any, is abandoned with `DONE` not set. The sample memory is
not touched when no element is in progress. While one is, every byte outside the words the element stores is as it was; the output word of
`QUANT` and of `RAMP` holds the old value or the value being written; and those of `ZIP` and `ZIPQ` are both old, the first new and the
second old, or both new, the writes being in order (R60, R170 to R172, U7). The value the host has read stays the one it has read, which a
`WAIT` under way looks at (R78; that the model keeps it in State is its choice, log 4). That the number of writes performed is data of the event, and that
nothing is written by or after an access outside `MEM_VALID`, is the model's choice, log 12. -/
def Obligations.ResetAbandonsCommand : Prop :=
  ∀ (s : State) (n : Nat) (rest : List Event), s.events = .rstRise n :: rest →
    ∃ t : State, step s = .next t ∧ t.rst = true ∧ t.events = rest ∧ t.memValid = s.memValid ∧ t.pRdata = s.pRdata ∧
      t.cmd = 0#32 ∧ t.statusWord = 0#32 ∧ t.ctrlWord = 0#32 ∧ t.src1 = 0#32 ∧ t.src2 = 0#32 ∧ t.dst = 0#32 ∧
      t.len = 0#32 ∧ t.target = 0#32 ∧ t.kscale = 0#32 ∧ t.gvalid = 0#Config.ng ∧
      (s.busy = false ∨ s.len.toNat ≤ s.idx.toNat → t.mem = s.mem) ∧
      let input (base : Word) : Word := Memory.readWord s.mem (elementAddress base s.idx.toNat)
      let one (new : Word) : Prop :=
        let out := elementAddress s.dst s.idx.toNat
        (∀ a, a < out ∨ out + 4 ≤ a → Memory.readByte t.mem a = Memory.readByte s.mem a) ∧
        (Memory.readWord t.mem out = Memory.readWord s.mem out ∨ Memory.readWord t.mem out = new)
      let two (new1 new2 : Word) : Prop :=
        let out1 := elementAddress s.dst (2 * s.idx.toNat)
        let out2 := elementAddress s.dst (2 * s.idx.toNat + 1)
        (∀ a, a < out1 ∨ out2 + 4 ≤ a → Memory.readByte t.mem a = Memory.readByte s.mem a) ∧
        ((Memory.readWord t.mem out1 = Memory.readWord s.mem out1 ∧ Memory.readWord t.mem out2 = Memory.readWord s.mem out2) ∨
          (Memory.readWord t.mem out1 = new1 ∧ Memory.readWord t.mem out2 = Memory.readWord s.mem out2) ∨
          (Memory.readWord t.mem out1 = new1 ∧ Memory.readWord t.mem out2 = new2))
      (decode (.command s.cmd) = .ok .quant → one (q23 (input s.src1))) ∧
      (∀ g, decode (.command s.cmd) = .ok (.ramp g) → one (fmul32 (input s.src1) s.sw)) ∧
      (decode (.command s.cmd) = .ok .zip → two (fmul32 (input s.src1) s.kscale) (fmul32 (input s.src2) s.kscale)) ∧
      (decode (.command s.cmd) = .ok .zipq → two (q23 (fmul32 (input s.src1) s.kscale)) (q23 (fmul32 (input s.src2) s.kscale)))

/-- A register write while `rst = 1` is ignored (R170). -/
def Obligations.WriteDuringResetIgnored : Prop :=
  ∀ (s : State) (r : BitVec 40) (rest : List Event) (reg : PortReg) (v : Word), s.events = .port r :: rest → s.rst = true →
    decode (.record r) = .ok (.wr reg v) → step s = .next { s with events := rest }

/-! ### Memory -/

/-- Byte order: after the write of a word at `a`, the byte at `a + j` is bits `8j+7 : 8j` of it, the word reads back, and every other byte
is as it was (R51 to R53). -/
def Obligations.WordBytesLittleEndian : Prop :=
  ∀ (m : Memory) (a : Nat) (v : Word),
    (∀ j, j < 4 → Memory.readByte (Memory.writeWord m a v) (a + j) = v.extractLsb' (8 * j) 8) ∧
    Memory.readWord (Memory.writeWord m a v) a = v ∧
    ∀ b, b < a ∨ a + 4 ≤ b → Memory.readByte (Memory.writeWord m a v) b = Memory.readByte m b

/-! ### The whole machine -/

/-- The invariant holds of the state after reset. -/
def Obligations.InvHoldsAtReset : Prop := State.reset.Inv

/-- Every step keeps the invariant: from every state that has it, whatever happens next. -/
def Obligations.StepKeepsInv : Prop :=
  ∀ s t : State, s.Inv → step s = .next t → t.Inv

/-- While a command runs and goes on running, its operands, its word, the gain-state file and the valid bits are constant, whatever the host
and the other agents do (R65, R137). -/
def Obligations.RunningOperandsConstant : Prop :=
  ∀ s t : State, step s = .next t → s.busy = true → t.busy = true →
    t.cmd = s.cmd ∧ t.src1 = s.src1 ∧ t.src2 = s.src2 ∧ t.dst = s.dst ∧ t.len = s.len ∧ t.target = s.target ∧
    t.kscale = s.kscale ∧ t.gains = s.gains ∧ t.gvalid = s.gvalid

/-- A host transaction while a command runs disturbs nothing the command depends on (R132, R137, R142). -/
def Obligations.HostTransactionsDoNotDisturb : Prop :=
  ∀ s : State, s.busy = true → ∀ r : PortReg,
    (∀ v, ∃ t, exec (.wr r v) s = .next t ∧ t.engineView = s.engineView) ∧
    (∃ t, exec (.rd r) s = .next t ∧ t.engineView = s.engineView)

/-- An engine step depends on the engine's view alone: from two states with one view it has, for each command, the same fault or next states
with one view; so flags, the interrupt enable and what the host has read can influence no output word and no gain (R36, R142). -/
def Obligations.EngineDependsOnlyOnView : Prop :=
  ∀ (s s' : State) (i : Instr), (i = .quant ∨ (∃ g, i = .ramp g) ∨ i = .zip ∨ i = .zipq) → s.engineView = s'.engineView →
    (∃ f, exec i s = .fault f ∧ exec i s' = .fault f) ∨
    (∃ t t', exec i s = .next t ∧ exec i s' = .next t' ∧ t.engineView = t'.engineView)

/-- The gain-state file changes only by the completion step of a `RAMP`, in its slot, by a host write of a slot while no command runs, or by
reset (R32, R34, R109). -/
def Obligations.GainFileChangesOnlyBy : Prop :=
  ∀ s t : State, step s = .next t →
    t.gains = s.gains ∨
    (∃ g, s.busy = true ∧ decode (.command s.cmd) = .ok (.ramp g) ∧ s.len.toNat ≤ s.idx.toNat ∧ t.busy = false ∧
      t.gains = s.gains.set g s.sw) ∨
    (∃ r rest k v, s.events = .port r :: rest ∧ decode (.record r) = .ok (.wr (.gain k) v) ∧ s.busy = false ∧
      t.gains = s.gains.set k v) ∨
    ∃ n rest, s.events = .rstRise n :: rest

/-- `BUSY` ends only by the completion step, which sets `DONE`, or by reset; `DONE` is cleared only by a host write of 1 to its bit or by
reset (R22, R135, R136). -/
def Obligations.BusyAndDoneChangeOnlyBy : Prop :=
  ∀ s t : State, step s = .next t →
    (s.busy = true → t.busy = false → (s.len.toNat ≤ s.idx.toNat ∧ t.done = true) ∨ ∃ n rest, s.events = .rstRise n :: rest) ∧
    (s.done = true → t.done = false →
      (∃ r rest v, s.events = .port r :: rest ∧ decode (.record r) = .ok (.wr .status v) ∧ v.getLsbD 1 = true) ∨
      ∃ n rest, s.events = .rstRise n :: rest)
end

