-- ==== Sys2Proof/Laws/Float32.lean ====
section
/-! SUPPORT. What the rounding of the binary32 primitives does, said once (`00_scope.md` R9, R10). -/

namespace Sys2Proof.Machine

theorem withSign_toNat (neg : Bool) {m : Nat} (h : m < 2 ^ 31) :
    (withSign neg m).toNat = m + if neg then 2 ^ 31 else 0 := by
  cases neg <;> simp [withSign] <;> omega

@[simp] theorem fSign_withSign (neg : Bool) {m : Nat} (h : m < 2 ^ 31) : fSign (withSign neg m) = neg := by
  have := withSign_toNat neg h
  unfold fSign
  rw [BitVec.getLsbD, this]
  cases neg
  · simpa using Nat.testBit_lt_two_pow h
  · rw [if_pos rfl, Nat.add_comm, Nat.testBit_two_pow_add_eq]
    simp [Nat.testBit_lt_two_pow h]

theorem fExp_withSign (neg : Bool) {m : Nat} (h : m < 2 ^ 31) : fExp (withSign neg m) = m / 2 ^ 23 := by
  have := withSign_toNat neg h
  simp only [fExp, BitVec.extractLsb'_toNat, this, Nat.shiftRight_eq_div_pow]
  cases neg <;> simp <;> omega

theorem fFrac_withSign (neg : Bool) {m : Nat} (h : m < 2 ^ 31) : fFrac (withSign neg m) = m % 2 ^ 23 := by
  have := withSign_toNat neg h
  simp only [fFrac, BitVec.extractLsb'_toNat, this, Nat.shiftRight_zero]
  cases neg <;> simp
  omega

/-- The word that encodes a significand `q` of at most 24 bits, or the carry `2^24`, at the exponent `e` has the value `q * 2^e` in
units of `2^-149`. -/
theorem fUnits_withSign (neg : Bool) {e q : Nat} (hq : q ≤ 2 ^ 24) (hn : 2 ^ 23 ≤ q ∨ e = 0)
    (h : e * 2 ^ 23 + q < 0x7F800000) : fUnits (withSign neg (e * 2 ^ 23 + q)) = q * 2 ^ e := by
  have hm : e * 2 ^ 23 + q < 2 ^ 31 := by omega
  unfold fUnits
  rw [fExp_withSign neg hm, fFrac_withSign neg hm]
  rcases Nat.lt_or_ge q (2 ^ 23) with hlt | hge
  · obtain rfl : e = 0 := by omega
    rw [if_pos (by omega)]
    omega
  · rcases Nat.eq_or_lt_of_le hq with rfl | hlt
    · rw [if_neg (by omega), show (e * 2 ^ 23 + 2 ^ 24) / 2 ^ 23 - 1 = e + 1 by omega,
        show (e * 2 ^ 23 + 2 ^ 24) % 2 ^ 23 = 0 by omega]
      ring
    · rw [if_neg (by omega), show (e * 2 ^ 23 + q) / 2 ^ 23 - 1 = e by omega,
        show (e * 2 ^ 23 + q) % 2 ^ 23 = q - 2 ^ 23 by omega, Nat.add_sub_cancel' hge]

/-- `roundShift` is one of the two integers around the quotient, at most half a unit away, and even when exactly half a unit away. -/
theorem roundShift_nearest (n sh : Nat) :
    (roundShift n sh = n / 2 ^ sh ∨ roundShift n sh = n / 2 ^ sh + 1) ∧
    2 * n ≤ (2 * roundShift n sh + 1) * 2 ^ sh ∧ 2 * roundShift n sh * 2 ^ sh ≤ 2 * n + 2 ^ sh ∧
    ((2 * n = (2 * roundShift n sh + 1) * 2 ^ sh ∨ 2 * roundShift n sh * 2 ^ sh = 2 * n + 2 ^ sh) →
      roundShift n sh % 2 = 0) := by
  have hp : 0 < 2 ^ sh := Nat.two_pow_pos sh
  have hd := Nat.div_add_mod n (2 ^ sh)
  have hr := Nat.mod_lt n hp
  unfold roundShift
  generalize n / 2 ^ sh = q at *
  generalize n % 2 ^ sh = r at *
  generalize 2 ^ sh = p at *
  subst hd
  simp only
  split_ifs with h
  · refine ⟨.inr rfl, ?_, ?_, ?_⟩
    · nlinarith
    · rcases h with h | h <;> nlinarith
    · intro h'
      rcases h with h | ⟨h, hq⟩
      · exfalso
        rcases h' with h' | h' <;> nlinarith
      · omega
  · refine ⟨.inl rfl, ?_, ?_, ?_⟩
    · rcases Nat.lt_or_ge p (2 * r) with hl | hl
      · exact absurd (.inl hl) h
      · nlinarith
    · nlinarith
    · intro h'
      by_contra hodd
      have hq : q % 2 = 1 := by omega
      have hne : 2 * r ≠ p := fun e => h (.inr ⟨e, hq⟩)
      have hle : 2 * r ≤ p := by
        by_contra hgt
        exact h (.inl (by omega))
      have hlt : 2 * r < p := by omega
      rcases h' with h' | h' <;> nlinarith

end Sys2Proof.Machine
end

