-- ==== Sys2Proof/Laws/Memory.lean ====
section
/-! SUPPORT. Laws of the sample memory: read after write, and every write keeps the canonical form. -/

namespace Sys2Proof.Machine

theorem Memory.readByte_erase_same (m : Memory) (x : Nat) :
    Memory.readByte (Memory.erase m x) x = Config.unwrittenByte := by
  induction m with
  | nil => rfl
  | cons c m ih =>
    obtain ⟨a, b⟩ := c
    by_cases h : a = x <;> simp [Memory.erase, Memory.readByte, h, ih]

theorem Memory.readByte_erase_other (m : Memory) {x y : Nat} (h : y ≠ x) :
    Memory.readByte (Memory.erase m x) y = Memory.readByte m y := by
  induction m with
  | nil => rfl
  | cons c m ih =>
    obtain ⟨a, b⟩ := c
    by_cases ha : a = x
    · subst ha
      simp [Memory.erase, Memory.readByte, ih, Ne.symm h]
    · simp [Memory.erase, Memory.readByte, ha, ih]

theorem Memory.readByte_insert_erase_same (m : Memory) (x : Nat) (v : Byte) :
    Memory.readByte (Memory.insert (Memory.erase m x) x v) x = v := by
  induction m with
  | nil => simp [Memory.erase, Memory.insert, Memory.readByte]
  | cons c m ih =>
    obtain ⟨a, b⟩ := c
    by_cases ha : a = x
    · simp [Memory.erase, ha, ih]
    · by_cases hx : x < a <;> simp [Memory.erase, Memory.insert, Memory.readByte, ha, hx, ih]

theorem Memory.readByte_insert_other (m : Memory) {x y : Nat} (v : Byte) (h : y ≠ x) :
    Memory.readByte (Memory.insert m x v) y = Memory.readByte m y := by
  induction m with
  | nil => simp [Memory.insert, Memory.readByte, Ne.symm h]
  | cons c m ih =>
    obtain ⟨a, b⟩ := c
    by_cases hx : x < a
    · simp [Memory.insert, Memory.readByte, hx, Ne.symm h]
    · simp [Memory.insert, Memory.readByte, hx, ih]

/-- A read after a write to the same byte gives the value written. -/
@[simp] theorem Memory.readByte_writeByte_same (m : Memory) (x : Nat) (v : Byte) :
    Memory.readByte (Memory.writeByte m x v) x = v := by
  by_cases h : v = Config.unwrittenByte
  · simp [Memory.writeByte, h, Memory.readByte_erase_same]
  · simp [Memory.writeByte, h, Memory.readByte_insert_erase_same]

/-- A write to one byte leaves every other byte alone. -/
theorem Memory.readByte_writeByte_other (m : Memory) {x y : Nat} (v : Byte) (h : y ≠ x) :
    Memory.readByte (Memory.writeByte m x v) y = Memory.readByte m y := by
  unfold Memory.writeByte
  split
  · exact Memory.readByte_erase_other m h
  · rw [Memory.readByte_insert_other _ v h, Memory.readByte_erase_other m h]

theorem Memory.readByte_writeByte (m : Memory) (x y : Nat) (v : Byte) :
    Memory.readByte (Memory.writeByte m x v) y = if y = x then v else Memory.readByte m y := by
  split
  · next h => subst h; simp
  · next h => exact Memory.readByte_writeByte_other m v h

/-- A write of a word leaves every byte outside its four alone (R53). -/
theorem Memory.readByte_writeWord_other (m : Memory) {a y : Nat} (v : Word) (h : y < a ∨ a + 4 ≤ y) :
    Memory.readByte (Memory.writeWord m a v) y = Memory.readByte m y := by
  simp only [Memory.writeWord, Memory.readByte_writeByte]
  rw [if_neg (by omega), if_neg (by omega), if_neg (by omega), if_neg (by omega)]

/-- A read after a write to the same word gives the word written (R52, R53). -/
@[simp] theorem Memory.readWord_writeWord_same (m : Memory) (a : Nat) (v : Word) :
    Memory.readWord (Memory.writeWord m a v) a = v := by
  simp only [Memory.readWord, Memory.writeWord, Memory.readByte_writeByte]
  simp only [Nat.add_left_cancel_iff, Nat.add_eq_left, Nat.left_eq_add, if_true, Nat.reduceEqDiff, if_false]
  ext i hi
  simp only [BitVec.getElem_append, BitVec.getElem_extractLsb']
  split_ifs <;> first | (simp; rfl) | (rw [← BitVec.getLsbD_eq_getElem]; congr 1; omega)

/-- A word read depends on its four bytes alone. -/
theorem Memory.readWord_congr {m m' : Memory} {a : Nat}
    (h : ∀ y, a ≤ y → y < a + 4 → Memory.readByte m' y = Memory.readByte m y) :
    Memory.readWord m' a = Memory.readWord m a := by
  simp [Memory.readWord, h (a + 3) (by omega) (by omega), h (a + 2) (by omega) (by omega),
    h (a + 1) (by omega) (by omega), h a (by omega) (by omega)]

/-- A write of a word leaves every word that does not touch it alone. -/
theorem Memory.readWord_writeWord_other (m : Memory) {a b : Nat} (v : Word) (h : b + 4 ≤ a ∨ a + 4 ≤ b) :
    Memory.readWord (Memory.writeWord m a v) b = Memory.readWord m b :=
  Memory.readWord_congr fun y h1 h2 => Memory.readByte_writeWord_other m v (by omega)

/-! ### The canonical form -/

theorem Memory.wfAbove_mono {lo lo' : Nat} {m : Memory} (h : Memory.wfAbove lo m = true) (hl : lo' ≤ lo) :
    Memory.wfAbove lo' m = true := by
  cases m with
  | nil => rfl
  | cons c m =>
    obtain ⟨a, b⟩ := c
    simp only [Memory.wfAbove, Bool.and_eq_true, decide_eq_true_eq] at h ⊢
    exact ⟨⟨⟨by omega, h.1.1.2⟩, h.1.2⟩, h.2⟩

theorem Memory.wfAbove_erase {lo : Nat} {m : Memory} (x : Nat) (h : Memory.wfAbove lo m = true) :
    Memory.wfAbove lo (Memory.erase m x) = true := by
  induction m generalizing lo with
  | nil => rfl
  | cons c m ih =>
    obtain ⟨a, b⟩ := c
    simp only [Memory.wfAbove, Bool.and_eq_true, decide_eq_true_eq] at h
    obtain ⟨⟨⟨h1, h2⟩, h3⟩, h4⟩ := h
    by_cases ha : a = x
    · simp only [Memory.erase, ha, if_true]
      exact ih (Memory.wfAbove_mono h4 (by omega))
    · simp only [Memory.erase, ha, if_false, Memory.wfAbove, Bool.and_eq_true, decide_eq_true_eq]
      exact ⟨⟨⟨h1, h2⟩, h3⟩, ih h4⟩

theorem Memory.wfAbove_insert_erase {lo : Nat} {m : Memory} {x : Nat} {v : Byte} (h : Memory.wfAbove lo m = true)
    (hlo : lo ≤ x) (hx : x < 2 ^ 32) (hv : v ≠ Config.unwrittenByte) :
    Memory.wfAbove lo (Memory.insert (Memory.erase m x) x v) = true := by
  induction m generalizing lo with
  | nil => simpa [Memory.erase, Memory.insert, Memory.wfAbove, hlo, hv] using hx
  | cons c m ih =>
    obtain ⟨a, b⟩ := c
    simp only [Memory.wfAbove, Bool.and_eq_true, decide_eq_true_eq] at h
    obtain ⟨⟨⟨h1, h2⟩, h3⟩, h4⟩ := h
    by_cases ha : a = x
    · simp only [Memory.erase, ha, if_true]
      exact ih (Memory.wfAbove_mono h4 (by omega)) hlo
    · by_cases hxa : x < a
      · simp only [Memory.erase, Memory.insert, ha, hxa, if_true, if_false, Memory.wfAbove, Bool.and_eq_true,
          decide_eq_true_eq]
        exact ⟨⟨⟨hlo, hx⟩, by simpa using hv⟩, ⟨⟨by omega, h2⟩, h3⟩, Memory.wfAbove_erase x h4⟩
      · simp only [Memory.erase, Memory.insert, ha, hxa, if_false, Memory.wfAbove, Bool.and_eq_true,
          decide_eq_true_eq]
        exact ⟨⟨⟨h1, h2⟩, h3⟩, ih h4 (by omega)⟩

/-- A write of a byte inside the address space keeps the canonical form. -/
theorem Memory.wf_writeByte {m : Memory} {x : Nat} (v : Byte) (h : Memory.wf m = true) (hx : x < 2 ^ 32) :
    Memory.wf (Memory.writeByte m x v) = true := by
  unfold Memory.wf Memory.writeByte at *
  split
  · exact Memory.wfAbove_erase x h
  · next hv => exact Memory.wfAbove_insert_erase h (Nat.zero_le _) hx hv

/-- A write of a word inside the address space keeps the canonical form. -/
theorem Memory.wf_writeWord {m : Memory} {a : Nat} (v : Word) (h : Memory.wf m = true) (ha : a + 4 ≤ 2 ^ 32) :
    Memory.wf (Memory.writeWord m a v) = true :=
  Memory.wf_writeByte _ (Memory.wf_writeByte _ (Memory.wf_writeByte _ (Memory.wf_writeByte _ h (by omega))
    (by omega)) (by omega)) (by omega)

/-- A write of bytes inside the address space keeps the canonical form. -/
theorem Memory.wf_writeBytes {m : Memory} {a : Nat} {bs : List Byte} (h : Memory.wf m = true)
    (ha : a + bs.length ≤ 2 ^ 32) : Memory.wf (Memory.writeBytes m a bs) = true := by
  induction bs generalizing m a with
  | nil => exact h
  | cons b bs ih =>
    simp only [List.length_cons] at ha
    exact ih (Memory.wf_writeByte b h (by omega)) (by omega)

/-- A write of bytes leaves every byte outside them alone. -/
theorem Memory.readByte_writeBytes_other {m : Memory} {a y : Nat} {bs : List Byte} (h : y < a ∨ a + bs.length ≤ y) :
    Memory.readByte (Memory.writeBytes m a bs) y = Memory.readByte m y := by
  induction bs generalizing m a with
  | nil => rfl
  | cons b bs ih =>
    simp only [List.length_cons] at h
    rw [Memory.writeBytes, ih (by omega), Memory.readByte_writeByte_other m b (by omega)]

/-! ### Blocks -/

@[simp] theorem Memory.readBlock_length (m : Memory) (a n : Nat) : (Memory.readBlock m a n).length = n := by
  induction n generalizing a with
  | zero => rfl
  | succ n ih => simp [Memory.readBlock, ih]

/-- Element `i` of a block is the word at `a + 4*i` (R56). -/
theorem Memory.readBlock_getElem (m : Memory) (a n i : Nat) (h : i < (Memory.readBlock m a n).length) :
    (Memory.readBlock m a n)[i] = Memory.readWord m (a + 4 * i) := by
  induction n generalizing a i with
  | zero => simp [Memory.readBlock] at h
  | succ n ih =>
    cases i with
    | zero => simp [Memory.readBlock]
    | succ i =>
      simp only [Memory.readBlock, List.getElem_cons_succ]
      rw [ih]
      congr 1
      omega

end Sys2Proof.Machine
end

