-- ==== Sys2Proof/Laws/State.lean ====
section
/-! SUPPORT. One lemma per field per named update of State, so that no later proof unfolds a record update. -/

namespace Sys2Proof.Machine

/-! ### `refuse` -/

@[simp] theorem State.refuse_cmd (s : State) (c : ErrCode) : (s.refuse c).cmd = s.cmd := rfl
@[simp] theorem State.refuse_busy (s : State) (c : ErrCode) : (s.refuse c).busy = s.busy := rfl
@[simp] theorem State.refuse_done (s : State) (c : ErrCode) : (s.refuse c).done = s.done := rfl
@[simp] theorem State.refuse_err (s : State) (c : ErrCode) : (s.refuse c).err = true := rfl
@[simp] theorem State.refuse_errcode (s : State) (c : ErrCode) : (s.refuse c).errcode = if s.err then s.errcode else c := rfl
@[simp] theorem State.refuse_ie (s : State) (c : ErrCode) : (s.refuse c).ie = s.ie := rfl
@[simp] theorem State.refuse_src1 (s : State) (c : ErrCode) : (s.refuse c).src1 = s.src1 := rfl
@[simp] theorem State.refuse_src2 (s : State) (c : ErrCode) : (s.refuse c).src2 = s.src2 := rfl
@[simp] theorem State.refuse_dst (s : State) (c : ErrCode) : (s.refuse c).dst = s.dst := rfl
@[simp] theorem State.refuse_len (s : State) (c : ErrCode) : (s.refuse c).len = s.len := rfl
@[simp] theorem State.refuse_target (s : State) (c : ErrCode) : (s.refuse c).target = s.target := rfl
@[simp] theorem State.refuse_kscale (s : State) (c : ErrCode) : (s.refuse c).kscale = s.kscale := rfl
@[simp] theorem State.refuse_gvalid (s : State) (c : ErrCode) : (s.refuse c).gvalid = s.gvalid := rfl
@[simp] theorem State.refuse_gains (s : State) (c : ErrCode) : (s.refuse c).gains = s.gains := rfl
@[simp] theorem State.refuse_sw (s : State) (c : ErrCode) : (s.refuse c).sw = s.sw := rfl
@[simp] theorem State.refuse_prev (s : State) (c : ErrCode) : (s.refuse c).prev = s.prev := rfl
@[simp] theorem State.refuse_idx (s : State) (c : ErrCode) : (s.refuse c).idx = s.idx := rfl
@[simp] theorem State.refuse_mem (s : State) (c : ErrCode) : (s.refuse c).mem = s.mem := rfl
@[simp] theorem State.refuse_rst (s : State) (c : ErrCode) : (s.refuse c).rst = s.rst := rfl
@[simp] theorem State.refuse_pRdata (s : State) (c : ErrCode) : (s.refuse c).pRdata = s.pRdata := rfl
@[simp] theorem State.refuse_memValid (s : State) (c : ErrCode) : (s.refuse c).memValid = s.memValid := rfl
@[simp] theorem State.refuse_events (s : State) (c : ErrCode) : (s.refuse c).events = s.events := rfl
@[simp] theorem State.refuse_freeCount (s : State) (c : ErrCode) : (s.refuse c).freeCount = s.freeCount := rfl
@[simp] theorem State.refuse_agentRdata (s : State) (c : ErrCode) : (s.refuse c).agentRdata = s.agentRdata := rfl

/-! ### `acknowledge` -/

@[simp] theorem State.acknowledge_cmd (s : State) (v : Word) : (s.acknowledge v).cmd = s.cmd := rfl
@[simp] theorem State.acknowledge_busy (s : State) (v : Word) : (s.acknowledge v).busy = s.busy := rfl
@[simp] theorem State.acknowledge_done (s : State) (v : Word) : (s.acknowledge v).done = (s.done && !v.getLsbD 1) := rfl
@[simp] theorem State.acknowledge_err (s : State) (v : Word) : (s.acknowledge v).err = (s.err && !v.getLsbD 2) := rfl
@[simp] theorem State.acknowledge_errcode (s : State) (v : Word) : (s.acknowledge v).errcode = if v.getLsbD 2 then .noError else s.errcode := rfl
@[simp] theorem State.acknowledge_ie (s : State) (v : Word) : (s.acknowledge v).ie = s.ie := rfl
@[simp] theorem State.acknowledge_src1 (s : State) (v : Word) : (s.acknowledge v).src1 = s.src1 := rfl
@[simp] theorem State.acknowledge_src2 (s : State) (v : Word) : (s.acknowledge v).src2 = s.src2 := rfl
@[simp] theorem State.acknowledge_dst (s : State) (v : Word) : (s.acknowledge v).dst = s.dst := rfl
@[simp] theorem State.acknowledge_len (s : State) (v : Word) : (s.acknowledge v).len = s.len := rfl
@[simp] theorem State.acknowledge_target (s : State) (v : Word) : (s.acknowledge v).target = s.target := rfl
@[simp] theorem State.acknowledge_kscale (s : State) (v : Word) : (s.acknowledge v).kscale = s.kscale := rfl
@[simp] theorem State.acknowledge_gvalid (s : State) (v : Word) : (s.acknowledge v).gvalid = s.gvalid := rfl
@[simp] theorem State.acknowledge_gains (s : State) (v : Word) : (s.acknowledge v).gains = s.gains := rfl
@[simp] theorem State.acknowledge_sw (s : State) (v : Word) : (s.acknowledge v).sw = s.sw := rfl
@[simp] theorem State.acknowledge_prev (s : State) (v : Word) : (s.acknowledge v).prev = s.prev := rfl
@[simp] theorem State.acknowledge_idx (s : State) (v : Word) : (s.acknowledge v).idx = s.idx := rfl
@[simp] theorem State.acknowledge_mem (s : State) (v : Word) : (s.acknowledge v).mem = s.mem := rfl
@[simp] theorem State.acknowledge_rst (s : State) (v : Word) : (s.acknowledge v).rst = s.rst := rfl
@[simp] theorem State.acknowledge_pRdata (s : State) (v : Word) : (s.acknowledge v).pRdata = s.pRdata := rfl
@[simp] theorem State.acknowledge_memValid (s : State) (v : Word) : (s.acknowledge v).memValid = s.memValid := rfl
@[simp] theorem State.acknowledge_events (s : State) (v : Word) : (s.acknowledge v).events = s.events := rfl
@[simp] theorem State.acknowledge_freeCount (s : State) (v : Word) : (s.acknowledge v).freeCount = s.freeCount := rfl
@[simp] theorem State.acknowledge_agentRdata (s : State) (v : Word) : (s.acknowledge v).agentRdata = s.agentRdata := rfl

/-! ### `complete` -/

@[simp] theorem State.complete_cmd (s : State) : (s.complete).cmd = s.cmd := rfl
@[simp] theorem State.complete_busy (s : State) : (s.complete).busy = false := rfl
@[simp] theorem State.complete_done (s : State) : (s.complete).done = true := rfl
@[simp] theorem State.complete_err (s : State) : (s.complete).err = s.err := rfl
@[simp] theorem State.complete_errcode (s : State) : (s.complete).errcode = s.errcode := rfl
@[simp] theorem State.complete_ie (s : State) : (s.complete).ie = s.ie := rfl
@[simp] theorem State.complete_src1 (s : State) : (s.complete).src1 = s.src1 := rfl
@[simp] theorem State.complete_src2 (s : State) : (s.complete).src2 = s.src2 := rfl
@[simp] theorem State.complete_dst (s : State) : (s.complete).dst = s.dst := rfl
@[simp] theorem State.complete_len (s : State) : (s.complete).len = s.len := rfl
@[simp] theorem State.complete_target (s : State) : (s.complete).target = s.target := rfl
@[simp] theorem State.complete_kscale (s : State) : (s.complete).kscale = s.kscale := rfl
@[simp] theorem State.complete_gvalid (s : State) : (s.complete).gvalid = s.gvalid := rfl
@[simp] theorem State.complete_gains (s : State) : (s.complete).gains = s.gains := rfl
@[simp] theorem State.complete_sw (s : State) : (s.complete).sw = s.sw := rfl
@[simp] theorem State.complete_prev (s : State) : (s.complete).prev = s.prev := rfl
@[simp] theorem State.complete_idx (s : State) : (s.complete).idx = s.idx := rfl
@[simp] theorem State.complete_mem (s : State) : (s.complete).mem = s.mem := rfl
@[simp] theorem State.complete_rst (s : State) : (s.complete).rst = s.rst := rfl
@[simp] theorem State.complete_pRdata (s : State) : (s.complete).pRdata = s.pRdata := rfl
@[simp] theorem State.complete_memValid (s : State) : (s.complete).memValid = s.memValid := rfl
@[simp] theorem State.complete_events (s : State) : (s.complete).events = s.events := rfl
@[simp] theorem State.complete_freeCount (s : State) : (s.complete).freeCount = s.freeCount := rfl
@[simp] theorem State.complete_agentRdata (s : State) : (s.complete).agentRdata = s.agentRdata := rfl

/-! ### `setGain` -/

@[simp] theorem State.setGain_cmd (s : State) (k : Slot) (v : Word) : (s.setGain k v).cmd = s.cmd := rfl
@[simp] theorem State.setGain_busy (s : State) (k : Slot) (v : Word) : (s.setGain k v).busy = s.busy := rfl
@[simp] theorem State.setGain_done (s : State) (k : Slot) (v : Word) : (s.setGain k v).done = s.done := rfl
@[simp] theorem State.setGain_err (s : State) (k : Slot) (v : Word) : (s.setGain k v).err = s.err := rfl
@[simp] theorem State.setGain_errcode (s : State) (k : Slot) (v : Word) : (s.setGain k v).errcode = s.errcode := rfl
@[simp] theorem State.setGain_ie (s : State) (k : Slot) (v : Word) : (s.setGain k v).ie = s.ie := rfl
@[simp] theorem State.setGain_src1 (s : State) (k : Slot) (v : Word) : (s.setGain k v).src1 = s.src1 := rfl
@[simp] theorem State.setGain_src2 (s : State) (k : Slot) (v : Word) : (s.setGain k v).src2 = s.src2 := rfl
@[simp] theorem State.setGain_dst (s : State) (k : Slot) (v : Word) : (s.setGain k v).dst = s.dst := rfl
@[simp] theorem State.setGain_len (s : State) (k : Slot) (v : Word) : (s.setGain k v).len = s.len := rfl
@[simp] theorem State.setGain_target (s : State) (k : Slot) (v : Word) : (s.setGain k v).target = s.target := rfl
@[simp] theorem State.setGain_kscale (s : State) (k : Slot) (v : Word) : (s.setGain k v).kscale = s.kscale := rfl
@[simp] theorem State.setGain_gvalid (s : State) (k : Slot) (v : Word) : (s.setGain k v).gvalid = s.gvalid := rfl
@[simp] theorem State.setGain_gains (s : State) (k : Slot) (v : Word) : (s.setGain k v).gains = s.gains.set k v := rfl
@[simp] theorem State.setGain_sw (s : State) (k : Slot) (v : Word) : (s.setGain k v).sw = s.sw := rfl
@[simp] theorem State.setGain_prev (s : State) (k : Slot) (v : Word) : (s.setGain k v).prev = s.prev := rfl
@[simp] theorem State.setGain_idx (s : State) (k : Slot) (v : Word) : (s.setGain k v).idx = s.idx := rfl
@[simp] theorem State.setGain_mem (s : State) (k : Slot) (v : Word) : (s.setGain k v).mem = s.mem := rfl
@[simp] theorem State.setGain_rst (s : State) (k : Slot) (v : Word) : (s.setGain k v).rst = s.rst := rfl
@[simp] theorem State.setGain_pRdata (s : State) (k : Slot) (v : Word) : (s.setGain k v).pRdata = s.pRdata := rfl
@[simp] theorem State.setGain_memValid (s : State) (k : Slot) (v : Word) : (s.setGain k v).memValid = s.memValid := rfl
@[simp] theorem State.setGain_events (s : State) (k : Slot) (v : Word) : (s.setGain k v).events = s.events := rfl
@[simp] theorem State.setGain_freeCount (s : State) (k : Slot) (v : Word) : (s.setGain k v).freeCount = s.freeCount := rfl
@[simp] theorem State.setGain_agentRdata (s : State) (k : Slot) (v : Word) : (s.setGain k v).agentRdata = s.agentRdata := rfl

/-! ### `rampComplete` -/

@[simp] theorem State.rampComplete_cmd (s : State) (k : Slot) : (State.rampComplete k s).cmd = s.cmd := rfl
@[simp] theorem State.rampComplete_busy (s : State) (k : Slot) : (State.rampComplete k s).busy = false := rfl
@[simp] theorem State.rampComplete_done (s : State) (k : Slot) : (State.rampComplete k s).done = true := rfl
@[simp] theorem State.rampComplete_err (s : State) (k : Slot) : (State.rampComplete k s).err = s.err := rfl
@[simp] theorem State.rampComplete_errcode (s : State) (k : Slot) : (State.rampComplete k s).errcode = s.errcode := rfl
@[simp] theorem State.rampComplete_ie (s : State) (k : Slot) : (State.rampComplete k s).ie = s.ie := rfl
@[simp] theorem State.rampComplete_src1 (s : State) (k : Slot) : (State.rampComplete k s).src1 = s.src1 := rfl
@[simp] theorem State.rampComplete_src2 (s : State) (k : Slot) : (State.rampComplete k s).src2 = s.src2 := rfl
@[simp] theorem State.rampComplete_dst (s : State) (k : Slot) : (State.rampComplete k s).dst = s.dst := rfl
@[simp] theorem State.rampComplete_len (s : State) (k : Slot) : (State.rampComplete k s).len = s.len := rfl
@[simp] theorem State.rampComplete_target (s : State) (k : Slot) : (State.rampComplete k s).target = s.target := rfl
@[simp] theorem State.rampComplete_kscale (s : State) (k : Slot) : (State.rampComplete k s).kscale = s.kscale := rfl
@[simp] theorem State.rampComplete_gvalid (s : State) (k : Slot) : (State.rampComplete k s).gvalid = s.gvalid := rfl
@[simp] theorem State.rampComplete_gains (s : State) (k : Slot) : (State.rampComplete k s).gains = s.gains.set k s.sw := rfl
@[simp] theorem State.rampComplete_sw (s : State) (k : Slot) : (State.rampComplete k s).sw = s.sw := rfl
@[simp] theorem State.rampComplete_prev (s : State) (k : Slot) : (State.rampComplete k s).prev = s.prev := rfl
@[simp] theorem State.rampComplete_idx (s : State) (k : Slot) : (State.rampComplete k s).idx = s.idx := rfl
@[simp] theorem State.rampComplete_mem (s : State) (k : Slot) : (State.rampComplete k s).mem = s.mem := rfl
@[simp] theorem State.rampComplete_rst (s : State) (k : Slot) : (State.rampComplete k s).rst = s.rst := rfl
@[simp] theorem State.rampComplete_pRdata (s : State) (k : Slot) : (State.rampComplete k s).pRdata = s.pRdata := rfl
@[simp] theorem State.rampComplete_memValid (s : State) (k : Slot) : (State.rampComplete k s).memValid = s.memValid := rfl
@[simp] theorem State.rampComplete_events (s : State) (k : Slot) : (State.rampComplete k s).events = s.events := rfl
@[simp] theorem State.rampComplete_freeCount (s : State) (k : Slot) : (State.rampComplete k s).freeCount = s.freeCount := rfl
@[simp] theorem State.rampComplete_agentRdata (s : State) (k : Slot) : (State.rampComplete k s).agentRdata = s.agentRdata := rfl

/-! ### `accept` -/

@[simp] theorem State.accept_cmd (s : State) (c : Word) (i : Instr) : (s.accept c i).cmd = c := rfl
@[simp] theorem State.accept_busy (s : State) (c : Word) (i : Instr) : (s.accept c i).busy = true := rfl
@[simp] theorem State.accept_done (s : State) (c : Word) (i : Instr) : (s.accept c i).done = s.done := rfl
@[simp] theorem State.accept_err (s : State) (c : Word) (i : Instr) : (s.accept c i).err = s.err := rfl
@[simp] theorem State.accept_errcode (s : State) (c : Word) (i : Instr) : (s.accept c i).errcode = s.errcode := rfl
@[simp] theorem State.accept_ie (s : State) (c : Word) (i : Instr) : (s.accept c i).ie = s.ie := rfl
@[simp] theorem State.accept_src1 (s : State) (c : Word) (i : Instr) : (s.accept c i).src1 = s.src1 := rfl
@[simp] theorem State.accept_src2 (s : State) (c : Word) (i : Instr) : (s.accept c i).src2 = s.src2 := rfl
@[simp] theorem State.accept_dst (s : State) (c : Word) (i : Instr) : (s.accept c i).dst = s.dst := rfl
@[simp] theorem State.accept_len (s : State) (c : Word) (i : Instr) : (s.accept c i).len = s.len := rfl
@[simp] theorem State.accept_target (s : State) (c : Word) (i : Instr) : (s.accept c i).target = s.target := rfl
@[simp] theorem State.accept_kscale (s : State) (c : Word) (i : Instr) : (s.accept c i).kscale = s.kscale := rfl
@[simp] theorem State.accept_gvalid (s : State) (c : Word) (i : Instr) : (s.accept c i).gvalid = s.gvalid := rfl
@[simp] theorem State.accept_gains (s : State) (c : Word) (i : Instr) : (s.accept c i).gains = s.gains := rfl
@[simp] theorem State.accept_prev (s : State) (c : Word) (i : Instr) : (s.accept c i).prev = s.prev := rfl
@[simp] theorem State.accept_idx (s : State) (c : Word) (i : Instr) : (s.accept c i).idx = 0#32 := rfl
@[simp] theorem State.accept_mem (s : State) (c : Word) (i : Instr) : (s.accept c i).mem = s.mem := rfl
@[simp] theorem State.accept_rst (s : State) (c : Word) (i : Instr) : (s.accept c i).rst = s.rst := rfl
@[simp] theorem State.accept_pRdata (s : State) (c : Word) (i : Instr) : (s.accept c i).pRdata = s.pRdata := rfl
@[simp] theorem State.accept_memValid (s : State) (c : Word) (i : Instr) : (s.accept c i).memValid = s.memValid := rfl
@[simp] theorem State.accept_events (s : State) (c : Word) (i : Instr) : (s.accept c i).events = s.events := rfl
@[simp] theorem State.accept_freeCount (s : State) (c : Word) (i : Instr) : (s.accept c i).freeCount = s.freeCount := rfl
@[simp] theorem State.accept_agentRdata (s : State) (c : Word) (i : Instr) : (s.accept c i).agentRdata = s.agentRdata := rfl

/-! ### `discardGains` -/

@[simp] theorem State.discardGains_cmd (s : State) (v : Word) : (s.discardGains v).cmd = s.cmd := rfl
@[simp] theorem State.discardGains_busy (s : State) (v : Word) : (s.discardGains v).busy = s.busy := rfl
@[simp] theorem State.discardGains_done (s : State) (v : Word) : (s.discardGains v).done = s.done := rfl
@[simp] theorem State.discardGains_err (s : State) (v : Word) : (s.discardGains v).err = s.err := rfl
@[simp] theorem State.discardGains_errcode (s : State) (v : Word) : (s.discardGains v).errcode = s.errcode := rfl
@[simp] theorem State.discardGains_ie (s : State) (v : Word) : (s.discardGains v).ie = s.ie := rfl
@[simp] theorem State.discardGains_src1 (s : State) (v : Word) : (s.discardGains v).src1 = s.src1 := rfl
@[simp] theorem State.discardGains_src2 (s : State) (v : Word) : (s.discardGains v).src2 = s.src2 := rfl
@[simp] theorem State.discardGains_dst (s : State) (v : Word) : (s.discardGains v).dst = s.dst := rfl
@[simp] theorem State.discardGains_len (s : State) (v : Word) : (s.discardGains v).len = s.len := rfl
@[simp] theorem State.discardGains_target (s : State) (v : Word) : (s.discardGains v).target = s.target := rfl
@[simp] theorem State.discardGains_kscale (s : State) (v : Word) : (s.discardGains v).kscale = s.kscale := rfl
@[simp] theorem State.discardGains_gvalid (s : State) (v : Word) : (s.discardGains v).gvalid = s.gvalid &&& ~~~(v.setWidth Config.ng) := rfl
@[simp] theorem State.discardGains_gains (s : State) (v : Word) : (s.discardGains v).gains = s.gains := rfl
@[simp] theorem State.discardGains_sw (s : State) (v : Word) : (s.discardGains v).sw = s.sw := rfl
@[simp] theorem State.discardGains_prev (s : State) (v : Word) : (s.discardGains v).prev = s.prev := rfl
@[simp] theorem State.discardGains_idx (s : State) (v : Word) : (s.discardGains v).idx = s.idx := rfl
@[simp] theorem State.discardGains_mem (s : State) (v : Word) : (s.discardGains v).mem = s.mem := rfl
@[simp] theorem State.discardGains_rst (s : State) (v : Word) : (s.discardGains v).rst = s.rst := rfl
@[simp] theorem State.discardGains_pRdata (s : State) (v : Word) : (s.discardGains v).pRdata = s.pRdata := rfl
@[simp] theorem State.discardGains_memValid (s : State) (v : Word) : (s.discardGains v).memValid = s.memValid := rfl
@[simp] theorem State.discardGains_events (s : State) (v : Word) : (s.discardGains v).events = s.events := rfl
@[simp] theorem State.discardGains_freeCount (s : State) (v : Word) : (s.discardGains v).freeCount = s.freeCount := rfl
@[simp] theorem State.discardGains_agentRdata (s : State) (v : Word) : (s.discardGains v).agentRdata = s.agentRdata := rfl

/-! ### `createGain` -/

@[simp] theorem State.createGain_cmd (s : State) (k : Slot) (v : Word) : (s.createGain k v).cmd = s.cmd := rfl
@[simp] theorem State.createGain_busy (s : State) (k : Slot) (v : Word) : (s.createGain k v).busy = s.busy := rfl
@[simp] theorem State.createGain_done (s : State) (k : Slot) (v : Word) : (s.createGain k v).done = s.done := rfl
@[simp] theorem State.createGain_err (s : State) (k : Slot) (v : Word) : (s.createGain k v).err = s.err := rfl
@[simp] theorem State.createGain_errcode (s : State) (k : Slot) (v : Word) : (s.createGain k v).errcode = s.errcode := rfl
@[simp] theorem State.createGain_ie (s : State) (k : Slot) (v : Word) : (s.createGain k v).ie = s.ie := rfl
@[simp] theorem State.createGain_src1 (s : State) (k : Slot) (v : Word) : (s.createGain k v).src1 = s.src1 := rfl
@[simp] theorem State.createGain_src2 (s : State) (k : Slot) (v : Word) : (s.createGain k v).src2 = s.src2 := rfl
@[simp] theorem State.createGain_dst (s : State) (k : Slot) (v : Word) : (s.createGain k v).dst = s.dst := rfl
@[simp] theorem State.createGain_len (s : State) (k : Slot) (v : Word) : (s.createGain k v).len = s.len := rfl
@[simp] theorem State.createGain_target (s : State) (k : Slot) (v : Word) : (s.createGain k v).target = s.target := rfl
@[simp] theorem State.createGain_kscale (s : State) (k : Slot) (v : Word) : (s.createGain k v).kscale = s.kscale := rfl
@[simp] theorem State.createGain_gvalid (s : State) (k : Slot) (v : Word) : (s.createGain k v).gvalid = s.gvalid ||| (1#Config.ng <<< k.val) := rfl
@[simp] theorem State.createGain_gains (s : State) (k : Slot) (v : Word) : (s.createGain k v).gains = s.gains.set k v := rfl
@[simp] theorem State.createGain_sw (s : State) (k : Slot) (v : Word) : (s.createGain k v).sw = s.sw := rfl
@[simp] theorem State.createGain_prev (s : State) (k : Slot) (v : Word) : (s.createGain k v).prev = s.prev := rfl
@[simp] theorem State.createGain_idx (s : State) (k : Slot) (v : Word) : (s.createGain k v).idx = s.idx := rfl
@[simp] theorem State.createGain_mem (s : State) (k : Slot) (v : Word) : (s.createGain k v).mem = s.mem := rfl
@[simp] theorem State.createGain_rst (s : State) (k : Slot) (v : Word) : (s.createGain k v).rst = s.rst := rfl
@[simp] theorem State.createGain_pRdata (s : State) (k : Slot) (v : Word) : (s.createGain k v).pRdata = s.pRdata := rfl
@[simp] theorem State.createGain_memValid (s : State) (k : Slot) (v : Word) : (s.createGain k v).memValid = s.memValid := rfl
@[simp] theorem State.createGain_events (s : State) (k : Slot) (v : Word) : (s.createGain k v).events = s.events := rfl
@[simp] theorem State.createGain_freeCount (s : State) (k : Slot) (v : Word) : (s.createGain k v).freeCount = s.freeCount := rfl
@[simp] theorem State.createGain_agentRdata (s : State) (k : Slot) (v : Word) : (s.createGain k v).agentRdata = s.agentRdata := rfl

@[simp] theorem State.accept_sw_ramp (s : State) (c : Word) (g : Slot) : (s.accept c (.ramp g)).sw = s.gain g := rfl
@[simp] theorem State.accept_sw_quant (s : State) (c : Word) : (s.accept c .quant).sw = s.sw := rfl
@[simp] theorem State.accept_sw_zip (s : State) (c : Word) : (s.accept c .zip).sw = s.sw := rfl
@[simp] theorem State.accept_sw_zipq (s : State) (c : Word) : (s.accept c .zipq).sw = s.sw := rfl

/-! ### `awaitTurn` -/

@[simp] theorem State.awaitTurn_cmd (s : State) : s.awaitTurn.cmd = s.cmd := rfl
@[simp] theorem State.awaitTurn_busy (s : State) : s.awaitTurn.busy = s.busy := rfl
@[simp] theorem State.awaitTurn_done (s : State) : s.awaitTurn.done = s.done := rfl
@[simp] theorem State.awaitTurn_err (s : State) : s.awaitTurn.err = s.err := rfl
@[simp] theorem State.awaitTurn_errcode (s : State) : s.awaitTurn.errcode = s.errcode := rfl
@[simp] theorem State.awaitTurn_ie (s : State) : s.awaitTurn.ie = s.ie := rfl
@[simp] theorem State.awaitTurn_src1 (s : State) : s.awaitTurn.src1 = s.src1 := rfl
@[simp] theorem State.awaitTurn_src2 (s : State) : s.awaitTurn.src2 = s.src2 := rfl
@[simp] theorem State.awaitTurn_dst (s : State) : s.awaitTurn.dst = s.dst := rfl
@[simp] theorem State.awaitTurn_len (s : State) : s.awaitTurn.len = s.len := rfl
@[simp] theorem State.awaitTurn_target (s : State) : s.awaitTurn.target = s.target := rfl
@[simp] theorem State.awaitTurn_kscale (s : State) : s.awaitTurn.kscale = s.kscale := rfl
@[simp] theorem State.awaitTurn_gvalid (s : State) : s.awaitTurn.gvalid = s.gvalid := rfl
@[simp] theorem State.awaitTurn_gains (s : State) : s.awaitTurn.gains = s.gains := rfl
@[simp] theorem State.awaitTurn_sw (s : State) : s.awaitTurn.sw = s.sw := rfl
@[simp] theorem State.awaitTurn_prev (s : State) : s.awaitTurn.prev = s.prev := rfl
@[simp] theorem State.awaitTurn_idx (s : State) : s.awaitTurn.idx = s.idx := rfl
@[simp] theorem State.awaitTurn_mem (s : State) : s.awaitTurn.mem = s.mem := rfl
@[simp] theorem State.awaitTurn_rst (s : State) : s.awaitTurn.rst = s.rst := rfl
@[simp] theorem State.awaitTurn_pRdata (s : State) : s.awaitTurn.pRdata = s.pRdata := rfl
@[simp] theorem State.awaitTurn_memValid (s : State) : s.awaitTurn.memValid = s.memValid := rfl
@[simp] theorem State.awaitTurn_freeCount (s : State) : s.awaitTurn.freeCount = s.freeCount := rfl
@[simp] theorem State.awaitTurn_agentRdata (s : State) : s.awaitTurn.agentRdata = s.agentRdata := rfl

/-! ### `takeReset` -/

@[simp] theorem State.takeReset_cmd (s : State) (n : Nat) : (s.takeReset n).cmd = 0#32 := rfl
@[simp] theorem State.takeReset_busy (s : State) (n : Nat) : (s.takeReset n).busy = false := rfl
@[simp] theorem State.takeReset_done (s : State) (n : Nat) : (s.takeReset n).done = false := rfl
@[simp] theorem State.takeReset_err (s : State) (n : Nat) : (s.takeReset n).err = false := rfl
@[simp] theorem State.takeReset_errcode (s : State) (n : Nat) : (s.takeReset n).errcode = .noError := rfl
@[simp] theorem State.takeReset_ie (s : State) (n : Nat) : (s.takeReset n).ie = false := rfl
@[simp] theorem State.takeReset_src1 (s : State) (n : Nat) : (s.takeReset n).src1 = 0#32 := rfl
@[simp] theorem State.takeReset_src2 (s : State) (n : Nat) : (s.takeReset n).src2 = 0#32 := rfl
@[simp] theorem State.takeReset_dst (s : State) (n : Nat) : (s.takeReset n).dst = 0#32 := rfl
@[simp] theorem State.takeReset_len (s : State) (n : Nat) : (s.takeReset n).len = 0#32 := rfl
@[simp] theorem State.takeReset_target (s : State) (n : Nat) : (s.takeReset n).target = 0#32 := rfl
@[simp] theorem State.takeReset_kscale (s : State) (n : Nat) : (s.takeReset n).kscale = 0#32 := rfl
@[simp] theorem State.takeReset_gvalid (s : State) (n : Nat) : (s.takeReset n).gvalid = 0#Config.ng := rfl
@[simp] theorem State.takeReset_gains (s : State) (n : Nat) : (s.takeReset n).gains = Vector.replicate Config.ng 0#32 := rfl
@[simp] theorem State.takeReset_sw (s : State) (n : Nat) : (s.takeReset n).sw = 0#32 := rfl
@[simp] theorem State.takeReset_prev (s : State) (n : Nat) : (s.takeReset n).prev = 0#32 := rfl
@[simp] theorem State.takeReset_idx (s : State) (n : Nat) : (s.takeReset n).idx = 0#32 := rfl
@[simp] theorem State.takeReset_mem (s : State) (n : Nat) : (s.takeReset n).mem = s.memAfter (s.pendingWrites.take n) := rfl
@[simp] theorem State.takeReset_rst (s : State) (n : Nat) : (s.takeReset n).rst = true := rfl
@[simp] theorem State.takeReset_pRdata (s : State) (n : Nat) : (s.takeReset n).pRdata = s.pRdata := rfl
@[simp] theorem State.takeReset_memValid (s : State) (n : Nat) : (s.takeReset n).memValid = s.memValid := rfl
@[simp] theorem State.takeReset_events (s : State) (n : Nat) : (s.takeReset n).events = s.events := rfl
@[simp] theorem State.takeReset_freeCount (s : State) (n : Nat) : (s.takeReset n).freeCount = s.freeCount := rfl
@[simp] theorem State.takeReset_agentRdata (s : State) (n : Nat) : (s.takeReset n).agentRdata = s.agentRdata := rfl

/-! ### The gain-state file -/

/-- A slot that has just been written reads as written. -/
@[simp] theorem State.gain_setGain_same (s : State) (k : Slot) (v : Word) : (s.setGain k v).gain k = v := by
  simp [State.gain, State.setGain]

/-- A write of one slot leaves every other slot alone. -/
theorem State.gain_setGain_other (s : State) {j k : Slot} (v : Word) (h : j ≠ k) :
    (s.setGain k v).gain j = s.gain j := by
  have hne : k.val ≠ j.val := fun e => h (Fin.ext e.symm)
  simp [State.gain, State.setGain, hne]

end Sys2Proof.Machine
end

