-- ==== Sys2Proof/Laws/Ops.lean ====
section
/-! SUPPORT. What each shared operation can do, said once; the proofs cite these and unfold none of the operations. -/

namespace Sys2Proof.Machine

theorem formable_iff (a : Nat) : formable a = true ↔ a % 4 = 0 ∧ a < 2 ^ 32 := by
  simp [formable]

/-- A word at an address the memory port can be given ends inside the address space. -/
theorem formable_end {a : Nat} (h : formable a = true) : a + 4 ≤ 2 ^ 32 := by
  have := (formable_iff a).1 h
  omega

/-- The write of a word to the memory of a state, with every other field as it was. -/
def State.stored (s : State) (a : Nat) (v : Word) : State := { s with mem := Memory.writeWord s.mem a v }

/-- `MemRead` gives the word, or one of two faults. -/
theorem memRead_cases {s : State} {a : Nat} {w : Word} (h : s.memRead a = .ok w) :
    formable a = true ∧ s.reaches a = true ∧ w = Memory.readWord s.mem a := by
  unfold State.memRead at h
  split_ifs at h with h1 h2
  simp_all

theorem memRead_of_reaches {s : State} {a : Nat} (hf : formable a = true) (hr : s.reaches a = true) :
    s.memRead a = .ok (Memory.readWord s.mem a) := by
  simp [State.memRead, hf, hr]

/-- `MemWrite` changes the word and nothing else, or faults. -/
theorem memWrite_cases {s t : State} {a : Nat} {v : Word} (h : s.memWrite a v = .ok t) :
    formable a = true ∧ s.reaches a = true ∧ t = s.stored a v := by
  unfold State.memWrite at h
  split_ifs at h with h1 h2
  simp_all [State.stored]

theorem memWrite_of_reaches {s : State} {a : Nat} (v : Word) (hf : formable a = true) (hr : s.reaches a = true) :
    s.memWrite a v = .ok (s.stored a v) := by
  simp [State.memWrite, hf, hr, State.stored]

@[simp] theorem stored_reaches (s : State) (a b : Nat) (v : Word) : (s.stored a v).reaches b = s.reaches b := rfl

/-- One listed write. -/
theorem memWrites_one {s : State} {a : Nat} (v : Word) (hf : formable a = true) (hr : s.reaches a = true) :
    s.memWrites [(a, v)] = .ok (s.stored a v) := by
  simp [State.memWrites, memWrite_of_reaches v hf hr]

/-- Two listed writes, in order. -/
theorem memWrites_two {s : State} {a b : Nat} (v w : Word) (hf : formable a = true) (hr : s.reaches a = true)
    (hf' : formable b = true) (hr' : s.reaches b = true) :
    s.memWrites [(a, v), (b, w)] = .ok ((s.stored a v).stored b w) := by
  simp [State.memWrites, memWrite_of_reaches v hf hr, memWrite_of_reaches w hf' ((stored_reaches s a b v).trans hr')]

/-- Writes change the memory and nothing else, keep its canonical form, and touch only the listed words, all of which the memory
port reaches. -/
theorem memWrites_cases {s t : State} {ws : List (Nat × Word)} (h : s.memWrites ws = .ok t) :
    t = { s with mem := t.mem } ∧ (Memory.wf s.mem = true → Memory.wf t.mem = true) ∧
    (∀ w ∈ ws, formable w.1 = true ∧ s.reaches w.1 = true) ∧
    ∀ y, (∀ w ∈ ws, y < w.1 ∨ w.1 + 4 ≤ y) → Memory.readByte t.mem y = Memory.readByte s.mem y := by
  induction ws generalizing s with
  | nil =>
    simp only [State.memWrites, Except.ok.injEq] at h
    subst h
    simp
  | cons w ws ih =>
    obtain ⟨a, v⟩ := w
    simp only [State.memWrites] at h
    split at h
    · next s' hs =>
      obtain ⟨hf, hr, rfl⟩ := memWrite_cases hs
      obtain ⟨h1, h2, h3, h4⟩ := ih h
      refine ⟨by rw [h1]; rfl, fun hw => h2 (Memory.wf_writeWord v hw (formable_end hf)), ?_, fun y hy => ?_⟩
      · intro w hw
        rcases List.mem_cons.1 hw with rfl | hw
        · exact ⟨hf, hr⟩
        · exact h3 w hw
      · rw [h4 y fun w hw => hy w (List.mem_cons_of_mem _ hw)]
        exact Memory.readByte_writeWord_other _ v (hy (a, v) List.mem_cons_self)
    · cases h

/-- Everything an engine step that answers a next state can have done: nothing while no command runs, an element step, or the
completion step. -/
theorem engineStep_cases {s t : State} {body : State → Except Fault Element} {finish : State → State}
    (h : s.engineStep body finish = .next t) :
    (s.busy = false ∧ t = s) ∨
    (s.busy = true ∧ s.idx.toNat < s.len.toNat ∧ ∃ e s', body s = .ok e ∧ s.memWrites e.writes = .ok s' ∧
      t = { s' with sw := e.sw, prev := e.prev, idx := s.idx + 1#32 }) ∨
    (s.busy = true ∧ s.len.toNat ≤ s.idx.toNat ∧ t = finish s) := by
  unfold State.engineStep at h
  split_ifs at h with h1 h2
  · exact .inl ⟨by simpa using h1, by injection h with h; exact h.symm⟩
  · split at h
    · cases h
    · next e he =>
      split at h
      · cases h
      · next s' hs' =>
        injection h with h
        exact .inr (.inl ⟨by simpa using h1, h2, e, s', he, hs', h.symm⟩)
  · injection h with h
    exact .inr (.inr ⟨by simpa using h1, by omega, h.symm⟩)

theorem engineStep_idle {s : State} (body : State → Except Fault Element) (finish : State → State)
    (h : s.busy = false) : s.engineStep body finish = .next s := by
  simp [State.engineStep, h]

theorem engineStep_element {s s' : State} {body : State → Except Fault Element} (finish : State → State) {e : Element}
    (hb : s.busy = true) (hi : s.idx.toNat < s.len.toNat) (he : body s = .ok e)
    (hs : s.memWrites e.writes = .ok s') :
    s.engineStep body finish = .next { s' with sw := e.sw, prev := e.prev, idx := s.idx + 1#32 } := by
  simp [State.engineStep, hb, hi, he, hs]

theorem engineStep_completion {s : State} (body : State → Except Fault Element) (finish : State → State)
    (hb : s.busy = true) (hi : s.len.toNat ≤ s.idx.toNat) : s.engineStep body finish = .next (finish s) := by
  simp [State.engineStep, hb, Nat.not_lt.2 hi]

/-- A locked write is refused while a command runs and performed otherwise. -/
theorem locked_busy {s : State} (f : State → State) (h : s.busy = true) : s.locked f = s.refuse .busywr := by
  simp [State.locked, h]

theorem locked_idle {s : State} (f : State → State) (h : s.busy = false) : s.locked f = f s := by
  simp [State.locked, h]

/-- What acceptance of a word says: the word decodes, its slot is valid, and with `LEN != 0` its blocks are aligned and in
range (R134). -/
theorem acceptance_ok {s : State} {c : Word} {i : Instr} (h : s.acceptance c = .ok i) :
    decodeCommand c = .ok i ∧ s.lacksGain i = false ∧
    (s.len ≠ 0#32 → (s.usedBlocks i).any misaligned = false ∧ (s.usedBlocks i).any outOfRange = false) := by
  unfold State.acceptance at h
  split at h
  · cases h
  · next j hj =>
    split_ifs at h with h1 h2 h3
    injection h with h
    subst h
    refine ⟨hj, by simpa using h1, fun hl => ⟨?_, ?_⟩⟩
    · exact Bool.eq_false_iff.2 fun hm => h2 ⟨hl, hm⟩
    · exact Bool.eq_false_iff.2 fun hm => h3 ⟨hl, hm⟩

/-- A refusal's code is never `noError`. -/
theorem acceptance_code {s : State} {c : Word} {code : ErrCode} (h : s.acceptance c = .error code) :
    code ≠ .noError := by
  unfold State.acceptance at h
  split at h
  · injection h with h; subst h; decide
  · split_ifs at h <;> (injection h with h; subst h; decide)

/-- What issue does: a refusal or an acceptance (R133). -/
theorem issue_cases (s : State) (c : Word) :
    (∃ code, s.acceptance c = .error code ∧ s.issue c = s.refuse code) ∨
    (∃ i, s.acceptance c = .ok i ∧ s.issue c = s.accept c i) := by
  unfold State.issue
  cases h : s.acceptance c with
  | error code => exact .inl ⟨code, rfl, rfl⟩
  | ok i => exact .inr ⟨i, rfl, rfl⟩

/-! ### Memory after some of an element's writes -/

/-- Writes that a reset finds in flight are all at addresses the memory port reaches. -/
theorem memAfter_reached {s : State} {ws : List (Nat × Word)} {w : Nat × Word}
    (h : w ∈ ws.takeWhile fun w => formable w.1 && s.reaches w.1) : w ∈ ws ∧ formable w.1 = true := by
  have hp := List.mem_takeWhile_imp h
  simp only [Bool.and_eq_true] at hp
  exact ⟨(List.takeWhile_sublist _).mem h, hp.1⟩

/-- The memory left by a reset keeps its canonical form. -/
theorem memAfter_wf {s : State} (ws : List (Nat × Word)) (h : Memory.wf s.mem = true) :
    Memory.wf (s.memAfter ws) = true := by
  unfold State.memAfter
  have hf : ∀ w ∈ ws.takeWhile (fun w => formable w.1 && s.reaches w.1), formable w.1 = true := fun w hw => (memAfter_reached hw).2
  generalize ws.takeWhile _ = vs at hf
  generalize s.mem = m at h ⊢
  induction vs generalizing m with
  | nil => exact h
  | cons v vs ih =>
    exact ih (fun w hw => hf w (List.mem_cons_of_mem _ hw)) _
      (Memory.wf_writeWord _ h (formable_end (hf v List.mem_cons_self)))

/-- The memory left by a reset differs from the memory before in the listed words alone. -/
theorem memAfter_other {s : State} {ws : List (Nat × Word)} {y : Nat} (hy : ∀ w ∈ ws, y < w.1 ∨ w.1 + 4 ≤ y) :
    Memory.readByte (s.memAfter ws) y = Memory.readByte s.mem y := by
  unfold State.memAfter
  have hv : ∀ w ∈ ws.takeWhile (fun w => formable w.1 && s.reaches w.1), y < w.1 ∨ w.1 + 4 ≤ y :=
    fun w hw => hy w (memAfter_reached hw).1
  generalize ws.takeWhile _ = vs at hv
  generalize s.mem = m
  induction vs generalizing m with
  | nil => rfl
  | cons v vs ih =>
    rw [List.foldl_cons, ih fun w hw => hv w (List.mem_cons_of_mem _ hw)]
    exact Memory.readByte_writeWord_other _ _ (hv v List.mem_cons_self)

/-! ### Steps -/

/-- A step of a port record that decodes. -/
theorem step_port {s : State} {r : BitVec 40} {rest : List Event} {i : Instr} (he : s.events = .port r :: rest)
    (hr : s.rst = false) (hd : decodeRecord r = .ok i) : step s = exec i { s with events := rest } := by
  simp [step, State.nextActivity, he, State.eventTurn, hr, runActivity, decode, hd]

/-- A step with no event to come, while a command runs. -/
theorem step_engine {s : State} {i : Instr} (he : s.events = []) (hb : s.busy = true)
    (hd : decodeCommand s.cmd = .ok i) : step s = exec i s := by
  simp [step, State.nextActivity, he, State.engineTurn, hb, runActivity, decode, hd]

/-- A step at the end of a round of `WAIT`. -/
theorem step_await {s : State} {rest : List Event} (he : s.events = .await :: rest) :
    step s = .next { s with events := rest }.awaitTurn := by
  simp [step, State.nextActivity, he, State.eventTurn, runActivity]

/-- `WAIT` is over: the events to come stay as they are. -/
theorem awaitTurn_done {s : State} (h : s.waitAgain = false) : s.awaitTurn = s := by
  simp [State.awaitTurn, h]

/-- Where the events to come first hold one of the host's. -/
theorem split_at_host {others later : List Event} (ho : ∀ e ∈ others, e.ofHost = false) (hl : ∀ e ∈ later.head?, e.ofHost = true) :
    (others ++ later).takeWhile (fun e => !e.ofHost) = others ∧ (others ++ later).dropWhile (fun e => !e.ofHost) = later := by
  induction others with
  | nil =>
    cases later with
    | nil => simp
    | cons e es => simp [hl e (by simp)]
  | cons o os ih => simp [ho o (by simp), ih fun e he => ho e (List.mem_cons_of_mem _ he)]

/-- `WAIT` goes back: an engine turn, what is not the host's at its port up to its next transaction, and another round come before any later
transaction of the host; nothing is dropped and nothing else has changed. -/
theorem awaitTurn_again {s : State} {others later : List Event} (h : s.waitAgain = true) (he : s.events = others ++ later)
    (ho : ∀ e ∈ others, e.ofHost = false) (hl : ∀ e ∈ later.head?, e.ofHost = true) :
    s.awaitTurn = { s with events := .engine :: (others ++ HostLine.wait.events ++ later) } := by
  simp [State.awaitTurn, h, he, split_at_host ho hl]

/-- The events of a `WAIT`: one round. -/
theorem wait_events : HostLine.wait.events = [.port 0x0100000000#40, .await] := by decide

end Sys2Proof.Machine
end

