-- ==== Sys2Proof/Laws/PerInstr.lean ====
section
/-! SUPPORT. Per-instruction families: one lemma per constructor of Instr. -/

namespace Sys2Proof.Laws.TableRow

/-- The encoding of the instruction has the fixed bits that its row of `spec/opcode_table.json` gives: `match` under `mask` for a
command, `we` and bit 38, and zero data in a read, for a port record. -/
def Statement : Instr → Prop
  | .quant => ∃ w, encode .quant = .command w ∧ w &&& 0xFFFFFFFF#32 = 0x00000001#32
  | .ramp g => ∃ w, encode (.ramp g) = .command w ∧ w &&& 0xFFFFFF0F#32 = 0x00000002#32
  | .zip => ∃ w, encode .zip = .command w ∧ w &&& 0xFFFFFFFF#32 = 0x00000003#32
  | .zipq => ∃ w, encode .zipq = .command w ∧ w &&& 0xFFFFFFFF#32 = 0x00000004#32
  | .wr r v => ∃ x, encode (.wr r v) = .record x ∧ x.getLsbD 39 = true ∧ x.getLsbD 38 = false
  | .rd r => ∃ x, encode (.rd r) = .record x ∧ x.getLsbD 39 = false ∧ x.getLsbD 38 = false ∧ x.extractLsb' 0 32 = 0#32

theorem quant : Statement .quant := ⟨_, rfl, by decide⟩

theorem ramp (g : Slot) : Statement (.ramp g) := by
  refine ⟨_, rfl, ?_⟩
  revert g
  decide

theorem zip : Statement .zip := ⟨_, rfl, by decide⟩

theorem zipq : Statement .zipq := ⟨_, rfl, by decide⟩

theorem wr (r : PortReg) (v : Word) : Statement (.wr r v) :=
  ⟨_, rfl, by simp [portRecord, BitVec.getElem_setWidth], by simp [portRecord, BitVec.getElem_setWidth]⟩

theorem rd (r : PortReg) : Statement (.rd r) := by
  refine ⟨portRecord false (portOffset r) 0#32, rfl, by simp [portRecord], by simp [portRecord], ?_⟩
  refine BitVec.eq_of_getLsbD_eq fun i hi => ?_
  have h32 : ¬ 32 ≤ i := by omega
  simp [portRecord, h32]

end Sys2Proof.Laws.TableRow
end

