-- ==== Sys2Proof/Tests/Slice0.lean ====
section
/-! SUPPORT. Tests: one step on small states with results taken from the spec, and, for every statement with hypotheses, a state and operands
that meet them. -/

namespace Sys2Proof.Tests

open Sys2Proof Sys2Proof.Machine

/-! ### Well-formedness -/

theorem test_wellFormed_refuses_write_of_named_offset : (Instr.wr (.reserved 3#6) 0#32).wellFormed = false := by decide

theorem test_wellFormed_refuses_read_of_slot_offset : (Instr.rd (.reserved 0x17#6)).wellFormed = false := by decide

theorem test_wellFormed_takes_reserved_offsets :
    (Instr.rd (.reserved 11#6)).wellFormed = true ∧ (Instr.rd (.reserved 24#6)).wellFormed = true := by decide

/-! ### Decoding: words written out from `30_encoding.md` R70, R71, R75 -/

theorem test_decode_quant : decodeTableWord 32 0x00000001 = some .quant := by decide

/-- `OPC = 2`, `GSEL = 5`. -/
theorem test_decode_ramp : decodeTableWord 32 0b01010010 = some (.ramp 5) := by decide

theorem test_decode_zip : decodeTableWord 32 0x00000003 = some .zip := by decide

theorem test_decode_zipq : decodeTableWord 32 0x00000004 = some .zipq := by decide

/-- `we = 1`, offset 5 (`DST`). -/
theorem test_decode_wr : decodeTableWord 40 0x8500002000 = some (.wr .dst 0x00002000#32) := by decide

/-- `we = 0`, offset 17 (`G[1]`). -/
theorem test_decode_rd : decodeTableWord 40 0x1100000000 = some (.rd (.gain 1)) := by decide

/-- Vectors E1 to E5 of `95_test_vectors.md`. -/
theorem test_decode_refuses_illegal_words :
    decodeTableWord 32 0x00000000 = none ∧ decodeTableWord 32 0x00000005 = none ∧ decodeTableWord 32 0x00000101 = none ∧
    decodeTableWord 32 0x00000013 = none ∧ decodeTableWord 32 0x00000082 = none := by decide

theorem test_decode_refuses_other_records :
    decode (.record 0x4000000000#40) = .error .recordBit38 ∧
    decode (.record 0x0100000001#40) = .error .readDataNotZero := by decide

/-! ### Arithmetic: rows of `95_test_vectors.md` sections 2.0 to 2.2 -/

theorem test_fmul_rounds : fmul32 0x3DCCCCCD#32 0x3DCCCCCD#32 = 0x3C23D70B#32 := by decide

theorem test_fmul_subnormal_tie_to_even : fmul32 0x00000003#32 0x3F000000#32 = 0x00000002#32 := by decide

theorem test_fsub_below_binade : fsub32 0x48000000#32 0x3B810204#32 = 0x47FFFFFF#32 := by decide

theorem test_fadd_signed_zeros :
    fadd32 0x80000000#32 0x80000000#32 = 0x80000000#32 ∧ fadd32 0x80000000#32 0#32 = 0#32 := by decide

theorem test_q23_truncates_toward_zero : q23 0xBDCCCCCD#32 = 0xFFF33334#32 := by decide

theorem test_q23_least_nonzero : q23 0x34000000#32 = 1#32 ∧ q23 0x33FFFFFF#32 = 0#32 := by decide

theorem test_crossing_touches : crossing 0x3F800000#32 0x80000000#32 = true ∧ crossing 0x3F800000#32 0x7FC00000#32 = false := by
  decide

theorem test_rampstep_snap_boundary :
    rampstep 0x3F03060C#32 0x3F000000#32 = 0x3F000000#32 ∧ rampstep 0x3F03060D#32 0x3F000000#32 = 0x3F020409#32 := by decide

/-! ### Steps -/

/-- A memory with words from an address on. -/
def words (a : Nat) : List Word → Memory
  | [] => []
  | w :: ws => Memory.writeWord (words (a + 4) ws) a w

/-- An idle block with its operands set: two elements, `TARGET = KSCALE = 0.5`, `G[0] = 1.0` valid. -/
def idle : State :=
  { State.reset with
    src1 := 0x1000#32, src2 := 0x1008#32, dst := 0x2000#32, len := 2#32
    target := 0x3F000000#32, kscale := 0x3F000000#32
    gains := State.reset.gains.set 0 0x3F800000#32
    gvalid := 0x01#8
    mem := words 0x1000 [0x3F000000#32, 0xBF800000#32, 0x3E000000#32, 0x40000000#32] }

/-- The block with a command accepted. -/
def started (c : Word) (i : Instr) : State := idle.accept c i

/-- One check of a next state. -/
def after (o : Host.Outcome State Fault Refusal) (p : State → Bool) : Bool :=
  match o with
  | .next t => p t
  | _ => false

/-- R91's example: 0.5 gives `0x00400000`. -/
theorem test_quant_element : after (exec .quant (started 1#32 .quant))
    (fun t => Memory.readWord t.mem 0x2000 == 0x00400000#32 && t.idx == 1#32 && t.busy) = true := by decide

/-- The crossing of R102's worked example: output -1.0 with the old scale, then the scale `0x3F7EFDFC`. -/
theorem test_ramp_crossing : after (exec (.ramp 0) { started 0x2#32 (.ramp 0) with idx := 1#32, prev := 0x3F800000#32 })
    (fun t => Memory.readWord t.mem 0x2004 == 0xBF800000#32 && t.sw == 0x3F7EFDFC#32 && t.gain 0 == 0x3F800000#32) = true := by
  decide

theorem test_ramp_completion : after (exec (.ramp 0) { started 0x2#32 (.ramp 0) with idx := 2#32, sw := 0x3F7EFDFC#32 })
    (fun t => t.gain 0 == 0x3F7EFDFC#32 && t.done && !t.busy) = true := by decide

/-- The first element of vector Z1. -/
theorem test_zip_element : after (exec .zip (started 3#32 .zip))
    (fun t => Memory.readWord t.mem 0x2000 == 0x3E800000#32 && Memory.readWord t.mem 0x2004 == 0x3D800000#32) = true := by decide

theorem test_zipq_element : after (exec .zipq (started 4#32 .zipq))
    (fun t => Memory.readWord t.mem 0x2000 == 0x00200000#32 && Memory.readWord t.mem 0x2004 == 0x00080000#32) = true := by decide

/-- Vector E9: `STATUS` is `0x44` after a refusal with `RANGE`. -/
theorem test_wr_cmd_range : after (exec (.wr .cmd 1#32) { idle with src1 := 0xFFFFFFFC#32 })
    (fun t => t.statusWord == 0x44#32 && t.cmd == 0#32) = true := by decide

/-- Vector E19: a locked write while a command runs; `STATUS` is `0x55`. -/
theorem test_wr_len_while_busy : after (exec (.wr .len 5#32) (started 1#32 .quant))
    (fun t => t.statusWord == 0x55#32 && t.len == 2#32) = true := by decide

theorem test_rd_id : after (exec (.rd .id) idle) (fun t => t.pRdata == 0x51323307#32) = true := by decide

theorem test_rd_gvalid : after (exec (.rd .gvalid) idle) (fun t => t.pRdata == 0x00000001#32) = true := by decide

theorem test_step_runs_a_placed_command :
    after (step (State.reset.withFetchWord 32 0x00000001)) (fun t => t.cmd == 1#32 && t.done && !t.busy) = true := by decide

theorem test_step_runs_a_placed_record :
    after (step (State.reset.withFetchWord 40 0x8300001003)) (fun t => t.src1 == 0x1003#32) = true := by decide

/-- `WAIT` after a read of `STATUS` that found `BUSY = 1`: the line's later `ACK` waits for another round. -/
theorem test_wait_goes_back :
    after (step { started 1#32 .quant with pRdata := 1#32, events := [.await, .rstFall, .port 0x8100000002#40] })
      (fun t => t.events == [.engine, .rstFall, .port 0x0100000000#40, .await, .port 0x8100000002#40]) = true := by decide

/-- A reset between the two does not take back the value read: the loop goes on. -/
theorem test_reset_keeps_the_value_read :
    after (step { started 1#32 .quant with pRdata := 1#32, events := [.rstRise 0, .await] })
      (fun t => t.events == [.await] && t.waitAgain && t.statusWord == 0#32) = true := by decide

/-- `WAIT` after a read of `STATUS` that found `BUSY = 0`, `DONE = 1`. -/
theorem test_wait_ends : after (step { idle with pRdata := 2#32, events := [.await, .port 0x8100000002#40] })
    (fun t => t.events == [.port 0x8100000002#40]) = true := by decide

/-! ### The hypotheses of the statements can be met -/

theorem test_meets_IllegalCommandWords : idle.busy = false ∧ (0x00000101#32 : Word).extractLsb' 8 24 ≠ 0#24 ∧
    ((0x00000082#32 : Word).extractLsb' 0 4 = 2#4 ∧ (0x00000082#32 : Word).extractLsb' 4 4 = 8#4) := by decide

theorem test_meets_OffsetSelectsRegister :
    (11 ≤ (11#6).toNat ∧ (11#6).toNat ≤ 15) ∧ (11 ≤ (15#6).toNat ∧ (15#6).toNat ≤ 15) ∧
    16 + Config.ng ≤ (24#6).toNat ∧ 16 + Config.ng ≤ (63#6).toNat := by decide

theorem test_meets_DecodeOfEncode : (Instr.wr (.reserved 63#6) 0xFFFFFFFF#32).wellFormed = true ∧ (Instr.ramp 7).wellFormed = true := by
  decide

theorem test_meets_EncodeOfDecode : decode (.record 0xBFFFFFFFFF#40) = .ok (.wr (.reserved 63#6) 0xFFFFFFFF#32) := by decide

theorem test_meets_StepRunsDecodedInstruction :
    ({ idle with events := [.port 0x8300001000#40] } : State).events = .port 0x8300001000#40 :: [] ∧ idle.rst = false ∧
    decode (.record 0x8300001000#40) = .ok (.wr .src1 0x1000#32) ∧ (started 1#32 .quant).busy = true ∧
    decode (.command (started 1#32 .quant).cmd) = .ok .quant ∧ (started 1#32 .quant).events = [] ∧
    idle.events = [] ∧ idle.busy = false ∧
    ({ started 1#32 .quant with events := [.engine] } : State).events = .engine :: [] ∧
    ({ idle with events := [.engine] } : State).events = .engine :: [] := by decide

theorem test_meets_idle_hypothesis : idle.busy = false := by decide

theorem test_meets_WriteWhileBusyDropped : (started 3#32 .zip).busy = true ∧ ∃ k, PortReg.gain 7 = .gain k := ⟨rfl, 7, rfl⟩

theorem test_meets_WriteGvalidDiscards : idle.busy = false ∧ (0x80#32 : Word).getLsbD (7 : Slot).val = true := by decide

theorem test_meets_WriteGainCreates : idle.busy = false ∧ (7 : Slot) ≠ 0 := by decide

/-- Vector E10's boundary: the block ends at `2^32`; and a zero length with a misaligned base. -/
theorem test_meets_AcceptOneInputCommand :
    let s : State := { idle with src1 := 0xFFFFFFF8#32 }
    s.busy = false ∧ s.src1.toNat % 4 = 0 ∧ s.dst.toNat % 4 = 0 ∧ s.src1.toNat + 4 * s.len.toNat ≤ 2 ^ 32 ∧
    s.dst.toNat + 4 * s.len.toNat ≤ 2 ^ 32 ∧ s.gainValid 0 = true ∧ ¬ ({ idle with len := 0#32 } : State).len ≠ 0#32 := by decide

/-- Vector E12's boundary: the output ends at `2^32`. -/
theorem test_meets_AcceptZipCommand :
    let s : State := { idle with dst := 0xFFFFFFF0#32 }
    s.busy = false ∧ s.src1.toNat % 4 = 0 ∧ s.src2.toNat % 4 = 0 ∧ s.dst.toNat % 4 = 0 ∧
    s.src1.toNat + 4 * s.len.toNat ≤ 2 ^ 32 ∧ s.src2.toNat + 4 * s.len.toNat ≤ 2 ^ 32 ∧
    s.dst.toNat + 8 * s.len.toNat ≤ 2 ^ 32 := by decide

theorem test_meets_RefusalOfLegalCommands_nogain : idle.busy = false ∧ idle.gainValid 3 = false := by decide

theorem test_meets_RefusalOfLegalCommands_misaligned :
    let s : State := { idle with src1 := 0x1002#32 }
    s.busy = false ∧ s.len ≠ 0#32 ∧ ¬ (s.src1.toNat % 4 = 0 ∧ s.dst.toNat % 4 = 0) ∧ s.gainValid 0 = true := by decide

theorem test_meets_RefusalOfLegalCommands_range :
    let s : State := { idle with src1 := 0xFFFFFFFC#32 }
    s.len ≠ 0#32 ∧ (s.src1.toNat % 4 = 0 ∧ s.dst.toNat % 4 = 0) ∧ ¬ s.src1.toNat + 4 * s.len.toNat ≤ 2 ^ 32 ∧
    s.gainValid 0 = true := by decide

theorem test_meets_RefusalOfLegalCommands_zip :
    let s : State := { idle with src2 := 0x1003#32 }
    let u : State := { idle with dst := 0xFFFFFFF4#32 }
    s.len ≠ 0#32 ∧ s.src2.toNat % 4 ≠ 0 ∧ u.src2.toNat % 4 = 0 ∧ u.src1.toNat % 4 = 0 ∧ u.dst.toNat % 4 = 0 ∧
    ¬ u.dst.toNat + 8 * u.len.toNat ≤ 2 ^ 32 := by decide

theorem test_meets_FirstErrorSticks : idle.err = false ∧ (idle.refuse .range).err = true := by decide

theorem test_meets_ReadReturnsRegister : idle.gainValid 0 = true ∧ idle.gainValid 7 = false := by decide

theorem test_meets_InterruptFollowsStickyBits : ({ idle with ie := true } : State).ie = true := by decide

/-- The element hypotheses of `QUANT` and `RAMP`, for a block that ends at the last word of the address space. -/
theorem test_meets_QuantElementStep :
    let s : State := { started 1#32 .quant with idx := 1#32, dst := 0xFFFFFFF8#32 }
    s.busy = true ∧ s.idx.toNat < s.len.toNat ∧ formable (elementAddress s.src1 s.idx.toNat) = true ∧
    s.reaches (elementAddress s.src1 s.idx.toNat) = true ∧ formable (elementAddress s.dst s.idx.toNat) = true ∧
    s.reaches (elementAddress s.dst s.idx.toNat) = true := by decide

theorem test_meets_RampElementStep_and_RampNanScale :
    let s : State := { started 2#32 (.ramp 0) with sw := 0x7FC00000#32 }
    s.busy = true ∧ s.idx.toNat < s.len.toNat ∧ fIsNaN s.sw = true ∧ formable (elementAddress s.src1 s.idx.toNat) = true ∧
    s.reaches (elementAddress s.src1 s.idx.toNat) = true ∧ formable (elementAddress s.dst s.idx.toNat) = true ∧
    s.reaches (elementAddress s.dst s.idx.toNat) = true := by decide

theorem test_meets_ZipElementStep_and_ZipqElementStep :
    let s : State := { started 3#32 .zip with idx := 1#32 }
    s.busy = true ∧ s.idx.toNat < s.len.toNat ∧
    ∀ a ∈ [elementAddress s.src1 s.idx.toNat, elementAddress s.src2 s.idx.toNat, elementAddress s.dst (2 * s.idx.toNat),
      elementAddress s.dst (2 * s.idx.toNat + 1)], formable a = true ∧ s.reaches a = true := by decide

theorem test_meets_CompletionStep :
    let s : State := { started 1#32 .quant with idx := 2#32 }
    s.busy = true ∧ s.idx = s.len := by decide

theorem test_meets_EngineStepFrame : (∃ t, exec .quant (started 1#32 .quant) = .next t) ∧
    (∃ t, exec (.ramp 0) (started 2#32 (.ramp 0)) = .next t) ∧ (∃ t, exec .zip (started 3#32 .zip) = .next t) ∧
    ∃ t, exec .zipq { started 4#32 .zipq with idx := 2#32 } = .next t := ⟨⟨_, rfl⟩, ⟨_, rfl⟩, ⟨_, rfl⟩, ⟨_, rfl⟩⟩

/-- A running state with the invariant. -/
theorem test_inv_of_running : (started 1#32 .quant).Inv :=
  ⟨by decide, by decide, .inr ⟨.quant, by decide⟩, fun _ => ⟨⟨.quant, by decide⟩, by decide⟩, by decide⟩

/-- The reason of a fault. -/
def faultOf : Host.Outcome State Fault Refusal → Option Fault
  | .fault f => some f
  | _ => none

/-- The reason of a refusal. -/
def refusalOf : Host.Outcome State Fault Refusal → Option Refusal
  | .refused r => some r
  | _ => none

/-- Each of the four accesses of `ZIP` as the first outside `MEM_VALID`: `SRC1`, `SRC2`, the first and the second output word. -/
theorem test_meets_UndefinedAccessesStop_element :
    let s (m : List Region) : State := { started 3#32 .zip with memValid := m }
    (∀ a ∈ (s []).elementAccesses .zip, formable a = true) ∧ (s []).busy = true ∧ (s []).idx.toNat < (s []).len.toNat ∧
    faultOf (exec .zip (s [])) = some (.outsideMemory 0x1000) ∧
    faultOf (exec .zip (s [⟨0x1000, 8⟩])) = some (.outsideMemory 0x1008) ∧
    faultOf (exec .zip (s [⟨0x1000, 12⟩])) = some (.outsideMemory 0x2000) ∧
    faultOf (exec .zip (s [⟨0x1000, 12⟩, ⟨0x2000, 4⟩])) = some (.outsideMemory 0x2004) := by decide

theorem test_meets_UndefinedAccessesStop_step : ({ started 1#32 .quant with memValid := [] } : State).Inv ∧
    faultOf (step { started 1#32 .quant with memValid := [] }) = some (.outsideMemory 0x1000) :=
  ⟨⟨test_inv_of_running.memory, test_inv_of_running.errcode, test_inv_of_running.cmd, test_inv_of_running.running,
    test_inv_of_running.inReset⟩, by decide⟩

/-- The last byte of the read set of `SRC2` and of the upper half of a `ZIP` output, and the bytes after them. -/
theorem test_meets_UndefinedAccessesStop_agents :
    let s (e : Event) : State := { started 3#32 .zip with events := [e] }
    refusalOf (step (s (.agentWrite 0x100F#32 [0#8]))) = some .racingAccess ∧
    refusalOf (step (s (.agentWrite 0x1010#32 [0#8]))) = none ∧ refusalOf (step (s (.agentRead 0x100F#32 1))) = none ∧
    refusalOf (step (s (.agentRead 0x200F#32 1))) = some .racingAccess ∧
    refusalOf (step (s (.agentRead 0x200E#32 4))) = some .racingAccess ∧ refusalOf (step (s (.agentRead 0x2010#32 1))) = none ∧
    (s .engine).reaches ((0x2010#32 : Word).toNat / 4 * 4) = true ∧ decode (.command (s .engine).cmd) = .ok .zip := by decide

theorem test_meets_QuantCommandConvertsBlock : (started 1#32 .quant).Ready .quant ∧
    (idle.src1.toNat + 4 * idle.len.toNat ≤ idle.dst.toNat) :=
  ⟨⟨rfl, rfl, by decide, rfl, by decide, by unfold State.footprintIn; decide⟩, by decide⟩

/-- The in-place case. -/
theorem test_meets_RampCommandRunsScaler :
    let s : State := { started 2#32 (.ramp 0) with dst := 0x1000#32 }
    s.Ready (.ramp 0) ∧ s.sw = s.gain 0 ∧ s.dst.toNat ≤ s.src1.toNat :=
  ⟨⟨rfl, rfl, by decide, rfl, by decide, by unfold State.footprintIn; decide⟩, by decide, by decide⟩

theorem test_meets_ZipCommandInterleaves : (started 3#32 .zip).Ready .zip ∧
    apart idle.dst.toNat (8 * idle.len.toNat) idle.src1.toNat (4 * idle.len.toNat) ∧
    apart idle.dst.toNat (8 * idle.len.toNat) idle.src2.toNat (4 * idle.len.toNat) :=
  ⟨⟨rfl, rfl, by decide, rfl, by decide, by unfold State.footprintIn; decide⟩, by unfold apart; decide, by unfold apart; decide⟩

theorem test_meets_ZipqCommandInterleavesQuantized : (started 4#32 .zipq).Ready .zipq ∧
    apart idle.dst.toNat (8 * idle.len.toNat) idle.src1.toNat (4 * idle.len.toNat) ∧
    apart idle.dst.toNat (8 * idle.len.toNat) idle.src2.toNat (4 * idle.len.toNat) :=
  ⟨⟨rfl, rfl, by decide, rfl, by decide, by unfold State.footprintIn; decide⟩, by unfold apart; decide, by unfold apart; decide⟩

theorem test_meets_QuantCallConvertsBlock :
    let s : State := { idle with events := (HostLine.quantCall 0x1000#32 0xFFFFFFF8#32 2#32).events }
    s.busy = false ∧ s.rst = false ∧ s.events = (HostLine.quantCall 0x1000#32 0xFFFFFFF8#32 2#32).events ∧
    (0xFFFFFFF8#32 : Word).toNat % 4 = 0 ∧ (0xFFFFFFF8#32 : Word).toNat + 4 * (2#32 : Word).toNat ≤ 2 ^ 32 ∧
    (∀ j, j < (2#32 : Word).toNat → s.reaches ((0x1000#32 : Word).toNat + 4 * j) = true ∧
      s.reaches ((0xFFFFFFF8#32 : Word).toNat + 4 * j) = true) ∧
    apart (0xFFFFFFF8#32 : Word).toNat (4 * (2#32 : Word).toNat) (0x1000#32 : Word).toNat (4 * (2#32 : Word).toNat) :=
  ⟨rfl, rfl, rfl, by decide, by decide, by decide, by unfold apart; decide⟩

/-- A round of `WAIT` that ends and one that goes back, with another agent's access before the host's next transaction. -/
theorem test_meets_HostLinesExpandToRecords :
    let s (v : Word) : State := { idle with pRdata := v, events := .await :: ([.agentRead 0#32 1] ++ [.port 0x0100000000#40]) }
    (s 1#32).events = .await :: ([.agentRead 0#32 1] ++ [.port 0x0100000000#40]) ∧ (s 1#32).pRdata.getLsbD 0 = true ∧
    (s 2#32).pRdata.getLsbD 0 = false ∧ (∀ e ∈ [Event.agentRead 0#32 1], e.ofHost = false) ∧
    ∀ e ∈ [Event.port 0x0100000000#40].head?, e.ofHost = true := by decide

theorem test_meets_AcceptedCommandCompletes : (started 1#32 .quant).Inv ∧ (started 1#32 .quant).busy = true ∧
    (started 1#32 .quant).events = [] ∧ decode (.command (started 1#32 .quant).cmd) = .ok .quant ∧
    (started 1#32 .quant).footprintIn .quant ∧ (∀ e ∈ [Event.port 0x8100000002#40].head?, e.ofHost = true) ∧
    ∀ e ∈ ([] : List Event).head?, e.ofHost = true :=
  ⟨test_inv_of_running, rfl, rfl, by decide, by unfold State.footprintIn; decide, by decide, by decide⟩

theorem test_meets_RampScaleHeld :
    (∃ t, exec (.ramp 0) (started 2#32 (.ramp 0)) = .next t) ∧ (started 2#32 (.ramp 0)).idx = 0#32 ∧
    (∃ t, exec (.ramp 0) { started 2#32 (.ramp 0) with idx := 1#32, sw := 0x3F000000#32 } = .next t) ∧
    feq32 0x3F000000#32 idle.target = true := ⟨⟨_, rfl⟩, rfl, ⟨_, rfl⟩, by decide⟩

theorem test_meets_RoundToNearestEven : fIsInf (round32 true 3 1) = false ∧ fExp 0x00000002#32 ≠ 255 ∧
    fValue 0x00000002#32 + fValue 0x80000001#32 ≠ 0 ∧ fValue 0x00000002#32 - fValue 0x80000001#32 ≠ 0 := by decide

theorem test_meets_MultiplySpecialCases : fIsNaN 0x7F800001#32 = true ∧ fIsInf 0xFF800000#32 = true ∧ fIsZero 0x80000000#32 = true ∧
    fIsNaN 0x3F800000#32 = false ∧ fIsZero 0x3F800000#32 = false ∧ fExp 0x3F800000#32 ≠ 255 := by decide

theorem test_meets_AddSpecialCases : fIsInf 0x7F800000#32 = true ∧ fIsInf 0xFF800000#32 = true ∧
    fSign 0x7F800000#32 ≠ fSign 0xFF800000#32 ∧ fIsNaN 0x3F800000#32 = false ∧
    fValue 0x80000000#32 + fValue 0x80000000#32 = 0 ∧ fExp 0x80000000#32 ≠ 255 := by decide

theorem test_meets_MultiplyByOneIsIdentity : fIsNaN 0x00000001#32 = false := by decide

/-- `2^105`, the least value that overflows, and the value before it. -/
theorem test_meets_MultiplyByQScaleExact : fIsInf 0xFF800000#32 = true ∧ fExp 0x74000000#32 ≠ 255 ∧ 2 ^ 277 ≤ fUnits 0x74000000#32 * 2 ^ 23 ∧
    fUnits 0x73FFFFFF#32 * 2 ^ 23 < 2 ^ 277 := by decide

theorem test_meets_ComparisonsOrderValues : fIsNaN 0x7FC00000#32 = true ∧ fIsNaN 0x80000000#32 = false ∧
    fIsZero 0x80000000#32 = true ∧ fIsZero 0x00000000#32 = true ∧ fExp 0x00000000#32 ≠ 255 ∧
    flt32 0x80000001#32 0x00000000#32 = true ∧ feq32 0x80000000#32 0x00000000#32 = true := by decide

theorem test_meets_QuantizerBoundedAndOdd : fIsNaN 0x3F7FFFFF#32 = false ∧ fUnits 0x3F7FFFFF#32 < 2 ^ 149 := by decide

theorem test_meets_QuantizerMonotone : fle32 0xBF800000#32 0x3F000000#32 = true := by decide

theorem test_meets_RampStepAbsorbed : fExp 0x48000001#32 ≠ 255 ∧ 2 ^ 166 < fUnits 0x48000001#32 := by decide

theorem test_meets_RampStepMovesTowardTarget : fUnits 0x3F03060D#32 < 2 ^ 164 ∧ fExp 0x3F000000#32 ≠ 255 ∧
    flt32 0x3F000000#32 0x3F03060D#32 = true ∧ fne32 0x3F0147AE#32 0x3F000000#32 = true ∧
    flt32 (fabs32 (fsub32 0x3F0147AE#32 0x3F000000#32)) 0x3C010204#32 = true := by decide

/-- `ZIP` with none, the first and both of its writes performed. -/
theorem test_meets_ResetAbandonsCommand :
    let s (n : Nat) : State := { started 3#32 .zip with events := [.rstRise n], kscale := 0x3F800000#32 }
    let out (n : Nat) : List Word := Memory.readBlock ((s n).takeReset n).mem 0x2000 2
    (s 1).events = .rstRise 1 :: [] ∧ decode (.command (s 1).cmd) = .ok .zip ∧ idle.busy = false ∧
    decode (.command 0x00000001#32) = .ok .quant ∧ decode (.command 0x00000072#32) = .ok (.ramp 7) ∧
    decode (.command 0x00000004#32) = .ok .zipq ∧
    out 0 = [0#32, 0#32] ∧ out 1 = [0x3F000000#32, 0#32] ∧ out 2 = [0x3F000000#32, 0x3E000000#32] := by decide

theorem test_meets_WriteDuringResetIgnored :
    let s : State := { idle with rst := true, events := [.port 0x8300001000#40] }
    s.events = .port 0x8300001000#40 :: [] ∧ s.rst = true ∧
    decode (.record 0x8300001000#40) = .ok (.wr .src1 0x1000#32) := by decide

theorem test_meets_StepKeepsInv : (started 1#32 .quant).Inv ∧ ∃ t, step (started 1#32 .quant) = .next t :=
  ⟨test_inv_of_running, ⟨_, rfl⟩⟩

theorem test_meets_RunningOperandsConstant : (started 1#32 .quant).busy = true ∧
    after (step (started 1#32 .quant)) (fun t => t.busy) = true := by decide

theorem test_meets_HostTransactionsDoNotDisturb : (started 1#32 .quant).busy = true := by decide

theorem test_meets_EngineDependsOnlyOnView :
    (started 1#32 .quant).engineView = { started 1#32 .quant with done := true, err := true, errcode := .range }.engineView := rfl

theorem test_meets_GainFileChangesOnlyBy : ∃ t, step { idle with events := [.port 0x933F800000#40] } = .next t := ⟨_, rfl⟩

theorem test_meets_BusyAndDoneChangeOnlyBy :
    after (step { started 1#32 .quant with idx := 2#32 }) (fun t => !t.busy) = true ∧
    after (step { idle with done := true, events := [.port 0x8100000002#40] }) (fun t => !t.done) = true := by decide

end Sys2Proof.Tests
end

/-! # Proofs for `00_scope.md`: the binary32 primitives (R9 to R16) -/

/-! The 31 magnitude bits of a binary32 word, and the value they stand for (R9).

A word is a sign and a magnitude, and the value is a strictly increasing function of the magnitude: this order is what the
comparisons (R14) and the rounding (R10) both turn on. -/

namespace Sys2Proof.Machine

/-! ### A word is its sign and its magnitude -/

/-- The word without its sign bit: `E * 2^23 + F`. -/
def magnitude (w : Word) : Nat := w.toNat % 2 ^ 31

theorem magnitude_lt (w : Word) : magnitude w < 2 ^ 31 := Nat.mod_lt _ (by decide)

theorem toNat_eq_magnitude_add (w : Word) : w.toNat = magnitude w + if fSign w then 2 ^ 31 else 0 := by
  have hlt := w.isLt
  have hsign : fSign w = decide (2 ^ 31 ≤ w.toNat) := BitVec.msb_eq_decide w
  unfold magnitude
  rw [hsign]
  simp only [decide_eq_true_eq]
  split_ifs <;> omega

theorem withSign_magnitude (w : Word) : withSign (fSign w) (magnitude w) = w :=
  BitVec.eq_of_toNat_eq <| by
    rw [withSign_toNat _ (magnitude_lt w), ← toNat_eq_magnitude_add]

@[simp] theorem magnitude_withSign (neg : Bool) {m : Nat} (h : m < 2 ^ 31) : magnitude (withSign neg m) = m := by
  unfold magnitude
  rw [withSign_toNat neg h]
  cases neg <;> simp <;> omega

/-- Two words are the same when their signs and their magnitudes are. -/
theorem word_eq_iff (a b : Word) : a = b ↔ fSign a = fSign b ∧ magnitude a = magnitude b := by
  constructor
  · rintro rfl
    exact ⟨rfl, rfl⟩
  · rintro ⟨hsign, hmag⟩
    rw [← withSign_magnitude a, hsign, hmag, withSign_magnitude b]

theorem fExp_eq_magnitude_div (w : Word) : fExp w = magnitude w / 2 ^ 23 := by
  conv_lhs => rw [← withSign_magnitude w]
  exact fExp_withSign _ (magnitude_lt w)

theorem fFrac_eq_magnitude_mod (w : Word) : fFrac w = magnitude w % 2 ^ 23 := by
  conv_lhs => rw [← withSign_magnitude w]
  exact fFrac_withSign _ (magnitude_lt w)

theorem fIsInf_iff (w : Word) : fIsInf w = true ↔ magnitude w = 0x7F800000 := by
  simp only [fIsInf, fExp_eq_magnitude_div, fFrac_eq_magnitude_mod, Bool.and_eq_true, beq_iff_eq]
  omega

theorem fIsZero_iff (w : Word) : fIsZero w = true ↔ magnitude w = 0 := by
  simp only [fIsZero, fExp_eq_magnitude_div, fFrac_eq_magnitude_mod, Bool.and_eq_true, beq_iff_eq]
  omega

theorem fIsNaN_eq_false_iff (w : Word) : fIsNaN w = false ↔ magnitude w ≤ 0x7F800000 := by
  have := magnitude_lt w
  simp only [fIsNaN, fExp_eq_magnitude_div, fFrac_eq_magnitude_mod, Bool.and_eq_false_iff, beq_eq_false_iff_ne, bne_eq_false_iff_eq]
  omega

theorem fExp_ne_255_iff (w : Word) : fExp w ≠ 255 ↔ magnitude w < 0x7F800000 := by
  have := magnitude_lt w
  rw [fExp_eq_magnitude_div]
  omega

/-- Finite words are neither NaN nor infinities. -/
theorem not_nan_not_inf_of_finite {w : Word} (h : fExp w ≠ 255) : fIsNaN w = false ∧ fIsInf w = false := by
  simp [fIsNaN, fIsInf, h]

theorem fExp_of_fIsInf {w : Word} (h : fIsInf w = true) : fExp w = 255 := by
  simp_all [fIsInf]

theorem not_nan_of_fIsInf {w : Word} (h : fIsInf w = true) : fIsNaN w = false :=
  (fIsNaN_eq_false_iff w).2 ((fIsInf_iff w).1 h).le

theorem not_zero_of_fIsInf {w : Word} (h : fIsInf w = true) : fIsZero w = false := by
  simp [fIsZero, fExp_of_fIsInf h]

theorem finite_of_fIsZero {w : Word} (h : fIsZero w = true) : fExp w ≠ 255 := by
  simp_all [fIsZero]

/-- An infinity is the infinity of its own sign. -/
theorem infinity_fSign {w : Word} (h : fIsInf w = true) : infinity (fSign w) = w := by
  conv_rhs => rw [← withSign_magnitude w, (fIsInf_iff w).1 h]
  rfl

theorem infinity_eq (neg : Bool) : infinity neg = if neg then 0xFF800000#32 else 0x7F800000#32 := by
  cases neg <;> rfl

/-- The last bit of a word is the last bit of its magnitude. -/
theorem getLsbD_zero_withSign {neg : Bool} {m : Nat} (h : m < 2 ^ 31) (heven : m % 2 = 0) :
    (withSign neg m).getLsbD 0 = false := by
  rw [BitVec.getLsbD, withSign_toNat neg h, Nat.testBit_zero, decide_eq_false_iff_not]
  cases neg <;> simp <;> omega

/-! ### The value of a magnitude, for every magnitude -/

/-- The value of a magnitude in units of `2^-149`, as the significand times the power of its exponent, the exponent unbounded as in
R10. -/
def magUnits (m : Nat) : Nat :=
  (m - (m / 2 ^ 23 - 1) * 2 ^ 23) * 2 ^ (m / 2 ^ 23 - 1)

/-- Every magnitude is a significand below `2^24` at an exponent, the significand at least `2^23` unless the exponent is the least. -/
theorem exists_significand (m : Nat) : ∃ e q, m = e * 2 ^ 23 + q ∧ q < 2 ^ 24 ∧ (2 ^ 23 ≤ q ∨ e = 0) :=
  ⟨m / 2 ^ 23 - 1, m - (m / 2 ^ 23 - 1) * 2 ^ 23, by omega, by omega, by omega⟩

/-- The significand may also be the carry `2^24`, as after rounding up. -/
theorem magUnits_significand {e q : Nat} (hq : q ≤ 2 ^ 24) (hn : 2 ^ 23 ≤ q ∨ e = 0) :
    magUnits (e * 2 ^ 23 + q) = q * 2 ^ e := by
  unfold magUnits
  rcases Nat.eq_or_lt_of_le hq with rfl | hlt
  · rw [show (e * 2 ^ 23 + 2 ^ 24) / 2 ^ 23 - 1 = e + 1 by omega,
      show e * 2 ^ 23 + 2 ^ 24 - (e + 1) * 2 ^ 23 = 2 ^ 23 by omega]
    ring
  · rw [show (e * 2 ^ 23 + q) / 2 ^ 23 - 1 = e by omega, Nat.add_sub_cancel_left]

@[simp] theorem magUnits_zero : magUnits 0 = 0 := rfl

theorem magUnits_strictMono : StrictMono magUnits := by
  refine strictMono_nat_of_lt_succ fun m => ?_
  obtain ⟨e, q, rfl, hq, hn⟩ := exists_significand m
  rw [magUnits_significand hq.le hn, Nat.add_assoc, magUnits_significand hq (by omega)]
  exact Nat.mul_lt_mul_of_pos_right q.lt_succ_self (Nat.two_pow_pos e)

theorem fUnits_eq_magUnits (w : Word) : fUnits w = magUnits (magnitude w) := by
  unfold fUnits
  rw [fExp_eq_magnitude_div, fFrac_eq_magnitude_mod]
  split_ifs with h
  · rw [← Nat.zero_add (magnitude w), ← Nat.zero_mul (2 ^ 23), magUnits_significand (by omega) (.inr rfl)]
    omega
  · unfold magUnits
    congr 1
    omega

theorem fUnits_lt_iff (a b : Word) : fUnits a < fUnits b ↔ magnitude a < magnitude b := by
  simp only [fUnits_eq_magUnits, magUnits_strictMono.lt_iff_lt]

theorem fUnits_inj (a b : Word) : fUnits a = fUnits b ↔ magnitude a = magnitude b := by
  simp only [fUnits_eq_magUnits, magUnits_strictMono.injective.eq_iff]

theorem fUnits_eq_zero_iff (w : Word) : fUnits w = 0 ↔ magnitude w = 0 := by
  rw [fUnits_eq_magUnits, magUnits_strictMono.injective.eq_iff' magUnits_zero]

/-- The magnitude of the infinities is that of `2^128`. -/
theorem magUnits_infinity : magUnits 0x7F800000 = 2 ^ 277 := by
  have h : magUnits (254 * 2 ^ 23 + 2 ^ 23) = 2 ^ 23 * 2 ^ 254 := magUnits_significand (by decide) (.inl le_rfl)
  rw [show 277 = 23 + 254 from rfl, Nat.pow_add]
  exact h

/-- A significand below `2^24` at any exponent has a magnitude: it is normalised by doubling. -/
theorem exists_magUnits_eq {q : Nat} (hq : q < 2 ^ 24) (e : Nat) : ∃ m, magUnits m = q * 2 ^ e := by
  induction e generalizing q with
  | zero => exact ⟨0 * 2 ^ 23 + q, magUnits_significand hq.le (.inr rfl)⟩
  | succ e ih =>
    by_cases hn : 2 ^ 23 ≤ q
    · exact ⟨(e + 1) * 2 ^ 23 + q, magUnits_significand hq.le (.inl hn)⟩
    · obtain ⟨m, hm⟩ := ih (q := 2 * q) (by omega)
      exact ⟨m, by rw [hm]; ring⟩

/-! ### The sign flip -/

theorem fSign_flip (w : Word) : fSign (w ^^^ 0x80000000#32) = !fSign w := by
  simp [fSign]

theorem magnitude_flip (w : Word) : magnitude (w ^^^ 0x80000000#32) = magnitude w := by
  have hbit : (0x80000000#32).toNat % 2 ^ 31 = 0 := rfl
  rw [magnitude, BitVec.toNat_xor, Nat.xor_mod_two_pow, hbit, Nat.xor_zero, magnitude]

theorem fExp_flip (w : Word) : fExp (w ^^^ 0x80000000#32) = fExp w := by
  rw [fExp_eq_magnitude_div, magnitude_flip, ← fExp_eq_magnitude_div]

theorem fValue_flip (w : Word) : fValue (w ^^^ 0x80000000#32) = -fValue w := by
  simp only [fValue, fSign_flip, fUnits_eq_magUnits, magnitude_flip]
  cases fSign w <;> simp

end Sys2Proof.Machine

/-! The rounding of R10: `roundMagnitude` is the nearest magnitude, the exponent unbounded. That it overflows at the midpoint, that
it is exact on what a magnitude represents, and that `round32` is the rounding, all follow from this one fact and the order of the
magnitudes. -/

namespace Sys2Proof.Machine

/-! ### Nearest -/

/-- `r` is at least as near to the magnitude `n * 2^-(149+k)` as every other magnitude is, and even where another is as near. -/
def IsNearest (n k r : Nat) : Prop :=
  ∀ m : Nat,
    ((n : Int) - (magUnits r * 2 ^ k : Nat)).natAbs ≤ ((n : Int) - (magUnits m * 2 ^ k : Nat)).natAbs ∧
    (((n : Int) - (magUnits r * 2 ^ k : Nat)).natAbs = ((n : Int) - (magUnits m * 2 ^ k : Nat)).natAbs →
      m ≠ r → r % 2 = 0)

/-- `roundShift` is the nearest multiple of `2^sh`, ties to even. -/
theorem roundShift_nearest_multiple (n sh j : Nat) :
    ((n : Int) - (roundShift n sh * 2 ^ sh : Nat)).natAbs ≤ ((n : Int) - (j * 2 ^ sh : Nat)).natAbs ∧
    (((n : Int) - (roundShift n sh * 2 ^ sh : Nat)).natAbs = ((n : Int) - (j * 2 ^ sh : Nat)).natAbs →
      j ≠ roundShift n sh → roundShift n sh % 2 = 0) := by
  obtain ⟨-, habove, hbelow, heven⟩ := roundShift_nearest n sh
  generalize roundShift n sh = q at *
  have hpos : 0 < 2 ^ sh := Nat.two_pow_pos sh
  generalize 2 ^ sh = p at *
  rw [Nat.add_mul, Nat.one_mul] at habove heven
  simp only [Nat.mul_assoc] at hbelow heven habove
  rcases Nat.lt_trichotomy j q with hlt | rfl | hgt
  · have hstep : j * p + p ≤ q * p := by
      rw [← Nat.succ_mul]
      exact Nat.mul_le_mul_right p hlt
    exact ⟨by omega, fun htie _ => heven (by omega)⟩
  · exact ⟨le_rfl, fun _ hne => absurd rfl hne⟩
  · have hstep : q * p + p ≤ j * p := by
      rw [← Nat.succ_mul]
      exact Nat.mul_le_mul_right p hgt
    exact ⟨by omega, fun htie _ => heven (by omega)⟩

/-- The shift leaves at most 24 bits, and 24 exactly where the exponent is not the least. -/
theorem roundShift_significand (n k : Nat) :
    let sh := max (Nat.log2 n + 1 - 24) k
    roundShift n sh ≤ 2 ^ 24 ∧ (2 ^ 23 * 2 ^ sh ≤ n ∧ 2 ^ 23 ≤ roundShift n sh ∨ sh - k = 0) := by
  intro sh
  have hquot := (roundShift_nearest n sh).1
  have hpos : 0 < 2 ^ sh := Nat.two_pow_pos sh
  have hlt : n < 2 ^ 24 * 2 ^ sh := by
    rw [← Nat.pow_add]
    exact Nat.lt_log2_self.trans_le (Nat.pow_le_pow_right (by decide) (by omega))
  have hquot_lt : n / 2 ^ sh < 2 ^ 24 := (Nat.div_lt_iff_lt_mul hpos).2 hlt
  refine ⟨by omega, ?_⟩
  by_cases he : sh - k = 0
  · exact .inr he
  · have hn : n ≠ 0 := by
      rintro rfl
      simp [sh] at he
    have hge : 2 ^ 23 * 2 ^ sh ≤ n := by
      rw [← Nat.pow_add]
      exact (Nat.pow_le_pow_right (by decide) (by omega)).trans (Nat.log2_self_le hn)
    have hquot_ge : 2 ^ 23 ≤ n / 2 ^ sh := (Nat.le_div_iff_mul_le hpos).2 hge
    exact .inl ⟨hge, by omega⟩

/-- Every magnitude is a multiple of `2^e`, or below all significands of 24 bits at the exponent `e`. -/
theorem magUnits_multiple_or_lt (m e : Nat) :
    (∃ j, magUnits m = j * 2 ^ e) ∨ (0 < e ∧ magUnits m < 2 ^ 23 * 2 ^ e) := by
  obtain ⟨e', q, rfl, hq, hn⟩ := exists_significand m
  rw [magUnits_significand hq.le hn]
  rcases Nat.lt_or_ge e' e with hlt | hge
  · refine .inr ⟨by omega, ?_⟩
    calc q * 2 ^ e' < 2 ^ 24 * 2 ^ e' := Nat.mul_lt_mul_of_pos_right hq (Nat.two_pow_pos e')
      _ = 2 ^ 23 * 2 ^ (e' + 1) := by ring
      _ ≤ 2 ^ 23 * 2 ^ e := Nat.mul_le_mul_left _ (Nat.pow_le_pow_right (by decide) hlt)
  · refine .inl ⟨q * 2 ^ (e' - e), ?_⟩
    rw [Nat.mul_assoc, ← Nat.pow_add, Nat.sub_add_cancel hge]

/-- Below `n`, the smaller is the farther. -/
theorem natAbs_sub_lt {a b n : Nat} (hab : a < b) (hbn : b ≤ n) : ((n : Int) - (b : Nat)).natAbs < ((n : Int) - (a : Nat)).natAbs := by
  omega

/-- R10 with the exponent unbounded. A multiple of the last place is no nearer by `roundShift`; any other magnitude lies below the
least 24-bit significand `2^23` at this exponent, which is itself a multiple and nearer. -/
theorem roundMagnitude_nearest (n k : Nat) : IsNearest n k (roundMagnitude n k) := by
  intro m
  unfold roundMagnitude
  obtain ⟨hle, hnorm⟩ := roundShift_significand n k
  have hmultiple := roundShift_nearest_multiple n (max (Nat.log2 n + 1 - 24) k)
  have hk : k ≤ max (Nat.log2 n + 1 - 24) k := Nat.le_max_right _ _
  dsimp only at *
  generalize max (Nat.log2 n + 1 - 24) k = sh at *
  have hscale (x : Nat) : x * 2 ^ (sh - k) * 2 ^ k = x * 2 ^ sh := by
    rw [Nat.mul_assoc, ← Nat.pow_add, Nat.sub_add_cancel hk]
  have hround : magUnits ((sh - k) * 2 ^ 23 + roundShift n sh) = roundShift n sh * 2 ^ (sh - k) :=
    magUnits_significand hle (by omega)
  generalize roundShift n sh = q at *
  rcases magUnits_multiple_or_lt m (sh - k) with ⟨j, hj⟩ | ⟨he, hlt⟩
  · rw [hround, hj, hscale, hscale]
    refine ⟨(hmultiple j).1, fun htie hne => ?_⟩
    have hjq : j ≠ q := by
      rintro rfl
      exact hne (magUnits_strictMono.injective (hj.trans hround.symm))
    have := (hmultiple j).2 htie hjq
    omega
  · obtain ⟨hn, -⟩ := hnorm.resolve_right (by omega)
    have hfar : magUnits m * 2 ^ k < 2 ^ 23 * 2 ^ sh := by
      rw [← hscale]
      exact Nat.mul_lt_mul_of_pos_right hlt (Nat.two_pow_pos k)
    have hnearer := (hmultiple (2 ^ 23)).1.trans_lt (natAbs_sub_lt hfar hn)
    rw [hround, hscale]
    exact ⟨hnearer.le, fun htie => absurd htie hnearer.ne⟩

/-- What a magnitude represents is rounded to that magnitude. -/
theorem roundMagnitude_exact (m k : Nat) : roundMagnitude (magUnits m * 2 ^ k) k = m := by
  have hzero := (roundMagnitude_nearest (magUnits m * 2 ^ k) k m).1
  have hunits : magUnits (roundMagnitude (magUnits m * 2 ^ k) k) * 2 ^ k = magUnits m * 2 ^ k := by omega
  exact magUnits_strictMono.injective (Nat.eq_of_mul_eq_mul_right (Nat.two_pow_pos k) hunits)

/-- A rounded magnitude is above an odd `m` exactly from the midpoint of the values of `m` and `m + 1` on: the midpoint itself is
a tie, which the odd `m` loses. -/
theorem lt_roundMagnitude_iff {m : Nat} (hodd : m % 2 = 1) (n k : Nat) :
    m < roundMagnitude n k ↔ (magUnits m + magUnits (m + 1)) * 2 ^ k ≤ 2 * n := by
  have hnearest := roundMagnitude_nearest n k
  have hpos : 0 < 2 ^ k := Nat.two_pow_pos k
  have hscale {a b : Nat} (h : a < b) : magUnits a * 2 ^ k < magUnits b * 2 ^ k :=
    Nat.mul_lt_mul_of_pos_right (magUnits_strictMono h) hpos
  have hscale_le {a b : Nat} (h : a ≤ b) : magUnits a * 2 ^ k ≤ magUnits b * 2 ^ k :=
    Nat.mul_le_mul_right _ (magUnits_strictMono.monotone h)
  generalize roundMagnitude n k = r at *
  rw [Nat.add_mul]
  constructor
  · intro hlt
    have hnear := (hnearest m).1
    have hbelow := hscale hlt
    have habove := hscale_le (Nat.add_one_le_iff.2 hlt)
    omega
  · intro hn
    by_contra hle
    obtain ⟨hnear, htie⟩ := hnearest (m + 1)
    have hgap := hscale (Nat.lt_add_one m)
    rcases Nat.eq_or_lt_of_le (Nat.le_of_not_lt hle) with rfl | hlt
    · have heven := htie (by omega) (by omega)
      omega
    · have hbelow := hscale hlt
      omega

/-! ### Overflow -/

/-- Twice the midpoint of the largest finite value and `2^128`. -/
theorem magUnits_overflow_midpoint : magUnits 0x7F7FFFFF + magUnits (0x7F7FFFFF + 1) = 2 * ((2 ^ 25 - 1) * 2 ^ 252) := by
  rw [show 0x7F7FFFFF + 1 = 253 * 2 ^ 23 + 2 ^ 24 from rfl, show 0x7F7FFFFF = 253 * 2 ^ 23 + (2 ^ 24 - 1) from rfl,
    magUnits_significand (by decide) (.inl (by decide)), magUnits_significand le_rfl (.inl (by decide)),
    show 253 = 252 + 1 from rfl, Nat.pow_succ]
  omega

theorem roundMagnitude_overflow_iff (n k : Nat) :
    0x7F800000 ≤ roundMagnitude n k ↔ (2 ^ 25 - 1) * 2 ^ 252 * 2 ^ k ≤ n := by
  have h := lt_roundMagnitude_iff (m := 0x7F7FFFFF) rfl n k
  rw [magUnits_overflow_midpoint, Nat.mul_assoc 2, Nat.mul_le_mul_left_iff (by decide)] at h
  exact h

/-! ### `round32` -/

theorem fSign_round32 (neg : Bool) (n k : Nat) : fSign (round32 neg n k) = neg :=
  fSign_withSign neg (by omega)

theorem magnitude_round32 (neg : Bool) (n k : Nat) :
    magnitude (round32 neg n k) = min (roundMagnitude n k) 0x7F800000 :=
  magnitude_withSign neg (by omega)

theorem round32_isInf_iff (neg : Bool) (n k : Nat) :
    fIsInf (round32 neg n k) = true ↔ 0x7F800000 ≤ roundMagnitude n k := by
  rw [fIsInf_iff, magnitude_round32]
  omega

theorem round32_isRounding (neg : Bool) (n k : Nat) : IsRounding neg n k (round32 neg n k) where
  notNaN := by
    rw [fIsNaN_eq_false_iff, magnitude_round32]
    exact Nat.min_le_right _ _
  sign := fSign_round32 neg n k
  overflow := (round32_isInf_iff neg n k).trans (roundMagnitude_overflow_iff n k)
  nearest hfin v _ := by
    have hlt : roundMagnitude n k < 0x7F800000 := by
      by_contra hover
      simp [(round32_isInf_iff neg n k).2 (by omega)] at hfin
    have hmag : magnitude (round32 neg n k) = roundMagnitude n k := by
      rw [magnitude_round32]
      omega
    rw [fUnits_eq_magUnits, fUnits_eq_magUnits, hmag]
    obtain ⟨hnear, htie⟩ := roundMagnitude_nearest n k (magnitude v)
    refine ⟨hnear, fun heq hne => ?_⟩
    have heven := htie heq fun h => hne (congrArg magUnits h)
    exact getLsbD_zero_withSign (by omega) (by omega)

/-- Rounding a value that a magnitude below `2^128` represents is exact. -/
theorem round32_exact (neg : Bool) {m : Nat} (k : Nat) (h : m ≤ 0x7F800000) :
    round32 neg (magUnits m * 2 ^ k) k = withSign neg m := by
  rw [round32, roundMagnitude_exact, Nat.min_eq_left h]

theorem round32_zero (neg : Bool) (k : Nat) : round32 neg 0 k = if neg then 0x80000000#32 else 0x00000000#32 := by
  have h := round32_exact neg (m := 0) k (by decide)
  rw [magUnits_zero, Nat.zero_mul] at h
  rw [h]
  cases neg <;> rfl

end Sys2Proof.Machine

/-! The cases of the multiplication (R11), the addition (R12) and the comparisons (R14), each said once. -/

namespace Sys2Proof.Machine

/-! ### Multiplication -/

theorem fmul32_comm (a b : Word) : fmul32 a b = fmul32 b a := by
  have hguard : (fIsNaN a || fIsNaN b || (fIsInf a && fIsZero b) || (fIsZero a && fIsInf b)) =
      (fIsNaN b || fIsNaN a || (fIsInf b && fIsZero a) || (fIsZero b && fIsInf a)) := by
    rw [Bool.or_comm (fIsNaN a), Bool.and_comm (fIsInf a), Bool.and_comm (fIsZero a), Bool.or_right_comm]
  rw [fmul32, fmul32, hguard, Bool.or_comm (fIsInf a), bne_comm (a := fSign a), Nat.mul_comm]

theorem fmul32_nan {a b : Word} (h : fIsNaN a = true ∨ fIsNaN b = true) : fmul32 a b = Config.canonNan := by
  rcases h with h | h <;> simp [fmul32, h]

theorem fmul32_inf_zero {a b : Word} (ha : fIsInf a = true) (hb : fIsZero b = true) : fmul32 a b = Config.canonNan := by
  simp [fmul32, ha, hb]

theorem fmul32_inf {a b : Word} (ha : fIsInf a = true) (hnan : fIsNaN b = false) (hzero : fIsZero b = false) :
    fmul32 a b = infinity (fSign a != fSign b) := by
  simp [fmul32, ha, hnan, hzero, not_nan_of_fIsInf ha, not_zero_of_fIsInf ha]

theorem fmul32_finite {a b : Word} (ha : fExp a ≠ 255) (hb : fExp b ≠ 255) :
    fmul32 a b = round32 (fSign a != fSign b) (fUnits a * fUnits b) 149 := by
  obtain ⟨hnana, hinfa⟩ := not_nan_not_inf_of_finite ha
  obtain ⟨hnanb, hinfb⟩ := not_nan_not_inf_of_finite hb
  simp [fmul32, hnana, hnanb, hinfa, hinfb]

theorem fmul32_zero {a b : Word} (ha : fIsZero a = true) (hb : fExp b ≠ 255) :
    fmul32 a b = if fSign a != fSign b then 0x80000000#32 else 0x00000000#32 := by
  have hunits : fUnits a = 0 := (fUnits_eq_zero_iff a).2 ((fIsZero_iff a).1 ha)
  rw [fmul32_finite (finite_of_fIsZero ha) hb, hunits, Nat.zero_mul, round32_zero]

/-- The word `0x4B000000` is `2^23`. -/
theorem fmul32_qScale_eq_round32 {w : Word} (h : fExp w ≠ 255) :
    fmul32 w 0x4B000000#32 = round32 (fSign w) (fUnits w * 2 ^ 23 * 2 ^ 149) 149 := by
  have hunits : fUnits 0x4B000000#32 = 2 ^ 23 * 2 ^ 149 := by decide
  have hsign : fSign 0x4B000000#32 = false := by decide
  rw [fmul32_finite h (by decide), hunits, hsign, Bool.bne_false, Nat.mul_assoc]

/-- Multiplied by `2^23` a value keeps its significand, so a magnitude, perhaps beyond those of words, represents the product. -/
theorem fmul32_qScale {w : Word} (h : fExp w ≠ 255) : ∃ m, magUnits m = fUnits w * 2 ^ 23 ∧
    fmul32 w 0x4B000000#32 = withSign (fSign w) (min m 0x7F800000) := by
  obtain ⟨e, q, hw, hq, hn⟩ := exists_significand (magnitude w)
  obtain ⟨m, hm⟩ := exists_magUnits_eq hq (e + 23)
  have hunits : magUnits m = fUnits w * 2 ^ 23 := by
    rw [hm, fUnits_eq_magUnits, hw, magUnits_significand hq.le hn, Nat.pow_add, Nat.mul_assoc]
  refine ⟨m, hunits, ?_⟩
  rw [fmul32_qScale_eq_round32 h, ← hunits, round32, roundMagnitude_exact]

/-! ### Addition -/

theorem fadd32_nan {a b : Word} (h : fIsNaN a = true ∨ fIsNaN b = true) : fadd32 a b = Config.canonNan := by
  rcases h with h | h <;> simp [fadd32, h]

theorem fadd32_inf_opposite {a b : Word} (ha : fIsInf a = true) (hb : fIsInf b = true) (hsign : fSign a ≠ fSign b) :
    fadd32 a b = Config.canonNan := by
  simp [fadd32, ha, hb, hsign]

/-- An infinity absorbs, from either side, whatever is no NaN and not the opposite infinity. -/
theorem fadd32_inf {a b : Word} (ha : fIsInf a = true) (hnan : fIsNaN b = false)
    (hsign : fIsInf b = true → fSign b = fSign a) : fadd32 a b = a ∧ fadd32 b a = a := by
  have hnana := not_nan_of_fIsInf ha
  rw [← infinity_fSign ha]
  cases hb : fIsInf b with
  | false => simp [fadd32, ha, hb, hnan, hnana, infinity_fSign]
  | true => simp [fadd32, ha, hb, hnan, hnana, hsign hb, infinity_fSign]

theorem fadd32_finite {a b : Word} (ha : fExp a ≠ 255) (hb : fExp b ≠ 255) :
    fadd32 a b = round32 (if fValue a + fValue b = 0 then fSign a && fSign b else decide (fValue a + fValue b < 0))
      (fValue a + fValue b).natAbs 0 := by
  obtain ⟨hnana, hinfa⟩ := not_nan_not_inf_of_finite ha
  obtain ⟨hnanb, hinfb⟩ := not_nan_not_inf_of_finite hb
  simp [fadd32, hnana, hnanb, hinfa, hinfb]

theorem fadd32_zero_sum {a b : Word} (ha : fExp a ≠ 255) (hb : fExp b ≠ 255) (h : fValue a + fValue b = 0) :
    fadd32 a b = if fSign a && fSign b then 0x80000000#32 else 0x00000000#32 := by
  rw [fadd32_finite ha hb, if_pos h, h, Int.natAbs_zero, round32_zero]

theorem fadd32_isRounding {a b : Word} (ha : fExp a ≠ 255) (hb : fExp b ≠ 255) (h : fValue a + fValue b ≠ 0) :
    IsRounding (decide (fValue a + fValue b < 0)) (fValue a + fValue b).natAbs 0 (fadd32 a b) := by
  rw [fadd32_finite ha hb, if_neg h]
  exact round32_isRounding _ _ _

/-! ### Comparison -/

theorem fOrdered_of_not_nan {a b : Word} (ha : fIsNaN a = false) (hb : fIsNaN b = false) : fOrdered a b = true := by
  simp [fOrdered, ha, hb]

theorem fOrdered_of_nan {a b : Word} (h : fIsNaN a = true ∨ fIsNaN b = true) : fOrdered a b = false := by
  rcases h with h | h <;> simp [fOrdered, h]

section Ordered

variable {a b : Word} (ha : fIsNaN a = false) (hb : fIsNaN b = false)
include ha hb

theorem flt32_iff : flt32 a b = true ↔ fValue a < fValue b := by
  simp [flt32, fOrdered_of_not_nan ha hb]

theorem fle32_iff : fle32 a b = true ↔ fValue a ≤ fValue b := by
  simp [fle32, fOrdered_of_not_nan ha hb]

theorem fgt32_iff : fgt32 a b = true ↔ fValue b < fValue a := by
  simp [fgt32, fOrdered_of_not_nan ha hb]

theorem fge32_iff : fge32 a b = true ↔ fValue b ≤ fValue a := by
  simp [fge32, fOrdered_of_not_nan ha hb]

theorem feq32_iff : feq32 a b = true ↔ fValue a = fValue b := by
  simp [feq32, fOrdered_of_not_nan ha hb]

end Ordered

/-- Comparisons of values by the sign and the magnitude. -/
theorem fValue_lt_iff (a b : Word) : fValue a < fValue b ↔
    (fSign a = true ∧ fSign b = false ∧ ¬ (magnitude a = 0 ∧ magnitude b = 0)) ∨
    (fSign a = false ∧ fSign b = false ∧ magnitude a < magnitude b) ∨
    (fSign a = true ∧ fSign b = true ∧ magnitude b < magnitude a) := by
  rw [← fUnits_lt_iff, ← fUnits_lt_iff, ← fUnits_eq_zero_iff, ← fUnits_eq_zero_iff, fValue, fValue]
  cases fSign a <;> cases fSign b <;> simp
  omega

theorem fValue_eq_iff (a b : Word) : fValue a = fValue b ↔
    (fSign a = fSign b ∧ magnitude a = magnitude b) ∨ (magnitude a = 0 ∧ magnitude b = 0) := by
  rw [← fUnits_inj, ← fUnits_eq_zero_iff, ← fUnits_eq_zero_iff, fValue, fValue]
  cases fSign a <;> cases fSign b <;> simp <;> omega

/-- Of one sign, the words are in the order of their magnitudes. -/
theorem toNat_lt_iff {a b : Word} (h : fSign a = fSign b) : a.toNat < b.toNat ↔ magnitude a < magnitude b := by
  rw [toNat_eq_magnitude_add, toNat_eq_magnitude_add, h]
  omega

/-- The infinities lie beyond every finite value. -/
theorem fValue_between_infinities {a : Word} (h : fExp a ≠ 255) :
    fValue 0xFF800000#32 < fValue a ∧ fValue a < fValue 0x7F800000#32 := by
  have hmag := (fExp_ne_255_iff a).1 h
  have hneg : fSign 0xFF800000#32 = true ∧ magnitude 0xFF800000#32 = 0x7F800000 := by decide
  have hpos : fSign 0x7F800000#32 = false ∧ magnitude 0x7F800000#32 = 0x7F800000 := by decide
  rw [fValue_lt_iff, fValue_lt_iff, hneg.1, hneg.2, hpos.1, hpos.2]
  cases fSign a <;> simp <;> omega

end Sys2Proof.Machine

/-! The statements about the binary32 primitives (`00_scope.md` R10 to R16). -/

namespace Sys2Proof.Machine

/-- Settles O38, by `round32_isRounding`; the difference is the sum with the flipped sign. -/
theorem roundToNearestEven : Obligations.RoundToNearestEven := by
  refine ⟨round32_isRounding, fun a b ha hb => ⟨?_, fadd32_isRounding ha hb, fun hdiff => ?_⟩⟩
  · rw [fmul32_finite ha hb]
    exact round32_isRounding _ _ _
  · have hb' : fExp (b ^^^ 0x80000000#32) ≠ 255 := by rwa [fExp_flip]
    have hvalue : fValue a - fValue b = fValue a + fValue (b ^^^ 0x80000000#32) := by
      rw [fValue_flip, Int.sub_eq_add_neg]
    rw [hvalue] at hdiff ⊢
    exact fadd32_isRounding ha hb' hdiff

/-- Settles O39, case by case. -/
theorem multiplySpecialCases : Obligations.MultiplySpecialCases := by
  refine fun a b => ⟨fmul32_nan, fun ha hb => ?_, fun ha hnan hzero => ⟨?_, fmul32_comm b a⟩,
    fun ha hb => ⟨?_, fmul32_comm b a⟩⟩
  · exact ⟨fmul32_inf_zero ha hb, (fmul32_comm b a).trans (fmul32_inf_zero ha hb)⟩
  · rw [fmul32_inf ha hnan hzero, infinity_eq]
    cases fSign a <;> cases fSign b <;> rfl
  · rw [fmul32_zero ha hb]
    cases fSign a <;> cases fSign b <;> rfl

/-- Settles O40, case by case. -/
theorem addSpecialCases : Obligations.AddSpecialCases := by
  refine fun a b => ⟨fadd32_nan, fadd32_inf_opposite, fadd32_inf, fun ha hb hsum => ?_, fun ha => ?_⟩
  · rw [fadd32_zero_sum ha hb hsum]
    simp only [Bool.and_eq_true]
  · have hsum : fValue a + fValue (a ^^^ 0x80000000#32) = 0 := by
      rw [fValue_flip, Int.add_right_neg]
    rw [fsub32, fadd32_zero_sum ha (by rwa [fExp_flip]) hsum, fSign_flip, Bool.and_not_self]
    rfl

/-- Settles O42: by `fmul32_qScale` the rounding is exact, and the magnitude is below that of the infinity exactly when the product
is below `2^277`. -/
theorem multiplyByQScaleExact : Obligations.MultiplyByQScaleExact := by
  intro w
  refine ⟨fun h => ?_, fun hfin hlt => ?_, fun hfin hge => ?_⟩
  · rw [fmul32_inf h (by decide) (by decide), show fSign 0x4B000000#32 = false by decide, Bool.bne_false, infinity_fSign h]
  · obtain ⟨m, hunits, hmul⟩ := fmul32_qScale hfin
    have hm : m < 0x7F800000 := by
      rwa [← hunits, ← magUnits_infinity, magUnits_strictMono.lt_iff_lt] at hlt
    rw [hmul, Nat.min_eq_left hm.le, fUnits_eq_magUnits, fExp_ne_255_iff, magnitude_withSign _ (by omega)]
    exact ⟨hunits, fSign_withSign _ (by omega), hm⟩
  · obtain ⟨m, hunits, hmul⟩ := fmul32_qScale hfin
    have hm : 0x7F800000 ≤ m := by
      rwa [← hunits, ← magUnits_infinity, magUnits_strictMono.le_iff_le] at hge
    rw [hmul, Nat.min_eq_right hm]
    exact infinity_eq _

/-- Settles O43, by the order of the values and what it is in signs and magnitudes. -/
theorem comparisonsOrderValues : Obligations.ComparisonsOrderValues := by
  refine fun a b => ⟨fun h => ?_, fun ha hb => ?_⟩
  · simp [flt32, fle32, fgt32, fge32, feq32, fne32, fOrdered_of_nan h]
  have hinf : fIsNaN 0xFF800000#32 = false ∧ fIsNaN 0x7F800000#32 = false := by decide
  refine ⟨?_, ?_, ?_, rfl, ?_, ?_, fun _ _ => ⟨flt32_iff ha hb, feq32_iff ha hb⟩, fun hfin => ?_, ?_, ?_, ?_⟩
  · simp only [← Bool.not_eq_true, flt32_iff ha hb, feq32_iff ha hb, fgt32_iff ha hb]
    omega
  · rw [Bool.eq_iff_iff, Bool.or_eq_true, fle32_iff ha hb, flt32_iff ha hb, feq32_iff ha hb]
    omega
  · rw [Bool.eq_iff_iff, Bool.or_eq_true, fge32_iff ha hb, fgt32_iff ha hb, feq32_iff ha hb]
    omega
  · rw [Bool.eq_iff_iff, fgt32_iff ha hb, flt32_iff hb ha]
  · rw [Bool.eq_iff_iff, feq32_iff ha hb, feq32_iff hb ha, eq_comm]
  · obtain ⟨hbelow, habove⟩ := fValue_between_infinities hfin
    exact ⟨(flt32_iff hinf.1 ha).2 hbelow, (flt32_iff ha hinf.2).2 habove⟩
  · rw [flt32_iff hinf.1 hinf.2, fValue_lt_iff]
    decide
  · rw [feq32_iff ha hb, fValue_eq_iff, word_eq_iff, fIsZero_iff, fIsZero_iff]
  · rw [flt32_iff ha hb, fValue_lt_iff, fIsZero_iff, fIsZero_iff]
    cases hsa : fSign a <;> cases hsb : fSign b <;> simp [toNat_lt_iff, hsa, hsb]

end Sys2Proof.Machine

/-! # Proofs for `10_state.md`: the state, its registers and what every step keeps (R20 to R43) -/

/-! What a register transaction does (`43_host_port.md` R131, R132, R137 to R141). -/

namespace Sys2Proof.Machine

/-! ### Reads -/

/-- A read whose value the spec gives: the value goes to the read data of the port, and nothing else changes (R132). -/
theorem exec_rd_given {s : State} {r : PortReg} (h : s.readIsFree r = false) :
    exec (.rd r) s = .next { s with pRdata := s.readReg r } := by
  simp [exec, execRd, h]

theorem exec_rd_valid_gain {s : State} {k : Slot} (h : s.gainValid k = true) :
    exec (.rd (.gain k)) s = .next { s with pRdata := s.gain k } := by
  rw [exec_rd_given (by simp [State.readIsFree, h]), State.readReg, if_pos h]

/-- A read of a slot that holds no GainState draws the next free value (R33, U3). -/
theorem exec_rd_invalid_gain {s : State} {k : Slot} (h : s.gainValid k = false) :
    exec (.rd (.gain k)) s = .next { s with pRdata := Config.freeWord s.freeCount, freeCount := s.freeCount + 1 } := by
  simp [exec, execRd, State.readIsFree, State.readReg, h]

theorem ctrlWord_eq (s : State) : s.ctrlWord = if s.ie then 1#32 else 0#32 := by
  unfold State.ctrlWord
  cases s.ie <;> rfl

theorem getLsbD_gvalidWord (s : State) (j : Nat) : s.gvalidWord.getLsbD j = s.gvalid.getLsbD j := by
  rw [State.gvalidWord, BitVec.getLsbD_setWidth]
  rcases Nat.lt_or_ge j 32 with hj | hj
  · simp [hj]
  · simp [BitVec.getLsbD_of_ge s.gvalid j (le_trans (by decide) hj)]

/-! ### The flags -/

theorem getLsbD_statusWord_flags (s : State) : s.statusWord.getLsbD 0 = s.busy ∧ s.statusWord.getLsbD 1 = s.done ∧
    s.statusWord.getLsbD 2 = s.err ∧ s.statusWord.getLsbD 3 = false := by
  simp only [State.statusWord, BitVec.getLsbD_append]
  simp

/-- `STATUS` from bit 4 on is the code (R22). -/
theorem getLsbD_statusWord_code (s : State) (i : Nat) : s.statusWord.getLsbD (4 + i) = s.errcode.bits.getLsbD i := by
  simp only [State.statusWord, BitVec.getLsbD_append]
  rw [if_neg (by omega), if_neg (by omega), if_neg (by omega), if_neg (by omega)]
  simp only [show 4 + i - 1 - 1 - 1 - 1 = i by omega]
  split_ifs with hi
  · rfl
  · rw [BitVec.getLsbD_zero, BitVec.getLsbD_of_ge _ _ (Nat.not_lt.1 hi)]

/-! ### Writes -/

theorem exec_wr (r : PortReg) (v : Word) (s : State) : exec (.wr r v) s = .next (s.writeReg r v) := rfl

/-- Everything a write of `v` to the register `r` can do to the state `s`. -/
inductive WriteEffect (s : State) (r : PortReg) (v : Word) : State → Prop where
  | acknowledged (hreg : r = .status) : WriteEffect s r v (s.acknowledge v)
  | enabled (ie : Bool) : WriteEffect s r v { s with ie }
  | ignored : WriteEffect s r v s
  | refused (code : ErrCode) (hcode : code ≠ .noError) : WriteEffect s r v (s.refuse code)
  | accepted (i : Instr) (hidle : s.busy = false) (hok : s.acceptance v = .ok i) : WriteEffect s r v (s.accept v i)
  | created (k : Slot) (hreg : r = .gain k) (hidle : s.busy = false) : WriteEffect s r v (s.createGain k v)
  | configured (src1 src2 dst len target kscale : Word) (gvalid : BitVec Config.ng) (hidle : s.busy = false) :
      WriteEffect s r v { s with src1, src2, dst, len, target, kscale, gvalid }

/-- The lock refuses the write or lets it through (R137). -/
theorem locked_effect {s : State} {r : PortReg} {v : Word} {f : State → State}
    (h : s.busy = false → WriteEffect s r v (f s)) : WriteEffect s r v (s.locked f) := by
  cases hb : s.busy with
  | true =>
    rw [locked_busy f hb]
    exact .refused .busywr (by decide)
  | false =>
    rw [locked_idle f hb]
    exact h hb

theorem issue_effect {s : State} (r : PortReg) (v : Word) (hidle : s.busy = false) : WriteEffect s r v (s.issue v) := by
  obtain ⟨code, hcode, heq⟩ | ⟨i, hok, heq⟩ := issue_cases s v
  · rw [heq]
    exact .refused code (acceptance_code hcode)
  · rw [heq]
    exact .accepted i hidle hok

/-- Every write has one of these effects: the locked registers by the lock, the others as they are. -/
theorem writeReg_effect (s : State) (r : PortReg) (v : Word) : WriteEffect s r v (s.writeReg r v) := by
  cases r <;> simp only [State.writeReg]
  case cmd => exact locked_effect fun hidle => issue_effect _ v hidle
  case status => exact .acknowledged rfl
  case ctrl => exact .enabled _
  case src1 => exact locked_effect fun hidle => .configured v s.src2 s.dst s.len s.target s.kscale s.gvalid hidle
  case src2 => exact locked_effect fun hidle => .configured s.src1 v s.dst s.len s.target s.kscale s.gvalid hidle
  case dst => exact locked_effect fun hidle => .configured s.src1 s.src2 v s.len s.target s.kscale s.gvalid hidle
  case len => exact locked_effect fun hidle => .configured s.src1 s.src2 s.dst v s.target s.kscale s.gvalid hidle
  case target => exact locked_effect fun hidle => .configured s.src1 s.src2 s.dst s.len v s.kscale s.gvalid hidle
  case kscale => exact locked_effect fun hidle => .configured s.src1 s.src2 s.dst s.len s.target v s.gvalid hidle
  case gvalid => exact locked_effect fun hidle => .configured s.src1 s.src2 s.dst s.len s.target s.kscale _ hidle
  case id => exact .ignored
  case gain k => exact locked_effect fun hidle => .created k rfl hidle
  case reserved a => exact .ignored

/-- A register write leaves the gain-state file as it is, but for a write of a slot while no command runs (R141). -/
theorem WriteEffect.gains {s t : State} {r : PortReg} {v : Word} (heffect : WriteEffect s r v t) :
    t.gains = s.gains ∨ ∃ k, r = .gain k ∧ s.busy = false ∧ t.gains = s.gains.set k v := by
  cases heffect with
  | created k hreg hidle => exact .inr ⟨k, hreg, hidle, rfl⟩
  | _ => exact .inl rfl

/-- No register write ends a command (R137). -/
theorem WriteEffect.busy {s t : State} {r : PortReg} {v : Word} (heffect : WriteEffect s r v t) (h : s.busy = true) :
    t.busy = true := by
  cases heffect with
  | accepted => rfl
  | _ => exact h

/-- A register write leaves `DONE` as it is, but for an acknowledgement (R138). -/
theorem WriteEffect.done {s t : State} {r : PortReg} {v : Word} (heffect : WriteEffect s r v t) :
    t.done = s.done ∨ r = .status ∧ t.done = (s.done && !v.getLsbD 1) := by
  cases heffect with
  | acknowledged hreg => exact .inr ⟨hreg, rfl⟩
  | _ => exact .inl rfl

end Sys2Proof.Machine

/-! What an engine step of a command does, what it leaves unchanged, and what it depends on (R34, R36, R136, R142). -/

namespace Sys2Proof.Machine

/-- The instructions the engine runs. -/
abbrev IsCommand (i : Instr) : Prop := i = .quant ∨ (∃ g, i = .ramp g) ∨ i = .zip ∨ i = .zipq

/-- The completion step of an instruction: that of `RAMP` also writes its slot back (R102, R136). -/
def State.finish (i : Instr) (s : State) : State :=
  match i with
  | .ramp g => State.rampComplete g s
  | _ => s.complete

/-- A completion changes `BUSY`, `DONE` and the gain-state file alone. -/
theorem finish_eq (i : Instr) (s : State) :
    s.finish i = { s with busy := false, done := true, gains := (s.finish i).gains } := by
  cases i <;> rfl

/-- Every command's meaning is the engine step of its own loop body and completion. -/
theorem exec_command {i : Instr} (h : IsCommand i) (s : State) :
    exec i s = s.engineStep (fun s => s.element i) (State.finish i) := by
  obtain rfl | ⟨g, rfl⟩ | rfl | rfl := h <;> rfl

/-- Everything an engine step of the instruction `i` can do to the state `s`. -/
inductive EngineEffect (i : Instr) (s : State) : State → Prop where
  | idle (hidle : s.busy = false) : EngineEffect i s s
  | element (e : Element) (mem : Memory) (hbusy : s.busy = true) (hidx : s.idx.toNat < s.len.toNat)
      (he : s.element i = .ok e) (hwf : Memory.wf s.mem = true → Memory.wf mem = true)
      (hother : ∀ y, (∀ w ∈ e.writes, y < w.1 ∨ w.1 + 4 ≤ y) → Memory.readByte mem y = Memory.readByte s.mem y) :
      EngineEffect i s { s with mem, sw := e.sw, prev := e.prev, idx := s.idx + 1#32 }
  | completion (hbusy : s.busy = true) (hidx : s.len.toNat ≤ s.idx.toNat) : EngineEffect i s (s.finish i)

/-- A command's engine step that answers a next state has one of these effects. -/
theorem exec_command_effect {i : Instr} {s t : State} (hi : IsCommand i) (h : exec i s = .next t) : EngineEffect i s t := by
  rw [exec_command hi] at h
  obtain ⟨hidle, rfl⟩ | ⟨hbusy, hidx, e, s', he, hs', rfl⟩ | ⟨hbusy, hidx, rfl⟩ := engineStep_cases h
  · exact .idle hidle
  · obtain ⟨heq, hwf, -, hother⟩ := memWrites_cases hs'
    rw [heq]
    exact .element e s'.mem hbusy hidx he hwf hother
  · exact .completion hbusy hidx

/-! ### What it leaves unchanged -/

/-- The fields an engine step never changes. -/
theorem EngineEffect.frame {s t : State} {i : Instr} (heffect : EngineEffect i s t) :
    t = { s with busy := t.busy, done := t.done, gains := t.gains, sw := t.sw, prev := t.prev, idx := t.idx, mem := t.mem } := by
  cases heffect with
  | idle => rfl
  | element => rfl
  | completion => rw [finish_eq]

/-- A byte is as it was, unless the element stores a word over it. -/
theorem EngineEffect.readByte {s t : State} {i : Instr} (heffect : EngineEffect i s t) {a : Nat}
    (h : s.idx.toNat < s.len.toNat → ∀ e, s.element i = .ok e → ∀ w ∈ e.writes, a < w.1 ∨ w.1 + 4 ≤ a) :
    Memory.readByte t.mem a = Memory.readByte s.mem a := by
  cases heffect with
  | idle => rfl
  | element e mem hbusy hidx he hwf hother => exact hother a (h hidx e he)
  | completion => rw [finish_eq]

/-- An engine step leaves the gain-state file as it is, but for the completion of a `RAMP` (R109). -/
theorem EngineEffect.gains {s t : State} {i : Instr} (heffect : EngineEffect i s t) :
    t.gains = s.gains ∨ ∃ g, i = .ramp g ∧ s.len.toNat ≤ s.idx.toNat ∧ t.busy = false ∧ t.gains = s.gains.set g s.sw := by
  cases heffect with
  | idle => exact .inl rfl
  | element => exact .inl rfl
  | completion hbusy hidx =>
    cases i with
    | ramp g => exact .inr ⟨g, rfl, hidx, rfl, rfl⟩
    | _ => exact .inl rfl

/-- A slot changes by the completion of the `RAMP` of that slot alone (R34). -/
theorem EngineEffect.gain {s t : State} {i : Instr} (heffect : EngineEffect i s t) {k : Slot}
    (h : i ≠ .ramp k ∨ s.idx.toNat < s.len.toNat) : t.gain k = s.gain k := by
  obtain hsame | ⟨g, rfl, hidx, -, hset⟩ := heffect.gains
  · rw [State.gain, hsame, State.gain]
  · have hne : k ≠ g := by
      rintro rfl
      exact h.elim (fun hramp => hramp rfl) (Nat.not_lt.2 hidx)
    rw [State.gain, hset]
    exact s.gain_setGain_other s.sw hne

/-- An engine step leaves `BUSY` and `DONE` as they are, or is the completion step (R136). -/
theorem EngineEffect.busy_done {s t : State} {i : Instr} (heffect : EngineEffect i s t) :
    t.busy = s.busy ∧ t.done = s.done ∨ s.len.toNat ≤ s.idx.toNat ∧ t.done = true := by
  cases heffect with
  | idle => exact .inl ⟨rfl, rfl⟩
  | element => exact .inl ⟨rfl, rfl⟩
  | completion hbusy hidx =>
    rw [finish_eq]
    exact .inr ⟨hidx, rfl⟩

/-! ### The elements -/

theorem quantElement_ok {s : State} {e : Element} (h : s.quantElement = .ok e) :
    (∃ v, e.writes = [(elementAddress s.dst s.idx.toNat, v)]) ∧ e.sw = s.sw ∧ e.prev = s.prev := by
  unfold State.quantElement at h
  split at h
  · cases h
  · injection h with h
    subst h
    exact ⟨⟨_, rfl⟩, rfl, rfl⟩

theorem rampElement_ok {s : State} {e : Element} (h : s.rampElement = .ok e) :
    ∃ v, e.writes = [(elementAddress s.dst s.idx.toNat, v)] := by
  unfold State.rampElement at h
  split at h
  · cases h
  · injection h with h
    subst h
    exact ⟨_, rfl⟩

theorem zipElementWith_ok {s : State} {out : Word → Word} {e : Element} (h : s.zipElementWith out = .ok e) :
    (∃ v w, e.writes = [(elementAddress s.dst (2 * s.idx.toNat), v), (elementAddress s.dst (2 * s.idx.toNat + 1), w)]) ∧
    e.sw = s.sw ∧ e.prev = s.prev := by
  unfold State.zipElementWith at h
  split at h
  · cases h
  · split at h
    · cases h
    · injection h with h
      subst h
      exact ⟨⟨_, _, rfl⟩, rfl, rfl⟩

/-- An element of `QUANT` or `RAMP` stores one word (R91, R102). -/
theorem element_writes_one {s : State} {i : Instr} {e : Element} (hi : i = .quant ∨ ∃ g, i = .ramp g)
    (h : s.element i = .ok e) : ∃ v, e.writes = [(elementAddress s.dst s.idx.toNat, v)] := by
  obtain rfl | ⟨g, rfl⟩ := hi
  · exact (quantElement_ok h).1
  · exact rampElement_ok h

/-- An element of `ZIP` or `ZIPQ` stores two words, one after the other (R115, R116). -/
theorem element_writes_two {s : State} {i : Instr} {e : Element} (hi : i = .zip ∨ i = .zipq) (h : s.element i = .ok e) :
    ∃ v w, e.writes = [(elementAddress s.dst (2 * s.idx.toNat), v), (elementAddress s.dst (2 * s.idx.toNat + 1), w)] := by
  obtain rfl | rfl := hi
  · exact (zipElementWith_ok (out := fun y => y) h).1
  · exact (zipElementWith_ok (out := q23) h).1

/-- `SW` and `PREV` are `RAMP`'s. -/
theorem element_keeps_scale {s : State} {i : Instr} {e : Element} (hi : ∀ g, i ≠ .ramp g) (h : s.element i = .ok e) :
    e.sw = s.sw ∧ e.prev = s.prev := by
  cases i with
  | quant => exact (quantElement_ok h).2
  | ramp g => exact absurd rfl (hi g)
  | zip => exact (zipElementWith_ok (out := fun y => y) h).2
  | zipq => exact (zipElementWith_ok (out := q23) h).2
  | wr _ _ => injection h with h; subst h; exact ⟨rfl, rfl⟩
  | rd _ => injection h with h; subst h; exact ⟨rfl, rfl⟩

theorem EngineEffect.scale {s t : State} {i : Instr} (heffect : EngineEffect i s t) (h : ∀ g, i ≠ .ramp g) :
    t.sw = s.sw ∧ t.prev = s.prev := by
  cases heffect with
  | idle => exact ⟨rfl, rfl⟩
  | element e mem hbusy hidx he => exact element_keeps_scale h he
  | completion =>
    rw [finish_eq]
    exact ⟨rfl, rfl⟩

/-! ### The view -/

/-- An outcome as the engine sees it. -/
def viewOutcome : Host.Outcome State Fault Refusal → Host.Outcome State Fault Refusal
  | .next t => .next t.engineView
  | o => o

theorem memWrite_engineView (s : State) (a : Nat) (v : Word) :
    s.engineView.memWrite a v = (s.memWrite a v).map State.engineView := by
  unfold State.memWrite
  rw [show s.engineView.reaches a = s.reaches a from rfl]
  split_ifs <;> rfl

theorem memWrites_engineView (s : State) (ws : List (Nat × Word)) :
    s.engineView.memWrites ws = (s.memWrites ws).map State.engineView := by
  induction ws generalizing s with
  | nil => rfl
  | cons w ws ih =>
    simp only [State.memWrites, memWrite_engineView]
    cases s.memWrite w.1 w.2 with
    | error f => rfl
    | ok s' => exact ih s'

/-- An element is computed from the view. -/
theorem element_engineView (s : State) (i : Instr) : s.engineView.element i = s.element i := by
  cases i <;> rfl

theorem finish_engineView (s : State) (i : Instr) : (s.engineView.finish i).engineView = (s.finish i).engineView := by
  cases i <;> rfl

/-- Blanking out what the view leaves out, before an engine step, does not show in the view of its outcome. -/
theorem exec_engineView {i : Instr} (hi : IsCommand i) (s : State) :
    viewOutcome (exec i s.engineView) = viewOutcome (exec i s) := by
  have hbusy : s.engineView.busy = s.busy := rfl
  have hidx : s.engineView.idx = s.idx := rfl
  have hlen : s.engineView.len = s.len := rfl
  simp only [exec_command hi, State.engineStep, element_engineView, memWrites_engineView, hbusy, hidx, hlen]
  split_ifs
  · rfl
  · cases s.element i with
    | error f => rfl
    | ok e =>
      cases hws : s.memWrites e.writes with
      | error f => simp [hws, Except.map]
      | ok s' => simp [hws, Except.map, viewOutcome, State.engineView]
  · exact congrArg Host.Outcome.next (finish_engineView s i)

theorem engineStep_ne_refused (s : State) (body : State → Except Fault Element) (finish : State → State) (r : Refusal) :
    s.engineStep body finish ≠ .refused r := by
  unfold State.engineStep
  split_ifs
  · exact nofun
  · cases body s with
    | error f => exact nofun
    | ok e =>
      cases hws : s.memWrites e.writes with
      | error f => simp [hws]
      | ok s' => simp [hws]
  · exact nofun

/-- Two outcomes with one view, if they are no refusals, are the same fault or next states with one view. -/
theorem same_fault_or_view {o o' : Host.Outcome State Fault Refusal} (hne : ∀ r, o ≠ .refused r)
    (h : viewOutcome o = viewOutcome o') :
    (∃ f, o = .fault f ∧ o' = .fault f) ∨ ∃ t t', o = .next t ∧ o' = .next t' ∧ t.engineView = t'.engineView := by
  cases o with
  | next t =>
    cases o' with
    | next t' => exact .inr ⟨t, t', rfl, rfl, by injection h⟩
    | _ => cases h
  | fault f =>
    cases o' with
    | fault f' =>
      injection h with h
      exact .inl ⟨f, rfl, h ▸ rfl⟩
    | _ => cases h
  | refused r => exact absurd rfl (hne r)

end Sys2Proof.Machine

/-! What a step of the whole machine does, said once: the rules about every step are read off from it. -/

namespace Sys2Proof.Machine

/-! ### What decodes to what -/

/-- A legal command word is a command of the engine (R71). -/
theorem decodeCommand_isCommand {w : Word} {i : Instr} (h : decodeCommand w = .ok i) : IsCommand i := by
  simp only [decodeCommand] at h
  split_ifs at h <;> injection h with h <;> simp [IsCommand, ← h]

/-- A port record is a write or a read (R75). -/
theorem decodeRecord_wr_or_rd {r : BitVec 40} {i : Instr} (h : decodeRecord r = .ok i) :
    (∃ reg v, i = .wr reg v) ∨ ∃ reg, i = .rd reg := by
  simp only [decodeRecord] at h
  split_ifs at h <;> injection h with h <;> simp [← h]

/-- Everything a step that answers a next state can do to the state `s`. -/
inductive StepEffect (s : State) : State → Prop where
  /-- A read, an edge or a transaction in reset, a round of `WAIT`, an idle turn: the block's own state stays, but that `rst` may fall. -/
  | quiet (events : List Event) (rst : Bool) (pRdata : Word) (freeCount : Nat) (agentRdata : List Byte)
      (hrst : rst = true → s.rst = true) : StepEffect s { s with events, rst, pRdata, freeCount, agentRdata }
  | engine {t : State} (events : List Event) (i : Instr) (hbusy : s.busy = true) (hdecode : decodeCommand s.cmd = .ok i)
      (heffect : EngineEffect i { s with events } t) : StepEffect s t
  | hostWrite {t : State} (record : BitVec 40) (rest : List Event) (r : PortReg) (v : Word)
      (hevents : s.events = .port record :: rest) (hrst : s.rst = false) (hdecode : decodeRecord record = .ok (.wr r v))
      (heffect : WriteEffect { s with events := rest } r v t) : StepEffect s t
  | agentWrite (events : List Event) (a : Nat) (bytes : List Byte) (hin : a + bytes.length ≤ 2 ^ 32) :
      StepEffect s { s with events, mem := Memory.writeBytes s.mem a bytes }
  | reset (inflight : Nat) (rest : List Event) (hevents : s.events = .rstRise inflight :: rest) :
      StepEffect s ({ s with events := rest }.takeReset inflight)

/-- The engine's turn, in the state that has taken its event (R136). -/
theorem engineTurn_effect {s t : State} {events : List Event}
    (h : runActivity (State.engineTurn { s with events }) = .next t) : StepEffect s t := by
  unfold State.engineTurn at h
  split_ifs at h with hbusy
  · simp only [runActivity, decode] at h
    split at h
    · next i hdecode =>
      exact .engine events i hbusy hdecode (exec_command_effect (decodeCommand_isCommand hdecode) h)
    · cases h
  · injection h with h
    subst h
    exact .quiet events s.rst s.pRdata s.freeCount s.agentRdata id

/-- The host's transaction: a write has its effect out of reset and none in reset; a read is quiet (R131, R132, R170). -/
theorem portTurn_effect {s t : State} {record : BitVec 40} {rest : List Event} (hevents : s.events = .port record :: rest)
    (h : runActivity (State.eventTurn { s with events := rest } (.port record)) = .next t) : StepEffect s t := by
  simp only [State.eventTurn] at h
  split_ifs at h with hrst
  · simp only [runActivity, State.portInReset] at h
    split at h
    · cases h
    · injection h with h
      subst h
      exact .quiet rest s.rst _ _ s.agentRdata id
    · injection h with h
      subst h
      exact .quiet rest s.rst s.pRdata s.freeCount s.agentRdata id
  · simp only [runActivity, decode] at h
    split at h
    · next i hdecode =>
      obtain ⟨r, v, rfl⟩ | ⟨r, rfl⟩ := decodeRecord_wr_or_rd hdecode
      · injection h with h
        subst h
        exact .hostWrite record rest r v hevents (Bool.eq_false_iff.2 hrst) hdecode (writeReg_effect _ r v)
      · injection h with h
        subst h
        exact .quiet rest s.rst _ _ s.agentRdata id
    · cases h

/-- Bytes that all lie in memory end inside the address space. -/
theorem end_of_agentReaches {s : State} {a n : Nat} (ha : a < 2 ^ 32) (h : (List.range' a n).all s.agentReaches = true) :
    a + n ≤ 2 ^ 32 := by
  cases n with
  | zero => omega
  | succ n =>
    have hlast := List.all_eq_true.1 h (a + n) (by simp)
    simp only [State.agentReaches, Bool.and_eq_true, decide_eq_true_eq] at hlast
    omega

theorem agentWrite_effect {s t : State} {rest : List Event} {a : Word} {bytes : List Byte}
    (h : State.agentWrite { s with events := rest } a bytes = .next t) : StepEffect s t := by
  simp only [State.agentWrite] at h
  split_ifs at h with hreach hrace
  injection h with h
  subst h
  exact .agentWrite rest a.toNat bytes (end_of_agentReaches a.isLt (by simpa using hreach))

theorem agentRead_effect {s t : State} {rest : List Event} {a : Word} {count : Nat}
    (h : State.agentRead { s with events := rest } a count = .next t) : StepEffect s t := by
  simp only [State.agentRead] at h
  split_ifs at h
  injection h with h
  subst h
  exact .quiet rest s.rst s.pRdata s.freeCount _ id

/-- Every step that answers a next state has one of these effects, event by event (R143). -/
theorem step_effect {s t : State} (h : step s = .next t) : StepEffect s t := by
  unfold step State.nextActivity at h
  cases hevents : s.events with
  | nil =>
    rw [hevents] at h
    exact engineTurn_effect (events := s.events) h
  | cons e rest =>
    rw [hevents] at h
    cases e with
    | port record => exact portTurn_effect hevents h
    | await =>
      injection h with h
      subst h
      exact .quiet _ s.rst s.pRdata s.freeCount s.agentRdata id
    | engine => exact engineTurn_effect h
    | rstRise n =>
      injection h with h
      subst h
      exact .reset n rest hevents
    | rstFall =>
      injection h with h
      subst h
      exact .quiet rest false s.pRdata s.freeCount s.agentRdata (by simp)
    | agentWrite a bytes => exact agentWrite_effect h
    | agentRead a count => exact agentRead_effect h

end Sys2Proof.Machine

/-! The invariant (R21, R22, R40, R65, R134, R152): each operation keeps it. -/

namespace Sys2Proof.Machine

/-- The acceptance checks look at `GVALID`, `LEN` and the base registers alone (R134). -/
theorem acceptance_congr {s t : State} (hgvalid : t.gvalid = s.gvalid) (hlen : t.len = s.len) (hsrc1 : t.src1 = s.src1)
    (hsrc2 : t.src2 = s.src2) (hdst : t.dst = s.dst) (c : Word) : t.acceptance c = s.acceptance c := by
  have hgain : t.lacksGain = s.lacksGain := by
    funext i
    cases i <;> simp [State.lacksGain, State.gainValid, hgvalid]
  have hused : t.usedBlocks = s.usedBlocks := by
    funext i
    cases i <;> simp [State.usedBlocks, State.readBlocks, State.writeBlocks, hlen, hsrc1, hsrc2, hdst]
  simp only [State.acceptance, hgain, hused, hlen]

/-- The invariant does not look at the events to come or at what has been read, and `rst` may fall. -/
theorem State.Inv.quiet {s : State} (h : s.Inv) (events : List Event) {rst : Bool} (pRdata : Word) (freeCount : Nat)
    (agentRdata : List Byte) (hrst : rst = true → s.rst = true) :
    State.Inv { s with events, rst, pRdata, freeCount, agentRdata } where
  memory := h.memory
  errcode := h.errcode
  cmd := h.cmd
  running := h.running
  inReset hr := h.inReset (hrst hr)

theorem State.Inv.withEvents {s : State} (h : s.Inv) (events : List Event) : State.Inv { s with events } :=
  h.quiet events s.pRdata s.freeCount s.agentRdata id

theorem State.Inv.withMem {s : State} (h : s.Inv) {mem : Memory} (hmem : Memory.wf mem = true) : State.Inv { s with mem } where
  memory := hmem
  errcode := h.errcode
  cmd := h.cmd
  running := h.running
  inReset := h.inReset

theorem State.Inv.acknowledge {s : State} (h : s.Inv) (v : Word) : (s.acknowledge v).Inv where
  memory := h.memory
  errcode := by
    simp only [State.acknowledge_err, State.acknowledge_errcode]
    cases v.getLsbD 2 with
    | false => simpa using h.errcode
    | true => simp
  cmd := h.cmd
  running := h.running
  inReset := h.inReset

theorem State.Inv.refuse {s : State} (h : s.Inv) {code : ErrCode} (hcode : code ≠ .noError) : (s.refuse code).Inv where
  memory := h.memory
  errcode := by
    have := h.errcode
    cases herr : s.err <;> simp_all
  cmd := h.cmd
  running := h.running
  inReset := h.inReset

theorem State.Inv.accept {s : State} (h : s.Inv) {c : Word} {i : Instr} (hrst : s.rst = false) (hok : s.acceptance c = .ok i) :
    (s.accept c i).Inv where
  memory := h.memory
  errcode := h.errcode
  cmd := .inr ⟨i, (acceptance_ok hok).1⟩
  running _ := ⟨⟨i, (acceptance_congr rfl rfl rfl rfl rfl c).trans hok⟩, Nat.zero_le _⟩
  inReset hr := absurd hr (by simp [hrst])

/-- A write out of reset keeps the invariant: what the acceptance checks saw can only be written while no command runs (R137). -/
theorem WriteEffect.keeps_inv {s t : State} {r : PortReg} {v : Word} (heffect : WriteEffect s r v t) (h : s.Inv)
    (hrst : s.rst = false) : t.Inv := by
  cases heffect with
  | acknowledged => exact h.acknowledge v
  | enabled ie => exact ⟨h.memory, h.errcode, h.cmd, h.running, h.inReset⟩
  | ignored => exact h
  | refused code hcode => exact h.refuse hcode
  | accepted i hidle hok => exact h.accept hrst hok
  | created k hreg hidle =>
    exact ⟨h.memory, h.errcode, h.cmd, fun hbusy => absurd hbusy (by simp [hidle]), fun _ => hidle⟩
  | configured src1 src2 dst len target kscale gvalid hidle =>
    exact ⟨h.memory, h.errcode, h.cmd, fun hbusy => absurd hbusy (by simp [hidle]), fun _ => hidle⟩

theorem idx_succ_toNat {s : State} (h : s.idx.toNat < s.len.toNat) : (s.idx + 1#32).toNat = s.idx.toNat + 1 := by
  have := s.len.isLt
  rw [BitVec.toNat_add, BitVec.toNat_one (by decide)]
  omega

/-- An engine step keeps the invariant: `IDX` rises to at most `LEN`, and the completion ends the command (R40, R136). -/
theorem EngineEffect.keeps_inv {s t : State} {i : Instr} (heffect : EngineEffect i s t) (h : s.Inv) : t.Inv := by
  cases heffect with
  | idle => exact h
  | element e mem hbusy hidx he hwf hother =>
    refine ⟨hwf h.memory, h.errcode, h.cmd, fun _ => ⟨(h.running hbusy).1, ?_⟩, h.inReset⟩
    rw [idx_succ_toNat hidx]
    exact hidx
  | completion =>
    rw [finish_eq]
    exact ⟨h.memory, h.errcode, h.cmd, nofun, fun _ => rfl⟩

theorem State.Inv.takeReset {s : State} (h : s.Inv) (inflight : Nat) : (s.takeReset inflight).Inv where
  memory := memAfter_wf _ h.memory
  errcode := by simp
  cmd := .inl rfl
  running := nofun
  inReset _ := rfl

end Sys2Proof.Machine

/-! The statements about the state (`10_state.md` R20 to R43). -/

namespace Sys2Proof.Machine

/-- Settles O55, effect by effect: each operation keeps the invariant. -/
theorem stepKeepsInv : Obligations.StepKeepsInv := by
  intro s t h hstep
  cases step_effect hstep with
  | quiet events rst pRdata freeCount agentRdata hrst => exact h.quiet events pRdata freeCount agentRdata hrst
  | engine events i hbusy hdecode heffect => exact heffect.keeps_inv (h.withEvents events)
  | hostWrite record rest r v hevents hrst hdecode heffect => exact heffect.keeps_inv (h.withEvents rest) hrst
  | agentWrite events a bytes hin => exact (h.withEvents events).withMem (Memory.wf_writeBytes h.memory hin)
  | reset inflight rest => exact (h.withEvents rest).takeReset inflight

/-- Settles O54. -/
theorem invHoldsAtReset : Obligations.InvHoldsAtReset where
  memory := rfl
  errcode := by decide
  cmd := .inl rfl
  running := nofun
  inReset := nofun

/-- Settles O58: by `exec_engineView` each outcome has the view of the outcome from the common view. -/
theorem engineDependsOnlyOnView : Obligations.EngineDependsOnlyOnView := by
  intro s s' i hi hview
  refine same_fault_or_view (fun r => ?_) ?_
  · rw [exec_command hi]
    exact engineStep_ne_refused _ _ _ r
  · rw [← exec_engineView hi s, hview, exec_engineView hi s']

/-- Settles O27, from the frame of each part of the state. -/
theorem engineStepFrame : Obligations.EngineStepFrame := by
  intro s t i hi hexec
  have heffect := exec_command_effect hi hexec
  refine ⟨?_, fun hidx => ?_, fun k => heffect.gain, heffect.scale, fun hend a => ?_, fun hone a ha => ?_, fun htwo a ha => ?_⟩
  · rw [heffect.frame]
    exact ⟨rfl, rfl, rfl, rfl, rfl, rfl, rfl, rfl, rfl, rfl, rfl, rfl, rfl, rfl, rfl, rfl, rfl⟩
  · exact heffect.busy_done.resolve_right fun hend => Nat.not_lt.2 hend.1 hidx
  · exact heffect.readByte fun hidx => by omega
  · refine heffect.readByte fun _ e he => ?_
    obtain ⟨v, hwrites⟩ := element_writes_one hone he
    simpa [hwrites] using ha
  · refine heffect.readByte fun _ e he => ?_
    obtain ⟨v, w, hwrites⟩ := element_writes_two htwo he
    simp only [elementAddress] at ha
    simp only [hwrites, List.mem_cons, List.not_mem_nil, or_false, forall_eq_or_imp, forall_eq, elementAddress]
    omega

/-- Settles O59, effect by effect. -/
theorem gainFileChangesOnlyBy : Obligations.GainFileChangesOnlyBy := by
  intro s t hstep
  cases step_effect hstep with
  | quiet => exact .inl rfl
  | engine events i hbusy hdecode heffect =>
    obtain hsame | ⟨g, rfl, hidx, hended, hgains⟩ := heffect.gains
    · exact .inl hsame
    · exact .inr (.inl ⟨g, hbusy, hdecode, hidx, hended, hgains⟩)
  | hostWrite record rest r v hevents hrst hdecode heffect =>
    obtain hsame | ⟨k, rfl, hidle, hgains⟩ := heffect.gains
    · exact .inl hsame
    · exact .inr (.inr (.inl ⟨record, rest, k, v, hevents, hdecode, hidle, hgains⟩))
  | agentWrite => exact .inl rfl
  | reset inflight rest hevents => exact .inr (.inr (.inr ⟨inflight, rest, hevents⟩))

/-- Settles O60, effect by effect: a bit that no part of the step touches cannot have changed. -/
theorem busyAndDoneChangeOnlyBy : Obligations.BusyAndDoneChangeOnlyBy := by
  intro s t hstep
  have hsame {b b' : Bool} (h : b' = b) (hset : b = true) (hclear : b' = false) : False := by simp_all
  cases step_effect hstep with
  | quiet | agentWrite =>
    exact ⟨fun hbusy hidle => (hsame rfl hbusy hidle).elim, fun hdone hclear => (hsame rfl hdone hclear).elim⟩
  | engine events i _ _ heffect =>
    obtain ⟨hbusy', hdone'⟩ | ⟨hidx, hdone'⟩ := heffect.busy_done
    · exact ⟨fun hbusy hidle => (hsame hbusy' hbusy hidle).elim, fun hdone hclear => (hsame hdone' hdone hclear).elim⟩
    · exact ⟨fun _ _ => .inl ⟨hidx, hdone'⟩, fun _ hclear => (hsame rfl hdone' hclear).elim⟩
  | hostWrite record rest r v hevents hrst hdecode heffect =>
    refine ⟨fun hbusy hidle => (hsame rfl (heffect.busy hbusy) hidle).elim, fun hdone hclear => .inl ?_⟩
    obtain hdone' | ⟨rfl, hack⟩ := heffect.done
    · exact (hsame hdone' hdone hclear).elim
    · exact ⟨record, rest, v, hevents, hdecode, by simpa [hack, hdone] using hclear⟩
  | reset inflight rest hevents =>
    exact ⟨fun _ _ => .inr ⟨inflight, rest, hevents⟩, fun _ _ => .inr ⟨inflight, rest, hevents⟩⟩

/-- Settles O8: while no command runs the lock lets every write through. -/
theorem writeOperandRegisterStores : Obligations.WriteOperandRegisterStores := by
  intro s v hidle
  simp only [exec_wr, State.writeReg, locked_idle _ hidle, and_self]

/-- Settles O14. -/
theorem writeIdOrReservedIgnored : Obligations.WriteIdOrReservedIgnored :=
  fun s v => ⟨exec_wr .id v s, fun a => exec_wr (.reserved a) v s⟩

/-- Settles O19, register by register. -/
theorem readReturnsRegister : Obligations.ReadReturnsRegister := by
  intro s
  refine ⟨rfl, rfl, ?_, rfl, rfl, rfl, rfl, rfl, rfl, ⟨s.gvalidWord, rfl, fun k => getLsbD_gvalidWord s k, fun j hj => ?_⟩,
    exec_rd_given rfl, fun _ => rfl, fun _ => exec_rd_valid_gain, fun _ => exec_rd_invalid_gain⟩
  · rw [← ctrlWord_eq]
    rfl
  · rw [getLsbD_gvalidWord, BitVec.getLsbD_of_ge s.gvalid j hj]

/-- Settles O20: bits 3:0 are the flags, and the rest is the code. -/
theorem statusWordLayout : Obligations.StatusWordLayout := by
  intro s
  have hcode : s.statusWord.extractLsb' 4 4 = s.errcode.bits := by
    refine BitVec.eq_of_getLsbD_eq fun i hi => ?_
    rw [BitVec.getLsbD_extractLsb', getLsbD_statusWord_code, decide_eq_true hi, Bool.true_and]
  obtain ⟨hbusy, hdone, herr, hgap⟩ := getLsbD_statusWord_flags s
  refine ⟨hbusy, hdone, herr, hgap, fun j hj => ?_, ?_⟩
  · obtain ⟨i, rfl⟩ := Nat.exists_eq_add_of_le hj
    rw [Nat.add_assoc 4 4 i, getLsbD_statusWord_code, BitVec.getLsbD_of_ge _ _ (by omega)]
  · rw [hcode]
    cases s.errcode <;> rfl

/-- Settles O21: both sticky bits are set by their events and cleared by their acknowledgement. -/
theorem interruptFollowsStickyBits : Obligations.InterruptFollowsStickyBits := by
  refine ⟨fun s hie => ⟨by simp [State.irq, hie], fun code => by simp [State.irq, hie]⟩, fun s => ?_, fun s => ?_⟩
  · exact ⟨_, exec_wr .status _ s, by simp [State.irq, State.writeReg]⟩
  · exact ⟨_, exec_wr .ctrl _ s, by simp [State.irq, State.writeReg]⟩

/-- Settles O50. -/
theorem resetRegisters : Obligations.ResetRegisters := by
  refine ⟨rfl, rfl, rfl, rfl, rfl, rfl, rfl, rfl, rfl, rfl, fun k => ?_, rfl, rfl⟩
  simp [State.gainValid, State.reset]

end Sys2Proof.Machine

/-! # Proofs for `20_memory.md`: the sample memory, its element accesses and what whole commands leave in it (R50 to R67) -/

/-! The words of the sample memory (R51 to R53) and lists of word writes in order (R60). -/

namespace Sys2Proof.Machine

/-- The byte at `a + j` of a word just written is its bits `8j+7 : 8j` (R51). -/
theorem Memory.readByte_writeWord_same (m : Memory) (a : Nat) (v : Word) {j : Nat} (hj : j < 4) :
    Memory.readByte (Memory.writeWord m a v) (a + j) = v.extractLsb' (8 * j) 8 := by
  interval_cases j <;> simp [Memory.writeWord, Memory.readByte_writeByte]

/-- Several writes of words, in the order listed (R60). -/
def Memory.writeWords (m : Memory) (ws : List (Nat × Word)) : Memory :=
  ws.foldl (fun m w => Memory.writeWord m w.1 w.2) m

@[simp] theorem Memory.writeWords_nil (m : Memory) : Memory.writeWords m [] = m := rfl

@[simp] theorem Memory.writeWords_cons (m : Memory) (w : Nat × Word) (ws : List (Nat × Word)) :
    Memory.writeWords m (w :: ws) = Memory.writeWords (Memory.writeWord m w.1 w.2) ws := rfl

/-- A block one element longer: its last word comes behind the others (R56). -/
theorem Memory.readBlock_succ (m : Memory) (a n : Nat) :
    Memory.readBlock m a (n + 1) = Memory.readBlock m a n ++ [Memory.readWord m (a + 4 * n)] := by
  induction n generalizing a with
  | zero => rfl
  | succ n ih =>
    rw [Memory.readBlock, ih (a + 4), Memory.readBlock, List.cons_append, show a + 4 + 4 * n = a + 4 * (n + 1) by omega]

/-- The write of the word right after a block leaves the block alone. -/
theorem Memory.readBlock_writeWord_after (m : Memory) (a n : Nat) (v : Word) {b : Nat} (h : a + 4 * n ≤ b) :
    Memory.readBlock (Memory.writeWord m b v) a n = Memory.readBlock m a n := by
  induction n with
  | zero => rfl
  | succ n ih =>
    rw [Memory.readBlock_succ, Memory.readBlock_succ, ih (by omega), Memory.readWord_writeWord_other m v (by omega)]

/-- The write of the word right after a block makes the block one element longer. -/
theorem Memory.readBlock_writeWord_next (m : Memory) (a n : Nat) (v : Word) :
    Memory.readBlock (Memory.writeWord m (a + 4 * n) v) a (n + 1) = Memory.readBlock m a n ++ [v] := by
  rw [Memory.readBlock_succ, Memory.readBlock_writeWord_after m a n v (Nat.le_refl _), Memory.readWord_writeWord_same]

end Sys2Proof.Machine

/-! What a register write changes while a command runs (R137, R138). -/

namespace Sys2Proof.Machine

/-- While a command runs a register write changes the sticky bits, the code and the interrupt enable alone (R137). -/
theorem WriteEffect.frame_of_busy {s t : State} {r : PortReg} {v : Word} (heffect : WriteEffect s r v t) (hbusy : s.busy = true) :
    t = { s with done := t.done, err := t.err, errcode := t.errcode, ie := t.ie } := by
  cases heffect with
  | acknowledged | enabled | ignored | refused => rfl
  | accepted _ hidle | created _ _ hidle | configured _ _ _ _ _ _ _ hidle => exact nomatch hbusy.symm.trans hidle

end Sys2Proof.Machine

/-! What an engine's access can do, and what an element step does when some of its accesses cannot be performed (R58 to R60, U1). -/

namespace Sys2Proof.Machine

/-! ### The first access that faults -/

/-- The fault of the engine's access at an address, if it faults (R50, R59). -/
def State.accessFault (s : State) (a : Nat) : Option Fault :=
  if !formable a then some (.unformableAddress a)
  else if !s.reaches a then some (.outsideMemory a)
  else none

/-- The fault of several accesses in order: that of the first that faults (R60). -/
def State.firstFault (s : State) (as : List Nat) : Option Fault := as.findSome? s.accessFault

theorem accessFault_eq_none_iff {s : State} {a : Nat} : s.accessFault a = none ↔ formable a = true ∧ s.reaches a = true := by
  unfold State.accessFault
  split_ifs <;> simp_all

theorem accessFault_of_formable {s : State} {a : Nat} (hf : formable a = true) (f : Fault) :
    s.accessFault a = some f ↔ s.reaches a = false ∧ f = .outsideMemory a := by
  unfold State.accessFault
  cases hr : s.reaches a <;> simp [hf, eq_comm]

theorem firstFault_append (s : State) (as bs : List Nat) :
    s.firstFault (as ++ bs) = (s.firstFault as).or (s.firstFault bs) := List.findSome?_append

theorem firstFault_cons (s : State) (a : Nat) (as : List Nat) :
    s.firstFault (a :: as) = (s.firstFault [a]).or (s.firstFault as) := firstFault_append s [a] as

theorem firstFault_eq_none {s : State} {as : List Nat} (h : ∀ a ∈ as, formable a = true ∧ s.reaches a = true) :
    s.firstFault as = none :=
  List.findSome?_eq_none_iff.2 fun a ha => accessFault_eq_none_iff.2 (h a ha)

/-- Of accesses the memory port can be given, the first outside `MEM_VALID` faults, and no other does (U1). -/
theorem firstFault_of_formable {s : State} {as : List Nat} (hf : ∀ a ∈ as, formable a = true) (f : Fault) :
    s.firstFault as = some f ↔ ∃ before a after, as = before ++ a :: after ∧ (∀ b ∈ before, s.reaches b = true) ∧
      s.reaches a = false ∧ f = .outsideMemory a := by
  rw [State.firstFault, List.findSome?_eq_some_iff]
  constructor
  · rintro ⟨before, a, after, rfl, ha, hbefore⟩
    obtain ⟨hr, heq⟩ := (accessFault_of_formable (hf a (by simp)) f).1 ha
    exact ⟨before, a, after, rfl, fun b hb => (accessFault_eq_none_iff.1 (hbefore b hb)).2, hr, heq⟩
  · rintro ⟨before, a, after, rfl, hbefore, hr, heq⟩
    refine ⟨before, a, after, rfl, (accessFault_of_formable (hf a (by simp)) f).2 ⟨hr, heq⟩, fun b hb => ?_⟩
    exact accessFault_eq_none_iff.2 ⟨hf b (by simp [hb]), hbefore b hb⟩

/-- The result of accesses that all succeed, or the fault of the first that does not. -/
def State.checked {α : Type} (s : State) (as : List Nat) (x : α) : Except Fault α :=
  match s.firstFault as with
  | none => .ok x
  | some f => .error f

theorem checked_of_none {α : Type} {s : State} {as : List Nat} (h : s.firstFault as = none) (x : α) :
    s.checked as x = .ok x := by
  simp [State.checked, h]

theorem checked_of_some {α : Type} {s : State} {as : List Nat} {f : Fault} (h : s.firstFault as = some f) (x : α) :
    s.checked as x = .error f := by
  simp [State.checked, h]

theorem checked_ok {α : Type} {s : State} {as : List Nat} {x y : α} (h : s.checked as x = .ok y) : y = x := by
  cases hfirst : s.firstFault as with
  | none =>
    rw [checked_of_none hfirst] at h
    injection h with h
    exact h.symm
  | some f =>
    rw [checked_of_some hfirst] at h
    cases h

/-! ### Reads and writes -/

theorem memRead_eq (s : State) (a : Nat) : s.memRead a = s.checked [a] (Memory.readWord s.mem a) := by
  simp only [State.memRead, State.checked, State.firstFault, List.findSome?_cons, List.findSome?_nil, State.accessFault]
  split_ifs <;> rfl

theorem memWrite_eq (s : State) (a : Nat) (v : Word) : s.memWrite a v = s.checked [a] (s.stored a v) := by
  simp only [State.memWrite, State.checked, State.firstFault, List.findSome?_cons, List.findSome?_nil, State.accessFault]
  split_ifs <;> rfl

/-- Writes in order are all performed, or end at the first that faults. -/
theorem memWrites_eq (s : State) (ws : List (Nat × Word)) :
    s.memWrites ws = s.checked (ws.map Prod.fst) { s with mem := Memory.writeWords s.mem ws } := by
  induction ws generalizing s with
  | nil => rfl
  | cons w ws ih =>
    have hfirst := firstFault_cons s w.1 (ws.map Prod.fst)
    simp only [State.memWrites, memWrite_eq, ih, State.checked, List.map_cons, hfirst]
    cases s.firstFault [w.1] <;> rfl

/-! ### The element -/

/-- The loop body of an instruction for the index `IDX`, where every read succeeds (R91, R102, R115, R116). -/
def State.loopBody (s : State) (i : Instr) : Element :=
  let x := Memory.readWord s.mem (elementAddress s.src1 s.idx.toNat)
  let y := Memory.readWord s.mem (elementAddress s.src2 s.idx.toNat)
  let out := elementAddress s.dst s.idx.toNat
  let out1 := elementAddress s.dst (2 * s.idx.toNat)
  let out2 := elementAddress s.dst (2 * s.idx.toNat + 1)
  match i with
  | .quant => ⟨[(out, q23 x)], s.sw, s.prev⟩
  | .ramp _ => ⟨[(out, fmul32 x s.sw)], rampScale s.idx.toNat s.prev (fmul32 x s.sw) s.sw s.target, fmul32 x s.sw⟩
  | .zip => ⟨[(out1, fmul32 x s.kscale), (out2, fmul32 y s.kscale)], s.sw, s.prev⟩
  | .zipq => ⟨[(out1, q23 (fmul32 x s.kscale)), (out2, q23 (fmul32 y s.kscale))], s.sw, s.prev⟩
  | .wr _ _ => ⟨[], s.sw, s.prev⟩
  | .rd _ => ⟨[], s.sw, s.prev⟩

/-- The addresses the loop body reads at, in order (R56). -/
def State.elementReads (s : State) : Instr → List Nat
  | .quant => [elementAddress s.src1 s.idx.toNat]
  | .ramp _ => [elementAddress s.src1 s.idx.toNat]
  | .zip => [elementAddress s.src1 s.idx.toNat, elementAddress s.src2 s.idx.toNat]
  | .zipq => [elementAddress s.src1 s.idx.toNat, elementAddress s.src2 s.idx.toNat]
  | .wr _ _ => []
  | .rd _ => []

/-- The accesses of an element are its reads, then its writes (R60). -/
theorem elementAccesses_eq (s : State) (i : Instr) :
    s.elementAccesses i = s.elementReads i ++ (s.loopBody i).writes.map Prod.fst := by
  cases i <;> rfl

theorem zipElementWith_eq (s : State) (out : Word → Word) :
    s.zipElementWith out = s.checked [elementAddress s.src1 s.idx.toNat, elementAddress s.src2 s.idx.toNat]
      ⟨[(elementAddress s.dst (2 * s.idx.toNat), out (fmul32 (Memory.readWord s.mem (elementAddress s.src1 s.idx.toNat)) s.kscale)),
        (elementAddress s.dst (2 * s.idx.toNat + 1), out (fmul32 (Memory.readWord s.mem (elementAddress s.src2 s.idx.toNat)) s.kscale))],
        s.sw, s.prev⟩ := by
  have hfirst := firstFault_cons s (elementAddress s.src1 s.idx.toNat) [elementAddress s.src2 s.idx.toNat]
  simp only [State.zipElementWith, memRead_eq, State.checked, hfirst]
  cases s.firstFault [elementAddress s.src1 s.idx.toNat] with
  | some f => rfl
  | none => cases s.firstFault [elementAddress s.src2 s.idx.toNat] <;> rfl

/-- The loop body is computed when every read succeeds, and faults at the first that does not. -/
theorem element_eq (s : State) (i : Instr) : s.element i = s.checked (s.elementReads i) (s.loopBody i) := by
  cases i with
  | quant | ramp =>
    simp only [State.element, State.quantElement, State.rampElement, State.elementReads, memRead_eq, State.checked]
    cases s.firstFault [elementAddress s.src1 s.idx.toNat] <;> rfl
  | zip => exact zipElementWith_eq s fun y => y
  | zipq => exact zipElementWith_eq s q23
  | wr | rd => rfl

/-- The state after an element step whose accesses all succeed (R136). -/
def State.elementStep (i : Instr) (s : State) : State :=
  { s with
    mem := Memory.writeWords s.mem (s.loopBody i).writes
    sw := (s.loopBody i).sw
    prev := (s.loopBody i).prev
    idx := s.idx + 1#32 }

theorem exec_element_next {i : Instr} {s : State} (hi : IsCommand i) (hbusy : s.busy = true) (hidx : s.idx.toNat < s.len.toNat)
    (h : s.firstFault (s.elementAccesses i) = none) : exec i s = .next (s.elementStep i) := by
  rw [elementAccesses_eq, firstFault_append, Option.or_eq_none_iff] at h
  obtain ⟨hreads, hwrites⟩ := h
  rw [exec_command hi]
  exact engineStep_element _ hbusy hidx ((element_eq s i).trans (checked_of_none hreads _))
    ((memWrites_eq s _).trans (checked_of_none hwrites _))

theorem exec_element_fault {i : Instr} {s : State} {f : Fault} (hi : IsCommand i) (hbusy : s.busy = true)
    (hidx : s.idx.toNat < s.len.toNat) (h : s.firstFault (s.elementAccesses i) = some f) : exec i s = .fault f := by
  rw [elementAccesses_eq, firstFault_append] at h
  rw [exec_command hi]
  cases hreads : s.firstFault (s.elementReads i) with
  | some g =>
    rw [hreads, Option.some_or] at h
    simp [State.engineStep, hbusy, hidx, element_eq, checked_of_some (hreads.trans h)]
  | none =>
    rw [hreads, Option.none_or] at h
    simp [State.engineStep, hbusy, hidx, element_eq, checked_of_none hreads, memWrites_eq, checked_of_some h]

/-- An element step faults as the first of its accesses that faults, and only so (R60). -/
theorem exec_element_fault_iff {i : Instr} {s : State} (hi : IsCommand i) (hbusy : s.busy = true)
    (hidx : s.idx.toNat < s.len.toNat) (f : Fault) :
    exec i s = .fault f ↔ s.firstFault (s.elementAccesses i) = some f := by
  cases h : s.firstFault (s.elementAccesses i) with
  | none => simp [exec_element_next hi hbusy hidx h]
  | some g => simp [exec_element_fault hi hbusy hidx h]

theorem engineStep_fault {s : State} {body : State → Except Fault Element} {finish : State → State} {f : Fault}
    (h : s.engineStep body finish = .fault f) : s.busy = true ∧ s.idx.toNat < s.len.toNat := by
  unfold State.engineStep at h
  split_ifs at h with hbusy hidx
  exact ⟨by simpa using hbusy, hidx⟩

/-! ### Where the accesses lie -/

/-- Every access of an element is at a word of a block the command uses (R56, R58). -/
theorem elementAccesses_mem_block {s : State} {i : Instr} {a : Nat} (hidx : s.idx.toNat < s.len.toNat)
    (ha : a ∈ s.elementAccesses i) : ∃ b ∈ s.usedBlocks i, ∃ j, j < b.2 ∧ a = elementAddress b.1 j := by
  cases i with
  | quant | ramp =>
    simp only [State.elementAccesses, List.mem_cons, List.not_mem_nil, or_false] at ha
    rcases ha with rfl | rfl
    · exact ⟨(s.src1, s.len.toNat), by simp [State.usedBlocks, State.readBlocks], _, hidx, rfl⟩
    · exact ⟨(s.dst, s.len.toNat), by simp [State.usedBlocks, State.writeBlocks], _, hidx, rfl⟩
  | zip | zipq =>
    simp only [State.elementAccesses, List.mem_cons, List.not_mem_nil, or_false] at ha
    rcases ha with rfl | rfl | rfl | rfl
    · exact ⟨(s.src1, s.len.toNat), by simp [State.usedBlocks, State.readBlocks], _, hidx, rfl⟩
    · exact ⟨(s.src2, s.len.toNat), by simp [State.usedBlocks, State.readBlocks], _, hidx, rfl⟩
    · exact ⟨(s.dst, 2 * s.len.toNat), by simp [State.usedBlocks, State.writeBlocks], _, by simp only; omega, rfl⟩
    · exact ⟨(s.dst, 2 * s.len.toNat), by simp [State.usedBlocks, State.writeBlocks], _, by simp only; omega, rfl⟩
  | wr | rd => cases ha

theorem misaligned_eq_false_iff (b : Block) : misaligned b = false ↔ b.1.toNat % 4 = 0 := by
  have hbits : (b.1.extractLsb' 0 2).toNat = b.1.toNat % 4 := by simp [BitVec.extractLsb'_toNat]
  rw [misaligned, bne_eq_false_iff_eq, ← BitVec.toNat_inj, hbits, BitVec.toNat_ofNat]

/-- Every word of an aligned block in range can be accessed (R54, R56). -/
theorem formable_elementAddress {base : Word} {n j : Nat} (halign : base.toNat % 4 = 0) (hrange : base.toNat + 4 * n ≤ 2 ^ 32)
    (hj : j < n) : formable (elementAddress base j) = true := by
  rw [formable_iff, elementAddress]
  omega

/-- The blocks the command uses are aligned and in range (R134). -/
def State.blocksLegal (s : State) (i : Instr) : Prop :=
  ∀ b ∈ s.usedBlocks i, b.1.toNat % 4 = 0 ∧ b.1.toNat + 4 * b.2 ≤ 2 ^ 32

theorem elementAccesses_formable {s : State} {i : Instr} (hlegal : s.blocksLegal i) (hidx : s.idx.toNat < s.len.toNat) :
    ∀ a ∈ s.elementAccesses i, formable a = true := by
  intro a ha
  obtain ⟨b, hb, j, hj, rfl⟩ := elementAccesses_mem_block hidx ha
  obtain ⟨halign, hrange⟩ := hlegal b hb
  exact formable_elementAddress halign hrange hj

theorem elementAccesses_reached {s : State} {i : Instr} (hin : s.footprintIn i) (hidx : s.idx.toNat < s.len.toNat) :
    ∀ a ∈ s.elementAccesses i, s.reaches a = true := by
  intro a ha
  obtain ⟨b, hb, j, hj, rfl⟩ := elementAccesses_mem_block hidx ha
  exact hin b hb j hj

/-- What the acceptance checks on addresses establish while elements are left (R134). -/
theorem blocksLegal_of_acceptance {s : State} {c : Word} {i : Instr} (hlen : s.len ≠ 0#32) (h : s.acceptance c = .ok i) :
    s.blocksLegal i := by
  intro b hb
  obtain ⟨-, -, hchecks⟩ := acceptance_ok h
  obtain ⟨hmisaligned, hrange⟩ := hchecks hlen
  have haligned : misaligned b = false := by simpa using List.any_eq_false.1 hmisaligned b hb
  exact ⟨(misaligned_eq_false_iff b).1 haligned, by simpa [outOfRange] using List.any_eq_false.1 hrange b hb⟩

theorem len_ne_zero {s : State} (hidx : s.idx.toNat < s.len.toNat) : s.len ≠ 0#32 := by
  intro h
  simp [h] at hidx

theorem State.Inv.blocksLegal {s : State} {i : Instr} (h : s.Inv) (hbusy : s.busy = true) (hidx : s.idx.toNat < s.len.toNat)
    (hdecode : decodeCommand s.cmd = .ok i) : s.blocksLegal i := by
  obtain ⟨⟨j, hok⟩, -⟩ := h.running hbusy
  have hij : i = j := by simpa [hdecode] using (acceptance_ok hok).1
  exact hij ▸ blocksLegal_of_acceptance (len_ne_zero hidx) hok

end Sys2Proof.Machine

/-! What a reset leaves of the element in progress (R170, R172, U7). -/

namespace Sys2Proof.Machine

/-- The pending writes are those of the running command's loop body, or there are none. -/
theorem pendingWrites_eq (s : State) :
    s.pendingWrites = [] ∨ ∃ i, decodeCommand s.cmd = .ok i ∧ s.pendingWrites = (s.loopBody i).writes := by
  unfold State.pendingWrites
  split_ifs
  · cases decodeCommand s.cmd with
    | error why => exact .inl rfl
    | ok i =>
      cases he : s.element i with
      | error f => exact .inl (by simp [he])
      | ok e =>
        rw [element_eq] at he
        exact .inr ⟨i, rfl, by simp [element_eq, he, checked_ok he]⟩
  · exact .inl rfl

/-- A reset while no element is in progress does not touch the memory (R170). -/
theorem takeReset_mem_no_element {s : State} (h : s.busy = false ∨ s.len.toNat ≤ s.idx.toNat) (n : Nat) :
    (s.takeReset n).mem = s.mem := by
  have hnone : s.pendingWrites = [] := by
    unfold State.pendingWrites
    rw [if_neg]
    rcases h with h | h <;> simp [h]
  rw [State.takeReset_mem, hnone, List.take_nil]
  rfl

/-- The memory left by a reset has the first few of the writes in flight (U7). -/
theorem memAfter_take (s : State) (ws : List (Nat × Word)) (n : Nat) :
    ∃ performed, performed <+: ws ∧ s.memAfter (ws.take n) = Memory.writeWords s.mem performed :=
  ⟨_, (List.takeWhile_prefix _).trans (List.take_prefix n ws), rfl⟩

/-- A reset leaves the first few of the writes of the running command's element (R172, U7). -/
theorem takeReset_mem_prefix {s : State} {i : Instr} (hdecode : decodeCommand s.cmd = .ok i) (n : Nat) :
    ∃ performed, performed <+: (s.loopBody i).writes ∧ (s.takeReset n).mem = Memory.writeWords s.mem performed := by
  obtain hnone | ⟨j, hj, hwrites⟩ := pendingWrites_eq s
  · exact ⟨[], List.nil_prefix, by simp [hnone, State.memAfter]⟩
  · obtain rfl : i = j := by simpa [hdecode] using hj
    rw [State.takeReset_mem, ← hwrites]
    exact memAfter_take s s.pendingWrites n

/-- Of one write in flight the word is old or new, and every other byte is old. -/
theorem writeWords_prefix_one {m : Memory} {a : Nat} {v : Word} {performed : List (Nat × Word)} (h : performed <+: [(a, v)]) :
    (∀ x, x < a ∨ a + 4 ≤ x → Memory.readByte (Memory.writeWords m performed) x = Memory.readByte m x) ∧
    (Memory.readWord (Memory.writeWords m performed) a = Memory.readWord m a ∨
      Memory.readWord (Memory.writeWords m performed) a = v) := by
  obtain rfl | ⟨ws, rfl, hws⟩ := List.prefix_cons_iff.1 h
  · exact ⟨fun _ _ => rfl, .inl rfl⟩
  · obtain rfl := List.prefix_nil.1 hws
    exact ⟨fun _ => Memory.readByte_writeWord_other m v, .inr (Memory.readWord_writeWord_same m a v)⟩

/-- Of two writes in flight to words that follow each other, the second word is new only where the first is. -/
theorem writeWords_prefix_two {m : Memory} {a b : Nat} {v w : Word} {performed : List (Nat × Word)} (hab : b = a + 4)
    (h : performed <+: [(a, v), (b, w)]) :
    let m' := Memory.writeWords m performed
    (∀ x, x < a ∨ b + 4 ≤ x → Memory.readByte m' x = Memory.readByte m x) ∧
    ((Memory.readWord m' a = Memory.readWord m a ∧ Memory.readWord m' b = Memory.readWord m b) ∨
      (Memory.readWord m' a = v ∧ Memory.readWord m' b = Memory.readWord m b) ∨
      (Memory.readWord m' a = v ∧ Memory.readWord m' b = w)) := by
  obtain rfl | ⟨ws, rfl, hws⟩ := List.prefix_cons_iff.1 h
  · exact ⟨fun _ _ => rfl, .inl ⟨rfl, rfl⟩⟩
  · have hsecond := Memory.readWord_writeWord_other m (a := a) (b := b) v (by omega)
    obtain rfl | ⟨ws', rfl, hws'⟩ := List.prefix_cons_iff.1 hws
    · exact ⟨fun x hx => Memory.readByte_writeWord_other m v (by omega),
        .inr (.inl ⟨Memory.readWord_writeWord_same m a v, hsecond⟩)⟩
    · obtain rfl := List.prefix_nil.1 hws'
      have hfirst := Memory.readWord_writeWord_other (Memory.writeWord m a v) (a := b) (b := a) w (by omega)
      refine ⟨fun x hx => ?_, .inr (.inr ⟨hfirst.trans (Memory.readWord_writeWord_same m a v),
        Memory.readWord_writeWord_same _ b w⟩)⟩
      exact (Memory.readByte_writeWord_other _ w (by omega)).trans (Memory.readByte_writeWord_other m v (by omega))

theorem elementAddress_succ (base : Word) (n : Nat) : elementAddress base (n + 1) = elementAddress base n + 4 := by
  rw [elementAddress, elementAddress]
  omega

/-- A step that takes a reset. -/
theorem step_rstRise {s : State} {n : Nat} {rest : List Event} (he : s.events = .rstRise n :: rest) :
    step s = .next (State.takeReset { s with events := rest } n) := by
  simp [step, State.nextActivity, he, State.eventTurn, runActivity]

end Sys2Proof.Machine

/-! Where a step stops: the engine's faults (U1) and the races of other agents (R67, U2). -/

namespace Sys2Proof.Machine

/-! ### Faults -/

/-- The running command faults with `f` in a turn of the engine. -/
def FaultsInTurn (s : State) (f : Fault) : Prop :=
  s.busy = true ∧ ∃ events i, decodeCommand s.cmd = .ok i ∧ exec i { s with events } = .fault f

theorem engineTurn_fault {s : State} {events : List Event} {f : Fault}
    (h : runActivity (State.engineTurn { s with events }) = .fault f) : FaultsInTurn s f := by
  unfold State.engineTurn at h
  split_ifs at h with hbusy
  · simp only [runActivity, decode] at h
    split at h
    · next i hdecode => exact ⟨hbusy, events, i, hdecode, h⟩
    · cases h
  · cases h

/-- No host transaction faults (R131, R132). -/
theorem portTurn_ne_fault (s : State) (record : BitVec 40) (f : Fault) :
    runActivity (s.eventTurn (.port record)) ≠ .fault f := by
  intro h
  simp only [State.eventTurn] at h
  split_ifs at h with hrst
  · simp only [runActivity, State.portInReset] at h
    split at h <;> cases h
  · simp only [runActivity, decode] at h
    split at h
    · next i hdecode => obtain ⟨r, v, rfl⟩ | ⟨r, rfl⟩ := decodeRecord_wr_or_rd hdecode <;> cases h
    · cases h

/-- A step faults only as an engine step of the running command (U1). -/
theorem step_fault {s : State} {f : Fault} (h : step s = .fault f) : FaultsInTurn s f := by
  unfold step State.nextActivity at h
  cases hevents : s.events with
  | nil =>
    rw [hevents] at h
    exact engineTurn_fault (events := s.events) h
  | cons e rest =>
    rw [hevents] at h
    cases e with
    | port record => exact absurd h (portTurn_ne_fault _ record f)
    | engine => exact engineTurn_fault h
    | await | rstRise | rstFall => cases h
    | agentWrite a bytes =>
      simp only [State.eventTurn, runActivity, State.agentWrite] at h
      split_ifs at h
    | agentRead a count =>
      simp only [State.eventTurn, runActivity, State.agentRead] at h
      split_ifs at h

/-! ### Races -/

/-- A command runs. -/
def State.Runs (s : State) : Prop := s.busy = true ∧ ∃ i, decode (.command s.cmd) = .ok i

/-- The byte address lies in a block the running command reads (R58). -/
def State.InInputs (s : State) (x : Nat) : Prop :=
  (s.src1.toNat ≤ x ∧ x < s.src1.toNat + 4 * s.len.toNat) ∨
    ((decode (.command s.cmd) = .ok .zip ∨ decode (.command s.cmd) = .ok .zipq) ∧
      s.src2.toNat ≤ x ∧ x < s.src2.toNat + 4 * s.len.toNat)

/-- The byte address lies in the block the running command writes, twice as long for a zip (R58). -/
def State.InOutput (s : State) (x : Nat) : Prop :=
  s.dst.toNat ≤ x ∧ (x < s.dst.toNat + 4 * s.len.toNat ∨
    ((decode (.command s.cmd) = .ok .zip ∨ decode (.command s.cmd) = .ok .zipq) ∧ x < s.dst.toNat + 8 * s.len.toNat))

theorem inBlock_iff (x : Nat) (b : Block) : inBlock x b = true ↔ b.1.toNat ≤ x ∧ x < b.1.toNat + 4 * b.2 := by
  simp [inBlock]

theorem readBlocks_inBlock_iff {s : State} {i : Instr} (h : decodeCommand s.cmd = .ok i) (x : Nat) :
    (s.readBlocks i).any (inBlock x) = true ↔ s.InInputs x := by
  obtain rfl | ⟨g, rfl⟩ | rfl | rfl := decodeCommand_isCommand h <;>
    simp [State.readBlocks, State.InInputs, decode, h, inBlock_iff]

theorem writeBlocks_inBlock_iff {s : State} {i : Instr} (h : decodeCommand s.cmd = .ok i) (x : Nat) :
    (s.writeBlocks i).any (inBlock x) = true ↔ s.InOutput x := by
  obtain rfl | ⟨g, rfl⟩ | rfl | rfl := decodeCommand_isCommand h <;>
    simp [State.writeBlocks, State.InOutput, decode, h, inBlock_iff] <;> omega

theorem running_cases (s : State) :
    (∃ i, s.running = some i ∧ decodeCommand s.cmd = .ok i ∧ s.Runs) ∨ (s.running = none ∧ ¬ s.Runs) := by
  unfold State.running State.Runs
  cases s.busy <;> cases hdecode : decodeCommand s.cmd <;> simp [decode, hdecode]

/-- Another agent's read races exactly where it lies in the write set of a running command (R67). -/
theorem readRaces_iff (s : State) (x : Nat) : s.readRaces x = true ↔ s.Runs ∧ s.InOutput x := by
  obtain ⟨i, hrunning, hdecode, hruns⟩ | ⟨hrunning, hruns⟩ := running_cases s
  · simp only [State.readRaces, hrunning, writeBlocks_inBlock_iff hdecode, hruns, true_and]
  · simp [State.readRaces, hrunning, hruns]

/-- Another agent's write races exactly where it lies in the read or write set of a running command (R67). -/
theorem writeRaces_iff (s : State) (x : Nat) : s.writeRaces x = true ↔ s.Runs ∧ (s.InInputs x ∨ s.InOutput x) := by
  obtain ⟨i, hrunning, hdecode, hruns⟩ | ⟨hrunning, hruns⟩ := running_cases s
  · simp only [State.writeRaces, hrunning, State.usedBlocks, List.any_append, Bool.or_eq_true,
      readBlocks_inBlock_iff hdecode, writeBlocks_inBlock_iff hdecode, hruns, true_and]
  · simp [State.writeRaces, hrunning, hruns]

theorem all_range'_iff (p : Nat → Bool) (a n : Nat) :
    (List.range' a n).all p = true ↔ ∀ j, j < n → p (a + j) = true := by
  simp only [List.all_eq_true, List.mem_range', Nat.one_mul]
  exact ⟨fun h j hj => h _ ⟨j, hj, rfl⟩, fun h x ⟨j, hj, hx⟩ => hx ▸ h j hj⟩

theorem any_range'_iff (p : Nat → Bool) (a n : Nat) :
    (List.range' a n).any p = true ↔ ∃ j, j < n ∧ p (a + j) = true := by
  simp [List.any_eq_true, List.mem_range']

/-- The bytes from `a` on all lie in memory that the platform has. -/
def State.allInMemory (s : State) (a n : Nat) : Prop :=
  ∀ j, j < n → a + j < 2 ^ 32 ∧ s.reaches ((a + j) / 4 * 4) = true

theorem all_agentReaches {s : State} {a n : Nat} (h : s.allInMemory a n) : (List.range' a n).all s.agentReaches = true :=
  (all_range'_iff _ _ _).2 fun j hj => by simpa [State.agentReaches] using h j hj

theorem agentWrite_refused {s : State} {a : Word} {bs : List Byte} (hin : s.allInMemory a.toNat bs.length)
    (h : ∃ j, j < bs.length ∧ s.Runs ∧ (s.InInputs (a.toNat + j) ∨ s.InOutput (a.toNat + j))) :
    s.agentWrite a bs = .refused .racingAccess := by
  have hany : (List.range' a.toNat bs.length).any s.writeRaces = true := by
    simpa only [any_range'_iff, writeRaces_iff] using h
  simp only [State.agentWrite, all_agentReaches hin, hany]
  rfl

theorem agentWrite_performed {s : State} {a : Word} {bs : List Byte} (hin : s.allInMemory a.toNat bs.length)
    (h : ∀ j, j < bs.length → ¬ (s.Runs ∧ (s.InInputs (a.toNat + j) ∨ s.InOutput (a.toNat + j)))) :
    s.agentWrite a bs = .next { s with mem := Memory.writeBytes s.mem a.toNat bs } := by
  have hany : ¬ (List.range' a.toNat bs.length).any s.writeRaces = true := by
    simpa only [any_range'_iff, writeRaces_iff, not_exists, not_and] using h
  simp only [State.agentWrite, all_agentReaches hin, hany]
  rfl

theorem agentRead_refused {s : State} {a : Word} {n : Nat} (hin : s.allInMemory a.toNat n)
    (h : ∃ j, j < n ∧ s.Runs ∧ s.InOutput (a.toNat + j)) : s.agentRead a n = .refused .racingAccess := by
  have hany : (List.range' a.toNat n).any s.readRaces = true := by
    simpa only [any_range'_iff, readRaces_iff] using h
  simp only [State.agentRead, all_agentReaches hin, hany]
  rfl

theorem agentRead_performed {s : State} {a : Word} {n : Nat} (hin : s.allInMemory a.toNat n)
    (h : ∀ j, j < n → ¬ (s.Runs ∧ s.InOutput (a.toNat + j))) :
    s.agentRead a n = .next { s with agentRdata := Memory.readBytes s.mem a.toNat n } := by
  have hany : ¬ (List.range' a.toNat n).any s.readRaces = true := by
    simpa only [any_range'_iff, readRaces_iff, not_exists, not_and] using h
  simp only [State.agentRead, all_agentReaches hin, hany]
  rfl

theorem step_agentWrite {s : State} {a : Word} {bs : List Byte} {rest : List Event} (he : s.events = .agentWrite a bs :: rest) :
    step s = State.agentWrite { s with events := rest } a bs := by
  simp [step, State.nextActivity, he, State.eventTurn, runActivity]

theorem step_agentRead {s : State} {a : Word} {n : Nat} {rest : List Event} (he : s.events = .agentRead a n :: rest) :
    step s = State.agentRead { s with events := rest } a n := by
  simp [step, State.nextActivity, he, State.eventTurn, runActivity]

end Sys2Proof.Machine

/-! A whole command, just accepted and left alone: `LEN` element steps and one completion step (R136). -/

namespace Sys2Proof.Machine

/-! ### The run -/

/-- A run one step longer: the step is taken where the run has come to. -/
theorem run_succ_of_next {M : Host.Core} {n : Nat} {s t : M.State} (h : M.run n s = .next t) : M.run (n + 1) s = M.step t := by
  induction n generalizing s with
  | zero =>
    injection h with h
    subst h
    simp only [Host.Core.run]
    cases M.step s <;> rfl
  | succ n ih =>
    rw [Host.Core.run] at h ⊢
    cases hstep : M.step s with
    | next s' =>
      rw [hstep] at h
      exact ih h
    | fault f =>
      rw [hstep] at h
      cases h
    | refused r =>
      rw [hstep] at h
      cases h

/-- The state after `n` element steps of the instruction `i` whose accesses all succeed. -/
def State.afterElements (i : Instr) (s : State) : Nat → State
  | 0 => s
  | n + 1 => (s.afterElements i n).elementStep i

theorem State.afterElements_succ (i : Instr) (s : State) (n : Nat) :
    s.afterElements i (n + 1) = (s.afterElements i n).elementStep i := rfl

/-- Element steps change the memory, `SW`, `PREV` and `IDX` alone. -/
theorem State.afterElements_frame (i : Instr) (s : State) (n : Nat) :
    s.afterElements i n = { s with
      mem := (s.afterElements i n).mem, sw := (s.afterElements i n).sw, prev := (s.afterElements i n).prev,
      idx := (s.afterElements i n).idx } := by
  induction n with
  | zero => rfl
  | succ n ih =>
    rw [afterElements_succ, ih]
    rfl

@[simp] theorem State.afterElements_len (i : Instr) (s : State) (n : Nat) : (s.afterElements i n).len = s.len := by
  rw [afterElements_frame]

@[simp] theorem State.afterElements_src1 (i : Instr) (s : State) (n : Nat) : (s.afterElements i n).src1 = s.src1 := by
  rw [afterElements_frame]

@[simp] theorem State.afterElements_dst (i : Instr) (s : State) (n : Nat) : (s.afterElements i n).dst = s.dst := by
  rw [afterElements_frame]

@[simp] theorem State.afterElements_gains (i : Instr) (s : State) (n : Nat) : (s.afterElements i n).gains = s.gains := by
  rw [afterElements_frame]

/-- `IDX` counts the elements (R40). -/
theorem State.afterElements_idx {s : State} (i : Instr) (h0 : s.idx = 0#32) {n : Nat} (hn : n ≤ s.len.toNat) :
    (s.afterElements i n).idx.toNat = n := by
  induction n with
  | zero => simp [State.afterElements, h0]
  | succ n ih =>
    have hidx := ih (by omega)
    rw [afterElements_succ, elementStep, idx_succ_toNat (by rw [hidx, afterElements_len]; exact hn), hidx]

/-- While elements are left the next step is an element step, and its accesses all succeed. -/
theorem State.Ready.step_element {s : State} {i : Instr} (h : s.Ready i) (mem : Memory) (sw prev idx : Word)
    (hidx : idx.toNat < s.len.toNat) :
    step { s with mem, sw, prev, idx } = .next (State.elementStep i { s with mem, sw, prev, idx }) := by
  have hlen : s.len ≠ 0#32 := len_ne_zero (s := { s with idx }) hidx
  have hformable := elementAccesses_formable (s := { s with mem, sw, prev, idx }) (h.legal hlen) hidx
  have hreached := elementAccesses_reached (s := { s with mem, sw, prev, idx }) h.memory hidx
  rw [step_engine (s := { s with mem, sw, prev, idx }) h.events h.busy h.cmd]
  exact exec_element_next (decodeCommand_isCommand h.cmd) h.busy hidx
    (firstFault_eq_none fun a ha => ⟨hformable a ha, hreached a ha⟩)

/-- When no element is left the next step is the completion step. -/
theorem State.Ready.step_completion {s : State} {i : Instr} (h : s.Ready i) (mem : Memory) (sw prev idx : Word)
    (hidx : s.len.toNat ≤ idx.toNat) :
    step { s with mem, sw, prev, idx } = .next (State.finish i { s with mem, sw, prev, idx }) := by
  rw [step_engine (s := { s with mem, sw, prev, idx }) h.events h.busy h.cmd, exec_command (decodeCommand_isCommand h.cmd)]
  exact engineStep_completion _ _ h.busy hidx

theorem State.Ready.run_elements {s : State} {i : Instr} (h : s.Ready i) {n : Nat} (hn : n ≤ s.len.toNat) :
    Host.Core.run Sys2Proof.core n s = .next (s.afterElements i n) := by
  induction n with
  | zero => rfl
  | succ n ih =>
    have hidx := State.afterElements_idx i h.idx (n := n) (by omega)
    have hstep := h.step_element (s.afterElements i n).mem (s.afterElements i n).sw (s.afterElements i n).prev
      (s.afterElements i n).idx (by omega)
    rw [← State.afterElements_frame] at hstep
    exact (run_succ_of_next (ih (by omega))).trans hstep

/-- `LEN` element steps and one completion step (R136). -/
theorem State.Ready.run_command {s : State} {i : Instr} (h : s.Ready i) :
    Host.Core.run Sys2Proof.core (s.len.toNat + 1) s = .next ((s.afterElements i s.len.toNat).finish i) := by
  have hidx := State.afterElements_idx i h.idx (Nat.le_refl s.len.toNat)
  have hstep := h.step_completion (s.afterElements i s.len.toNat).mem (s.afterElements i s.len.toNat).sw
    (s.afterElements i s.len.toNat).prev (s.afterElements i s.len.toNat).idx hidx.ge
  rw [← State.afterElements_frame] at hstep
  exact (run_succ_of_next (h.run_elements (Nat.le_refl _))).trans hstep

/-- The state a whole command leaves: `BUSY`, `DONE`, `IDX`, the memory and what `RAMP` keeps are all that has changed. -/
theorem finish_afterElements_frame {s : State} (i : Instr) (h0 : s.idx = 0#32) :
    (s.afterElements i s.len.toNat).finish i = { s with
      mem := (s.afterElements i s.len.toNat).mem, sw := (s.afterElements i s.len.toNat).sw,
      prev := (s.afterElements i s.len.toNat).prev, idx := s.len, busy := false, done := true,
      gains := ((s.afterElements i s.len.toNat).finish i).gains } := by
  have hidx : (s.afterElements i s.len.toNat).idx = s.len :=
    BitVec.eq_of_toNat_eq (State.afterElements_idx i h0 (Nat.le_refl _))
  rw [finish_eq, State.afterElements_frame]
  simp only [hidx]

/-! ### Commands that store one word an element -/

/-- The word of the input block at `IDX` (R56). -/
def State.input (s : State) : Word := Memory.readWord s.mem (elementAddress s.src1 s.idx.toNat)

/-- Each element of the instruction stores one word, `out` of the state before it, at its place in the output block. -/
def StoresOne (i : Instr) (out : State → Word) : Prop :=
  ∀ s : State, (s.loopBody i).writes = [(elementAddress s.dst s.idx.toNat, out s)]

theorem quant_storesOne : StoresOne .quant fun s => q23 s.input := fun _ => rfl

theorem ramp_storesOne (g : Slot) : StoresOne (.ramp g) fun s => fmul32 s.input s.sw := fun _ => rfl

section
variable {i : Instr} {out : State → Word} {s : State} {n : Nat}

theorem StoresOne.mem_succ (h : StoresOne i out) (h0 : s.idx = 0#32) (hn : n ≤ s.len.toNat) :
    (s.afterElements i (n + 1)).mem =
      Memory.writeWord (s.afterElements i n).mem (s.dst.toNat + 4 * n) (out (s.afterElements i n)) := by
  rw [State.afterElements_succ, State.elementStep, h]
  simp [elementAddress, State.afterElements_idx i h0 hn]

/-- The bytes outside the words stored so far are as they were. -/
theorem StoresOne.readByte_other (h : StoresOne i out) (h0 : s.idx = 0#32) (hn : n ≤ s.len.toNat) {a : Nat}
    (ha : a < s.dst.toNat ∨ s.dst.toNat + 4 * n ≤ a) :
    Memory.readByte (s.afterElements i n).mem a = Memory.readByte s.mem a := by
  induction n with
  | zero => rfl
  | succ n ih =>
    rw [h.mem_succ h0 (by omega), Memory.readByte_writeWord_other _ _ (by omega)]
    exact ih (by omega) (by omega)

/-- The output block grows by one word an element. -/
theorem StoresOne.readBlock_succ (h : StoresOne i out) (h0 : s.idx = 0#32) (hn : n ≤ s.len.toNat) :
    Memory.readBlock (s.afterElements i (n + 1)).mem s.dst.toNat (n + 1) =
      Memory.readBlock (s.afterElements i n).mem s.dst.toNat n ++ [out (s.afterElements i n)] := by
  rw [h.mem_succ h0 hn, Memory.readBlock_writeWord_next]

/-- With an output block that does not overlap its input from above, each input word is read before it is overwritten (R66). -/
theorem StoresOne.input_kept (h : StoresOne i out) (h0 : s.idx = 0#32)
    (hblocks : s.dst.toNat ≤ s.src1.toNat ∨ s.src1.toNat + 4 * s.len.toNat ≤ s.dst.toNat) (hn : n < s.len.toNat) :
    (s.afterElements i n).input = Memory.readWord s.mem (s.src1.toNat + 4 * n) := by
  rw [State.input, State.afterElements_idx i h0 hn.le, State.afterElements_src1, elementAddress]
  exact Memory.readWord_congr fun y h1 h2 => h.readByte_other h0 hn.le (by omega)

end

/-! ### `QUANT` -/

/-- The words stored so far are `q23` of the input words so far (R91). -/
theorem quant_readBlock {s : State} (h0 : s.idx = 0#32)
    (hblocks : s.dst.toNat ≤ s.src1.toNat ∨ s.src1.toNat + 4 * s.len.toNat ≤ s.dst.toNat) {n : Nat} (hn : n ≤ s.len.toNat) :
    Memory.readBlock (s.afterElements .quant n).mem s.dst.toNat n = (Memory.readBlock s.mem s.src1.toNat n).map q23 := by
  induction n with
  | zero => rfl
  | succ n ih =>
    rw [quant_storesOne.readBlock_succ h0 (by omega), ih (by omega), quant_storesOne.input_kept h0 hblocks hn,
      Memory.readBlock_succ, List.map_append, List.map_singleton]

/-- `QUANT` leaves `SW` and `PREV` alone. -/
theorem quant_keeps_scale (s : State) (n : Nat) :
    (s.afterElements .quant n).sw = s.sw ∧ (s.afterElements .quant n).prev = s.prev := by
  induction n with
  | zero => exact ⟨rfl, rfl⟩
  | succ n ih => exact ih

/-! ### `RAMP` -/

/-- The previous output sample of a running `RAMP`, none at the first element (R39, R102). -/
def State.previous (s : State) : Option Word := if s.idx = 0#32 then none else some s.prev

/-- The source's ramped scaler on further samples, from where a running `RAMP` has come to. -/
def State.rampFrom (s : State) (xs : List Word) : List Word × Word := rampRun s.target s.previous s.sw xs

/-- The scale after an output `y`, as the source steps it: only at a crossing from the previous output, and not at the first
sample (R102). -/
def scaleAfter (tgt : Word) (p : Option Word) (y sw : Word) : Word :=
  match p with
  | none => sw
  | some q => if fne32 sw tgt && crossing q y then rampstep sw tgt else sw

theorem rampRun_cons (tgt : Word) (p : Option Word) (sw x : Word) (xs : List Word) :
    rampRun tgt p sw (x :: xs) =
      (fmul32 x sw :: (rampRun tgt (some (fmul32 x sw)) (scaleAfter tgt p (fmul32 x sw) sw) xs).1,
        (rampRun tgt (some (fmul32 x sw)) (scaleAfter tgt p (fmul32 x sw) sw) xs).2) := by
  cases p <;> rfl

/-- The machine's scale steps as the source's does (R102). -/
theorem rampScale_eq (s : State) (y : Word) :
    rampScale s.idx.toNat s.prev y s.sw s.target = scaleAfter s.target s.previous y s.sw := by
  by_cases h0 : s.idx = 0#32
  · simp [rampScale, scaleAfter, State.previous, h0]
  · have hpos : 1 ≤ s.idx.toNat := by
      rw [Nat.one_le_iff_ne_zero]
      exact fun h => h0 (BitVec.eq_of_toNat_eq h)
    simp [rampScale, scaleAfter, State.previous, h0, hpos]

/-- The scaler's run on one more sample is one element step and its run from there. -/
theorem rampFrom_cons {s : State} (g : Slot) (hidx : s.idx.toNat < s.len.toNat) (xs : List Word) :
    s.rampFrom (s.input :: xs) =
      (fmul32 s.input s.sw :: ((s.elementStep (.ramp g)).rampFrom xs).1, ((s.elementStep (.ramp g)).rampFrom xs).2) := by
  have hne : s.idx + 1#32 ≠ 0#32 := fun h => by simpa [h] using idx_succ_toNat hidx
  have hprevious : (s.elementStep (.ramp g)).previous = some (fmul32 s.input s.sw) := if_neg hne
  have hscale : (s.elementStep (.ramp g)).sw = _ := rampScale_eq s (fmul32 s.input s.sw)
  rw [State.rampFrom, rampRun_cons, State.rampFrom, hprevious, hscale]
  rfl

/-- The loop invariant of `RAMP`: the scaler's run on the whole block is what has been stored so far, and its run from the current
scale and previous output on the samples that are left (R102). -/
theorem rampFrom_block {s : State} (g : Slot) (h0 : s.idx = 0#32)
    (hblocks : s.dst.toNat ≤ s.src1.toNat ∨ s.src1.toNat + 4 * s.len.toNat ≤ s.dst.toNat) {n : Nat} (hn : n ≤ s.len.toNat) :
    let t := s.afterElements (.ramp g) n
    let r := t.rampFrom (Memory.readBlock s.mem (s.src1.toNat + 4 * n) (s.len.toNat - n))
    s.rampFrom (Memory.readBlock s.mem s.src1.toNat s.len.toNat) = (Memory.readBlock t.mem s.dst.toNat n ++ r.1, r.2) := by
  induction n with
  | zero => rfl
  | succ n ih =>
    have hidx : (s.afterElements (.ramp g) n).idx.toNat < (s.afterElements (.ramp g) n).len.toNat := by
      rw [State.afterElements_idx _ h0 (by omega), State.afterElements_len]
      exact hn
    have hleft : Memory.readBlock s.mem (s.src1.toNat + 4 * n) (s.len.toNat - n) = (s.afterElements (.ramp g) n).input ::
        Memory.readBlock s.mem (s.src1.toNat + 4 * (n + 1)) (s.len.toNat - (n + 1)) := by
      rw [(ramp_storesOne g).input_kept h0 hblocks hn, show s.len.toNat - n = s.len.toNat - (n + 1) + 1 by omega]
      rfl
    dsimp only at ih ⊢
    rw [ih (by omega), hleft, rampFrom_cons g hidx, ← State.afterElements_succ,
      (ramp_storesOne g).readBlock_succ h0 (by omega), List.append_assoc, List.singleton_append]

/-- A `RAMP` left alone stores the scaler's output block and ends with its final scale. -/
theorem ramp_readBlock {s : State} (g : Slot) (h0 : s.idx = 0#32)
    (hblocks : s.dst.toNat ≤ s.src1.toNat ∨ s.src1.toNat + 4 * s.len.toNat ≤ s.dst.toNat) :
    rampRun s.target none s.sw (Memory.readBlock s.mem s.src1.toNat s.len.toNat) =
      (Memory.readBlock (s.afterElements (.ramp g) s.len.toNat).mem s.dst.toNat s.len.toNat,
        (s.afterElements (.ramp g) s.len.toNat).sw) := by
  have hnone : s.previous = none := if_pos h0
  have hrun := rampFrom_block g h0 hblocks (Nat.le_refl s.len.toNat)
  rw [State.rampFrom, hnone] at hrun
  simpa [Memory.readBlock, State.rampFrom, rampRun] using hrun

end Sys2Proof.Machine

/-! The statements about the sample memory (`20_memory.md` R50 to R67). -/

namespace Sys2Proof.Machine

/-- Settles O28: an element step stops at its first access outside memory, a step stops only so, and other agents stop at races. -/
theorem undefinedAccessesStop : Obligations.UndefinedAccessesStop := by
  refine ⟨fun s i f hi hbusy hidx hf => ?_, fun s f hinv hstep => ?_, fun s a rest => ⟨fun bs he hin => ?_, fun n he hin => ?_⟩⟩
  · rw [exec_element_fault_iff hi hbusy hidx]
    exact firstFault_of_formable hf f
  · obtain ⟨hbusy, events, i, hdecode, hexec⟩ := step_fault hstep
    have hi := decodeCommand_isCommand hdecode
    obtain ⟨-, hidx⟩ := engineStep_fault ((exec_command hi _).symm.trans hexec)
    have hf := elementAccesses_formable (hinv.blocksLegal hbusy hidx hdecode) hidx
    have hfirst := (exec_element_fault_iff (s := { s with events }) hi hbusy hidx f).1 hexec
    obtain ⟨before, a, after, heq, -, hreach, hfault⟩ := (firstFault_of_formable hf f).1 hfirst
    exact ⟨hbusy, hidx, i, a, hdecode, by simp [heq], hreach, hfault⟩
  · have hstep := step_agentWrite he
    exact ⟨fun h => hstep.trans (agentWrite_refused (s := { s with events := rest }) hin h),
      fun h => hstep.trans (agentWrite_performed (s := { s with events := rest }) hin h)⟩
  · have hstep := step_agentRead he
    exact ⟨fun h => hstep.trans (agentRead_refused (s := { s with events := rest }) hin h),
      fun h => hstep.trans (agentRead_performed (s := { s with events := rest }) hin h)⟩

/-- Settles O29: each input word is read before it is overwritten, and stored as its `q23`. -/
theorem quantCommandConvertsBlock : Obligations.QuantCommandConvertsBlock := by
  intro s h hblocks
  obtain ⟨hsw, hprev⟩ := quant_keeps_scale s s.len.toNat
  refine ⟨_, h.run_command, ?_, quant_readBlock h.idx hblocks (Nat.le_refl _),
    fun a ha => quant_storesOne.readByte_other h.idx (Nat.le_refl _) ha⟩
  refine (finish_afterElements_frame .quant h.idx).trans ?_
  rw [hsw, hprev, show ((s.afterElements .quant s.len.toNat).finish .quant).gains = s.gains from State.afterElements_gains ..]
  rfl

/-- Settles O30: by the loop invariant `rampFrom_block` the run stores the scaler's outputs and ends with its scale. -/
theorem rampCommandRunsScaler : Obligations.RampCommandRunsScaler := by
  intro s g h hgain hblocks r
  have hr : r = _ := hgain ▸ ramp_readBlock g h.idx hblocks
  have hgains (k : Slot) : (s.afterElements (.ramp g) s.len.toNat).gain k = s.gain k := by
    rw [State.gain, State.afterElements_gains, State.gain]
  refine ⟨_, h.run_command, finish_afterElements_frame (.ramp g) h.idx, ?_, ?_, fun k hk => ?_,
    fun a ha => (ramp_storesOne g).readByte_other h.idx (Nat.le_refl _) ha⟩
  · rw [hr]
    rfl
  · rw [hr]
    exact State.gain_setGain_same _ g _
  · exact (State.gain_setGain_other _ _ hk).trans (hgains k)

/-- Settles O51: the memory is the one before with the first few of the writes in flight. -/
theorem resetAbandonsCommand : Obligations.ResetAbandonsCommand := by
  intro s n rest hevents
  obtain ⟨-, hstatus, hctrl, -⟩ := resetRegisters
  refine ⟨_, step_rstRise hevents, rfl, rfl, rfl, rfl, rfl, hstatus, hctrl, rfl, rfl, rfl, rfl, rfl, rfl, rfl, fun hend => ?_, ?_⟩
  · exact takeReset_mem_no_element (s := { s with events := rest }) hend n
  · have hprefix (i : Instr) (h : decodeCommand s.cmd = .ok i) :=
      takeReset_mem_prefix (s := { s with events := rest }) h n
    refine ⟨fun h => ?_, fun g h => ?_, fun h => ?_, fun h => ?_⟩
    all_goals
      obtain ⟨performed, hp, hmem⟩ := hprefix _ h
      simp only [hmem]
    · exact writeWords_prefix_one hp
    · exact writeWords_prefix_one hp
    · exact writeWords_prefix_two (elementAddress_succ _ _) hp
    · exact writeWords_prefix_two (elementAddress_succ _ _) hp

/-- Settles O56, effect by effect: while a command runs the lock refuses every write of an operand. -/
theorem runningOperandsConstant : Obligations.RunningOperandsConstant := by
  intro s t hstep hbusy hbusy'
  cases step_effect hstep with
  | quiet | agentWrite => exact ⟨rfl, rfl, rfl, rfl, rfl, rfl, rfl, rfl, rfl⟩
  | engine events i _ _ heffect =>
    have hgains : t.gains = s.gains :=
      heffect.gains.resolve_right fun ⟨_, _, _, hended, _⟩ => absurd hbusy' (by simp [hended])
    rw [heffect.frame]
    exact ⟨rfl, rfl, rfl, rfl, rfl, rfl, rfl, hgains, rfl⟩
  | hostWrite record rest r v _ _ _ heffect =>
    rw [heffect.frame_of_busy hbusy]
    exact ⟨rfl, rfl, rfl, rfl, rfl, rfl, rfl, rfl, rfl⟩
  | reset => exact absurd hbusy' (by simp)

/-- Settles O53. -/
theorem wordBytesLittleEndian : Obligations.WordBytesLittleEndian :=
  fun m a v => ⟨fun _ => Memory.readByte_writeWord_same m a v, Memory.readWord_writeWord_same m a v,
    fun _ => Memory.readByte_writeWord_other m v⟩

end Sys2Proof.Machine

/-! # Proofs for `30_encoding.md`: the words and records of the instructions, and what the host's lines run (R70 to R80) -/

/-! The fields of a command word (R70), and which command words stand for which command (R71 to R73). -/

namespace Sys2Proof.Machine

/-- A command word is its three fields, `OPC`, `GSEL` and `RSV` (R70). -/
theorem command_fields (w : Word) :
    w.toNat = (w.extractLsb' 0 4).toNat + 16 * (w.extractLsb' 4 4).toNat + 256 * (w.extractLsb' 8 24).toNat := by
  have := w.isLt
  simp only [BitVec.extractLsb'_toNat, Nat.shiftRight_eq_div_pow]
  omega

/-- Each command decodes from its word (R71). -/
theorem decodeCommand_commandWord {i : Instr} (h : IsCommand i) : decodeCommand (commandWord i) = .ok i := by
  obtain rfl | ⟨g, rfl⟩ | rfl | rfl := h
  · decide
  · revert g
    decide
  · decide
  · decide

/-- A word that decodes is the word of the command it decodes to: its fields leave no other (R70 to R72). -/
theorem eq_commandWord_of_decodeCommand {w : Word} {i : Instr} (h : decodeCommand w = .ok i) : w = commandWord i := by
  have hfields := command_fields w
  refine BitVec.eq_of_toNat_eq ?_
  simp only [decodeCommand] at h
  split_ifs at h with hrsv hopc hgsel <;> injection h with h <;> subst h
  · simp only [commandWord, encode, BitVec.toNat_add, BitVec.toNat_ofNat]
    omega
  all_goals
    simp only [commandWord, encode, BitVec.toNat_ofNat]
    omega

/-- The words of R71 are the legal command words, each with its own command. -/
theorem decodeCommand_ok_iff (w : Word) (i : Instr) : decodeCommand w = .ok i ↔ IsCommand i ∧ w = commandWord i := by
  refine ⟨fun h => ⟨decodeCommand_isCommand h, eq_commandWord_of_decodeCommand h⟩, ?_⟩
  rintro ⟨hi, rfl⟩
  exact decodeCommand_commandWord hi

theorem encode_command {i : Instr} (h : IsCommand i) : encode i = .command (commandWord i) := by
  obtain rfl | ⟨g, rfl⟩ | rfl | rfl := h <;> rfl

theorem decode_encode_command {i : Instr} (h : IsCommand i) : decode (encode i) = .ok i := by
  rw [encode_command h]
  exact decodeCommand_commandWord h

theorem command_wellFormed {i : Instr} (h : IsCommand i) : i.wellFormed = true := by
  obtain rfl | ⟨g, rfl⟩ | rfl | rfl := h <;> rfl

/-- The fields of an illegal command word (R73). -/
def IllegalFields (opc gsel rsv : Nat) : Prop :=
  opc = 0 ∨ 5 ≤ opc ∨ rsv ≠ 0 ∨ ((opc = 1 ∨ opc = 3 ∨ opc = 4) ∧ gsel ≠ 0) ∨ (opc = 2 ∧ Config.ng ≤ gsel)

theorem decodeCommand_error_iff (w : Word) : decodeCommand w = .error .illegalCommand ↔
    IllegalFields (w.extractLsb' 0 4).toNat (w.extractLsb' 4 4).toNat (w.extractLsb' 8 24).toNat := by
  simp only [decodeCommand, IllegalFields]
  split_ifs <;> simp only [true_iff, false_iff] <;> omega

/-- An illegal word fails the first acceptance check (R134). -/
theorem issue_illegal {w : Word} (h : decodeCommand w = .error .illegalCommand) (s : State) : s.issue w = s.refuse .illegal := by
  simp [State.issue, State.acceptance, h]

/-- A write of `CMD` while no command runs is an issue (R131, R133). -/
theorem exec_wr_cmd_idle (s : State) (w : Word) (hidle : s.busy = false) : exec (.wr .cmd w) s = .next (s.issue w) :=
  congrArg Host.Outcome.next (locked_idle (fun s => s.issue w) hidle)

end Sys2Proof.Machine

/-! The fields of a port record (R75), and which register each word offset selects (R76). -/

namespace Sys2Proof.Machine

/-- Bit by bit: the data, the word offset, a 0, and `we` (R75). -/
theorem getLsbD_portRecord (we : Bool) (a : BitVec 6) (d : Word) {j : Nat} (hj : j < 40) :
    (portRecord we a d).getLsbD j =
      if j < 32 then d.getLsbD j else if j < 38 then a.getLsbD (j - 32) else j == 39 && we := by
  simp only [portRecord, BitVec.getLsbD_or, BitVec.getLsbD_shiftLeft, BitVec.getLsbD_setWidth, BitVec.getLsbD_ofBool, hj,
    decide_true, Bool.true_and]
  rcases Nat.lt_or_ge j 32 with hdata | hdata
  · simp [hdata, show j < 39 by omega]
  rw [if_neg (Nat.not_lt.2 hdata), BitVec.getLsbD_of_ge d j hdata]
  rcases Nat.lt_or_ge j 38 with hoffset | hoffset
  · simp [hoffset, Nat.not_lt.2 hdata, show j < 39 by omega, show j - 32 < 40 by omega]
  rw [if_neg (Nat.not_lt.2 hoffset), BitVec.getLsbD_of_ge a (j - 32) (by omega)]
  obtain rfl | rfl : j = 38 ∨ j = 39 := by omega
  · simp
  · simp

section
variable (we : Bool) (a : BitVec 6) (d : Word)

theorem portRecord_we : (portRecord we a d).getLsbD 39 = we := by
  rw [getLsbD_portRecord we a d (by decide)]
  simp

theorem portRecord_bit38 : (portRecord we a d).getLsbD 38 = false := by
  rw [getLsbD_portRecord we a d (by decide)]
  simp

theorem portRecord_offset : (portRecord we a d).extractLsb' 32 6 = a := by
  refine BitVec.eq_of_getLsbD_eq fun j hj => ?_
  rw [BitVec.getLsbD_extractLsb', getLsbD_portRecord we a d (by omega)]
  simp [hj, show 32 + j < 38 by omega]

theorem portRecord_data : (portRecord we a d).extractLsb' 0 32 = d := by
  refine BitVec.eq_of_getLsbD_eq fun j hj => ?_
  rw [BitVec.getLsbD_extractLsb', getLsbD_portRecord we a d (by omega)]
  simp [hj]

end

/-- A record whose bit 38 is 0 is the triple of its fields (R75). -/
theorem portRecord_of_fields {r : BitVec 40} (h : r.getLsbD 38 = false) :
    portRecord (r.getLsbD 39) (r.extractLsb' 32 6) (r.extractLsb' 0 32) = r := by
  refine BitVec.eq_of_getLsbD_eq fun j hj => ?_
  rw [getLsbD_portRecord _ _ _ hj]
  simp only [BitVec.getLsbD_extractLsb']
  split_ifs with hdata hoffset
  · simp [hdata]
  · simp [show j - 32 < 6 by omega, show 32 + (j - 32) = j by omega]
  · obtain rfl | rfl : j = 38 ∨ j = 39 := by omega
    · exact h.symm
    · simp

/-! ### Offsets and registers -/

theorem portRegAt_reserved : ∀ a : BitVec 6, reservedOffset a = true → portRegAt a = .reserved a := by
  decide

theorem portRegAt_gain : ∀ k : Slot, portRegAt (BitVec.ofNat 6 (16 + k.val)) = .gain k := by
  decide

/-- Each offset has one register, and that register is well formed (R76). -/
theorem portOffset_portRegAt : ∀ a : BitVec 6, portOffset (portRegAt a) = a := by decide

theorem portRegAt_wellFormed : ∀ a : BitVec 6, (portRegAt a).wellFormed = true := by decide

/-- A well-formed register is selected by its own offset. -/
theorem portRegAt_portOffset {r : PortReg} (h : r.wellFormed = true) : portRegAt (portOffset r) = r := by
  cases r with
  | gain k => exact portRegAt_gain k
  | reserved a => exact portRegAt_reserved a h
  | _ => rfl

/-! ### Records -/

/-- A write record is a write of its data to the register its offset selects, a read record without data a read of it (R75). -/
theorem decodeRecord_portRecord_write (a : BitVec 6) (d : Word) : decodeRecord (portRecord true a d) = .ok (.wr (portRegAt a) d) := by
  simp only [decodeRecord, portRecord_we, portRecord_bit38, portRecord_offset, portRecord_data]
  rfl

theorem decodeRecord_portRecord_read (a : BitVec 6) : decodeRecord (portRecord false a 0#32) = .ok (.rd (portRegAt a)) := by
  simp only [decodeRecord, portRecord_we, portRecord_bit38, portRecord_offset, portRecord_data]
  rfl

theorem decodeRecord_wr {r : PortReg} (h : r.wellFormed = true) (v : Word) :
    decodeRecord (portRecord true (portOffset r) v) = .ok (.wr r v) := by
  rw [decodeRecord_portRecord_write, portRegAt_portOffset h]

theorem decodeRecord_rd {r : PortReg} (h : r.wellFormed = true) :
    decodeRecord (portRecord false (portOffset r) 0#32) = .ok (.rd r) := by
  rw [decodeRecord_portRecord_read, portRegAt_portOffset h]

/-- What a record decodes to is its own fields; nothing else decodes (R75). -/
theorem decodeRecord_ok {r : BitVec 40} {i : Instr} (h : decodeRecord r = .ok i) :
    ∃ a d, (r = portRecord true a d ∧ i = .wr (portRegAt a) d) ∨ (r = portRecord false a 0#32 ∧ i = .rd (portRegAt a)) := by
  simp only [decodeRecord] at h
  split_ifs at h with hbit38 hwe hdata <;> injection h with h <;> subst h
  all_goals have hfields := portRecord_of_fields (Bool.eq_false_iff.2 hbit38)
  · exact ⟨_, _, .inl ⟨by rw [← hwe, hfields], rfl⟩⟩
  · rw [Bool.eq_false_iff.2 hwe, hdata] at hfields
    exact ⟨_, 0#32, .inr ⟨hfields.symm, rfl⟩⟩

end Sys2Proof.Machine

/-! What the host's transactions do one by one, and a whole call of `QUANT` up to its acceptance (R77 to R79, R133 to R135). -/

namespace Sys2Proof.Machine

/-! ### Runs -/

/-- A run goes on from where it has come to. -/
theorem run_add_of_next {M : Host.Core} {m : Nat} {s t : M.State} (h : M.run m s = .next t) (n : Nat) :
    M.run (m + n) s = M.run n t := by
  induction m generalizing s with
  | zero =>
    injection h with h
    rw [h, Nat.zero_add]
  | succ m ih =>
    rw [Nat.add_right_comm, Host.Core.run]
    rw [Host.Core.run] at h
    cases hstep : M.step s with
    | next s' =>
      rw [hstep] at h
      exact ih h
    | fault | refused =>
      rw [hstep] at h
      cases h

theorem run_succ_of_step {s t : State} (h : step s = .next t) {n : Nat} :
    Host.Core.run Sys2Proof.core (n + 1) s = Host.Core.run Sys2Proof.core n t := by
  have hcore : Sys2Proof.core.step s = .next t := h
  simp only [Host.Core.run, hcore]

/-! ### Transactions -/

/-- The host's next transaction, a write of a register by its record, is taken off the events and performed (R75, R131). -/
theorem run_write {s t : State} {r : PortReg} {v : Word} {rest : List Event} {n : Nat} (hwf : r.wellFormed = true)
    (hrst : s.rst = false) (he : s.events = .port (portRecord true (portOffset r) v) :: rest)
    (h : exec (.wr r v) { s with events := rest } = .next t) :
    Host.Core.run Sys2Proof.core (n + 1) s = Host.Core.run Sys2Proof.core n t :=
  run_succ_of_step ((step_port he hrst (decodeRecord_wr hwf v)).trans h)

/-! ### Acceptance -/

theorem outOfRange_eq_false_iff (b : Block) : outOfRange b = false ↔ b.1.toNat + 4 * b.2 ≤ 2 ^ 32 := by
  simp [outOfRange]

/-- A command whose slot is valid and whose blocks, if it has elements, are aligned and in range passes the checks (R134). -/
theorem acceptance_of_legal {s : State} {c : Word} {i : Instr} (hdecode : decodeCommand c = .ok i) (hgain : s.lacksGain i = false)
    (hlegal : s.len ≠ 0#32 → s.blocksLegal i) : s.acceptance c = .ok i := by
  have haligned : ¬ (s.len ≠ 0#32 ∧ (s.usedBlocks i).any misaligned = true) := by
    rintro ⟨hlen, hany⟩
    obtain ⟨b, hb, hmisaligned⟩ := List.any_eq_true.1 hany
    exact absurd hmisaligned (by rw [(misaligned_eq_false_iff b).2 (hlegal hlen b hb).1]; decide)
  have hrange : ¬ (s.len ≠ 0#32 ∧ (s.usedBlocks i).any outOfRange = true) := by
    rintro ⟨hlen, hany⟩
    obtain ⟨b, hb, hout⟩ := List.any_eq_true.1 hany
    exact absurd hout (by rw [(outOfRange_eq_false_iff b).2 (hlegal hlen b hb).2]; decide)
  simp only [State.acceptance, hdecode, hgain, if_neg haligned, if_neg hrange]
  rfl

theorem issue_accepted {s : State} {c : Word} {i : Instr} (h : s.acceptance c = .ok i) : s.issue c = s.accept c i := by
  simp [State.issue, h]

/-- A command accepted with its footprint in memory and no event to come is ready to run (R135). -/
theorem ready_of_acceptance {s : State} {c : Word} {i : Instr} (h : s.acceptance c = .ok i) (he : s.events = [])
    (hin : s.footprintIn i) : (s.accept c i).Ready i where
  busy := rfl
  events := he
  cmd := (acceptance_ok h).1
  idx := rfl
  legal hlen := blocksLegal_of_acceptance (s := s) hlen h
  memory := hin

/-! ### Records and words with a slot number in them -/

/-- The write of the word of `RAMP g<k>` to `CMD` (R71, R75). -/
theorem portRecord_cmd_ramp : ∀ k : Slot,
    portRecord true (portOffset .cmd) (commandWord (.ramp k)) = 0x8000000002#40 + BitVec.ofNat 40 (16 * k.val) := by decide

theorem slotMask_eq : ∀ k : Slot, (1#32 <<< k.val : Word) = BitVec.ofNat 32 (2 ^ k.val) := by decide

/-! ### A call of `QUANT` -/

/-- The state once the line `QUANT src, dst, n` has written its operand registers (R78), its issue taken off the events. -/
def State.quantOperands (s : State) (src dst n : Word) : State := { s with src1 := src, dst := dst, len := n, events := [] }

theorem quantOperands_usedBlocks (s : State) (src dst n : Word) :
    (s.quantOperands src dst n).usedBlocks .quant = [(src, n.toNat), (dst, n.toNat)] := rfl

theorem quantCall_events (src dst n : Word) : (HostLine.quantCall src dst n).events =
    [.port (portRecord true (portOffset .src1) src), .port (portRecord true (portOffset .dst) dst),
     .port (portRecord true (portOffset .len) n), .port (portRecord true (portOffset .cmd) (commandWord .quant))] := rfl

/-- The four transactions of the call: three operand writes and the issue of the word (R78, R133). -/
theorem run_quantCall {s : State} {src dst n : Word} (hidle : s.busy = false) (hrst : s.rst = false)
    (he : s.events = (HostLine.quantCall src dst n).events) (m : Nat) :
    Host.Core.run Sys2Proof.core (m + 4) s =
      Host.Core.run Sys2Proof.core m ((s.quantOperands src dst n).issue (commandWord .quant)) := by
  rw [quantCall_events] at he
  have hsrc (u : State) (h : u.busy = false) : exec (.wr .src1 src) u = .next { u with src1 := src } := by
    obtain ⟨hsrc, -⟩ := writeOperandRegisterStores u src h
    exact hsrc
  have hdst (u : State) (h : u.busy = false) : exec (.wr .dst dst) u = .next { u with dst := dst } := by
    obtain ⟨-, -, hdst, -⟩ := writeOperandRegisterStores u dst h
    exact hdst
  have hlen (u : State) (h : u.busy = false) : exec (.wr .len n) u = .next { u with len := n } := by
    obtain ⟨-, -, -, hlen, -⟩ := writeOperandRegisterStores u n h
    exact hlen
  calc Host.Core.run Sys2Proof.core (m + 4) s
    _ = Host.Core.run Sys2Proof.core (m + 3) _ := run_write rfl hrst he (hsrc _ hidle)
    _ = Host.Core.run Sys2Proof.core (m + 2) _ := run_write rfl hrst rfl (hdst _ hidle)
    _ = Host.Core.run Sys2Proof.core (m + 1) _ := run_write rfl hrst rfl (hlen _ hidle)
    _ = Host.Core.run Sys2Proof.core m _ := run_write rfl hrst rfl (exec_wr_cmd_idle _ _ hidle)

/-- A block that is another block mapped word by word is so at each word (R56). -/
theorem readWord_of_readBlock_map {m m' : Memory} {a b n i : Nat} {f : Word → Word}
    (h : Memory.readBlock m' b n = (Memory.readBlock m a n).map f) (hi : i < n) :
    Memory.readWord m' (b + 4 * i) = f (Memory.readWord m (a + 4 * i)) := by
  have hget := congrArg (fun ws => ws[i]?) h
  simpa [Memory.readBlock_getElem, hi] using hget

end Sys2Proof.Machine

/-! A command under way, from any element on: the element steps left and the completion step, alone or with the rounds of a `WAIT` for it
(R78, R108, R136). -/

namespace Sys2Proof.Machine

/-! ### The engine's turn -/

/-- The engine of `s` is at work on the command `i`, out of reset, and every word of the command can be accessed: as `State.Ready`, but from
any element on and whatever events are to come. -/
structure State.Underway (s : State) (i : Instr) : Prop where
  busy : s.busy = true
  rst : s.rst = false
  cmd : decodeCommand s.cmd = .ok i
  legal : s.len ≠ 0#32 → s.blocksLegal i
  memory : s.footprintIn i

theorem State.Inv.underway {s : State} {i : Instr} (h : s.Inv) (hbusy : s.busy = true) (hdecode : decodeCommand s.cmd = .ok i)
    (hin : s.footprintIn i) : s.Underway i where
  busy := hbusy
  rst := Bool.eq_false_iff.2 fun hrst => absurd (h.inReset hrst) (by simp [hbusy])
  cmd := hdecode
  legal hlen := by
    obtain ⟨⟨j, hok⟩, -⟩ := h.running hbusy
    have hij : i = j := by simpa [hdecode] using (acceptance_ok hok).1
    exact hij ▸ blocksLegal_of_acceptance hlen hok
  memory := hin

/-- The state after an engine turn whose accesses all succeed: after the element step, or the completion step (R136). -/
def State.engineTurned (s : State) (i : Instr) : State :=
  if s.idx.toNat < s.len.toNat then s.elementStep i else s.finish i

/-- The turn does not look at the events to come or at what the host has read, and keeps them. -/
theorem engineTurned_withEvents (s : State) (i : Instr) (events : List Event) (pRdata : Word) :
    State.engineTurned { s with events, pRdata } i = { s.engineTurned i with events, pRdata } := by
  unfold State.engineTurned
  split_ifs
  · rfl
  · cases i <;> rfl

/-- The state in which the command `i`, under way in `s`, has completed: after the element steps left and the completion step. -/
def State.completed (s : State) (i : Instr) : State := (s.afterElements i (s.len.toNat - s.idx.toNat)).finish i

section
variable {s : State} {i : Instr} {n : Nat}

theorem State.Underway.withEvents (h : s.Underway i) (events : List Event) (pRdata : Word) :
    State.Underway { s with events, pRdata } i := ⟨h.busy, h.rst, h.cmd, h.legal, h.memory⟩

theorem State.Underway.elementStep (h : s.Underway i) : (s.elementStep i).Underway i :=
  ⟨h.busy, h.rst, h.cmd, h.legal, h.memory⟩

/-- A command under way never faults: its meaning is the turn (R108, R136). -/
theorem State.Underway.exec_eq (h : s.Underway i) : exec i s = .next (s.engineTurned i) := by
  have hi := decodeCommand_isCommand h.cmd
  unfold State.engineTurned
  split_ifs with hidx
  · have hformable := elementAccesses_formable (h.legal (len_ne_zero hidx)) hidx
    have hreached := elementAccesses_reached h.memory hidx
    exact exec_element_next hi h.busy hidx (firstFault_eq_none fun a ha => ⟨hformable a ha, hreached a ha⟩)
  · rw [exec_command hi]
    exact engineStep_completion _ _ h.busy (Nat.not_lt.1 hidx)

theorem State.Underway.afterElements (h : s.Underway i) (n : Nat) : (s.afterElements i n).Underway i := by
  induction n with
  | zero => exact h
  | succ n ih => exact ih.elementStep

/-- `IDX` counts the elements from where the command has come to (R40). -/
theorem afterElements_idx_add (hn : s.idx.toNat + n ≤ s.len.toNat) : (s.afterElements i n).idx.toNat = s.idx.toNat + n := by
  induction n with
  | zero => rfl
  | succ n ih =>
    have hidx := ih (by omega)
    rw [State.afterElements_succ, State.elementStep, idx_succ_toNat (by rw [hidx, State.afterElements_len]; omega), hidx, Nat.add_assoc]

/-- While elements are left a turn is an element step. -/
theorem engineTurned_afterElements (hn : s.idx.toNat + n < s.len.toNat) :
    (s.afterElements i n).engineTurned i = s.afterElements i (n + 1) :=
  if_pos (by rw [afterElements_idx_add hn.le, State.afterElements_len]; exact hn)

/-- When none is left it is the completion step. -/
theorem engineTurned_afterElements_all (hidx : s.idx.toNat ≤ s.len.toNat) :
    (s.afterElements i (s.len.toNat - s.idx.toNat)).engineTurned i = s.completed i :=
  if_neg (by rw [afterElements_idx_add (by omega), State.afterElements_len]; omega)

/-- A run with every turn the engine's takes the element steps left, one a turn (R136). -/
theorem State.Underway.run_elements (h : s.Underway i) (he : s.events = []) (hn : s.idx.toNat + n ≤ s.len.toNat) :
    Host.Core.run Sys2Proof.core n s = .next (s.afterElements i n) := by
  induction n with
  | zero => rfl
  | succ n ih =>
    have hu := h.afterElements n
    have hevents : (s.afterElements i n).events = [] := by
      rw [State.afterElements_frame]
      exact he
    have hstep := (step_engine hevents hu.busy hu.cmd).trans hu.exec_eq
    rw [engineTurned_afterElements (by omega)] at hstep
    exact (run_succ_of_next (ih (by omega))).trans hstep

/-- After the element steps left comes the completion step (R136). -/
theorem State.Underway.run_command (h : s.Underway i) (he : s.events = []) (hidx : s.idx.toNat ≤ s.len.toNat) :
    Host.Core.run Sys2Proof.core (s.len.toNat - s.idx.toNat + 1) s =
      .next (s.completed i) := by
  have hu := h.afterElements (s.len.toNat - s.idx.toNat)
  have hevents : (s.afterElements i (s.len.toNat - s.idx.toNat)).events = [] := by
    rw [State.afterElements_frame]
    exact he
  have hstep := (step_engine hevents hu.busy hu.cmd).trans hu.exec_eq
  rw [engineTurned_afterElements_all hidx] at hstep
  exact (run_succ_of_next (h.run_elements he (by omega))).trans hstep

theorem completed_rst (s : State) (i : Instr) : (s.completed i).rst = s.rst := by
  rw [State.completed, finish_eq, State.afterElements_frame]

theorem completed_busy (s : State) (i : Instr) : (s.completed i).busy = false := by
  rw [State.completed, finish_eq]

theorem completed_done (s : State) (i : Instr) : (s.completed i).done = true := by
  rw [State.completed, finish_eq]

end

/-! ### The steps of a round -/

/-- A listed turn of the engine while a command runs is a step of the command (R136). -/
theorem run_engine_event {s t : State} {i : Instr} {rest : List Event} {n : Nat} (he : s.events = .engine :: rest)
    (hbusy : s.busy = true) (hdecode : decodeCommand s.cmd = .ok i) (h : exec i { s with events := rest } = .next t) :
    Host.Core.run Sys2Proof.core (n + 1) s = Host.Core.run Sys2Proof.core n t := by
  refine run_succ_of_step (Eq.trans ?_ h)
  simp [step, State.nextActivity, he, State.eventTurn, State.engineTurn, hbusy, runActivity, decode, hdecode]

/-- The look that finds bit 0 of the value read equal to 0: the host goes on (R78). -/
theorem step_await_over {s : State} {rest : List Event} (he : s.events = .await :: rest) (hread : s.pRdata.getLsbD 0 = false) :
    step s = .next { s with events := rest } := by
  rw [step_await he, awaitTurn_done (s := { s with events := rest }) hread]

/-- The look that finds it equal to 1: another round comes before any later transaction of the host (R78). -/
theorem step_await_again {s : State} {others later : List Event} (he : s.events = .await :: (others ++ later))
    (hread : s.pRdata.getLsbD 0 = true) (hothers : ∀ e ∈ others, e.ofHost = false) (hlater : ∀ e ∈ later.head?, e.ofHost = true) :
    step s = .next { s with events := .engine :: (others ++ HostLine.wait.events ++ later) } := by
  rw [step_await he, awaitTurn_again (s := { s with events := others ++ later }) hread rfl hothers hlater]

/-! ### The rounds of `WAIT` -/

/-- The host is at a `WAIT`, with later transactions after it and `pRdata` what it has read before. -/
def State.atWait (s : State) (later : List Event) (pRdata : Word) : State :=
  { s with events := HostLine.wait.events ++ later, pRdata }

/-- The read of `STATUS` that begins a round (R78, R132). -/
theorem step_wait_read {s : State} (hrst : s.rst = false) (later : List Event) (pRdata : Word) :
    step (s.atWait later pRdata) = .next { s with events := .await :: later, pRdata := s.statusWord } := by
  have hdecode : decodeRecord 0x0100000000#40 = .ok (.rd .status) := by decide
  have he : (s.atWait later pRdata).events = .port 0x0100000000#40 :: .await :: later := by
    rw [State.atWait, wait_events]
    rfl
  exact (step_port he hrst hdecode).trans (exec_rd_given (r := .status) rfl)

/-- A round of `WAIT` while a command runs: the read finds `BUSY = 1`, the engine takes its turn, and another round comes (R78). -/
theorem State.Underway.run_wait_round {s : State} {i : Instr} (h : s.Underway i) {later : List Event}
    (hlater : ∀ e ∈ later.head?, e.ofHost = true) (pRdata : Word) :
    Host.Core.run Sys2Proof.core 3 (s.atWait later pRdata) = .next ((s.engineTurned i).atWait later s.statusWord) := by
  have hread : s.statusWord.getLsbD 0 = true := (getLsbD_statusWord_flags s).1.trans h.busy
  have hexec := (h.withEvents (HostLine.wait.events ++ later) s.statusWord).exec_eq
  rw [engineTurned_withEvents] at hexec
  have hreadStep := step_wait_read h.rst later pRdata
  have hlookStep := step_await_again (s := { s with events := .await :: later, pRdata := s.statusWord }) (others := [])
    rfl hread nofun hlater
  have hturn := run_engine_event (s := { s with events := .engine :: (HostLine.wait.events ++ later), pRdata := s.statusWord })
    rfl h.busy h.cmd hexec (n := 0)
  exact (run_succ_of_step hreadStep (n := 2)).trans ((run_succ_of_step hlookStep (n := 1)).trans hturn)

/-- The last round of `WAIT`: the read finds `BUSY = 0`, and the host goes on (R78). -/
theorem run_wait_end {s : State} (hrst : s.rst = false) (hidle : s.busy = false) (later : List Event) (pRdata : Word) :
    Host.Core.run Sys2Proof.core 2 (s.atWait later pRdata) = .next { s with events := later, pRdata := s.statusWord } := by
  have hread : s.statusWord.getLsbD 0 = false := (getLsbD_statusWord_flags s).1.trans hidle
  have hreadStep := step_wait_read hrst later pRdata
  have hlookStep := step_await_over (s := { s with events := .await :: later, pRdata := s.statusWord }) rfl hread
  exact (run_succ_of_step hreadStep (n := 1)).trans (run_succ_of_step hlookStep (n := 0))

/-- A round of `WAIT` for each element step; what the last of them has read does not matter. -/
theorem State.Underway.run_wait_elements {s : State} {i : Instr} (h : s.Underway i) {later : List Event}
    (hlater : ∀ e ∈ later.head?, e.ofHost = true) (pRdata : Word) {n : Nat} (hn : s.idx.toNat + n ≤ s.len.toNat) :
    ∃ read, Host.Core.run Sys2Proof.core (3 * n) (s.atWait later pRdata) = .next ((s.afterElements i n).atWait later read) := by
  induction n with
  | zero => exact ⟨pRdata, rfl⟩
  | succ n ih =>
    obtain ⟨read, hrun⟩ := ih (by omega)
    have hround := (h.afterElements n).run_wait_round hlater read
    rw [engineTurned_afterElements (by omega)] at hround
    exact ⟨_, (run_add_of_next hrun 3).trans hround⟩

/-- A `WAIT` for a command: a round for each element step left and one for the completion step, and the last (R78). -/
theorem State.Underway.run_wait {s : State} {i : Instr} (h : s.Underway i) (hidx : s.idx.toNat ≤ s.len.toNat) {later : List Event}
    (hlater : ∀ e ∈ later.head?, e.ofHost = true) (pRdata : Word) :
    Host.Core.run Sys2Proof.core (3 * (s.len.toNat - s.idx.toNat + 1) + 2) (s.atWait later pRdata) =
      .next { s.completed i with events := later, pRdata := (s.completed i).statusWord } := by
  obtain ⟨read, helements⟩ := h.run_wait_elements hlater pRdata (n := s.len.toNat - s.idx.toNat) (by omega)
  have hcompletion := (h.afterElements (s.len.toNat - s.idx.toNat)).run_wait_round hlater read
  rw [engineTurned_afterElements_all hidx] at hcompletion
  have hrounds := (run_add_of_next helements 3).trans hcompletion
  exact (run_add_of_next hrounds 2).trans (run_wait_end ((completed_rst s i).trans h.rst) (completed_busy s i) later _)

end Sys2Proof.Machine

/-! The statements about the encoding (`30_encoding.md` R70 to R80). -/

namespace Sys2Proof.Machine

/-- Settles O5: a command decodes from its word, a transaction from the fields of its record. -/
theorem decodeOfEncode : Obligations.DecodeOfEncode := by
  intro i hwf
  cases i with
  | quant => exact decode_encode_command (.inl rfl)
  | ramp g => exact decode_encode_command (.inr (.inl ⟨g, rfl⟩))
  | zip => exact decode_encode_command (.inr (.inr (.inl rfl)))
  | zipq => exact decode_encode_command (.inr (.inr (.inr rfl)))
  | wr r v => exact decodeRecord_wr hwf v
  | rd r => exact decodeRecord_rd hwf

/-- Settles O6: the fields of a word that decodes, and those of a record that does, are those of the encoding. -/
theorem encodeOfDecode : Obligations.EncodeOfDecode := by
  intro x i h
  cases x with
  | command w =>
    obtain ⟨hi, rfl⟩ := (decodeCommand_ok_iff w i).1 h
    exact ⟨command_wellFormed hi, encode_command hi⟩
  | record r =>
    obtain ⟨a, d, ⟨rfl, rfl⟩ | ⟨rfl, rfl⟩⟩ := decodeRecord_ok h
    · exact ⟨portRegAt_wellFormed a, by rw [encode, portOffset_portRegAt]⟩
    · exact ⟨portRegAt_wellFormed a, by rw [encode, portOffset_portRegAt]⟩

/-- Settles O2. -/
theorem commandWordsAreTheElevenLegal : Obligations.CommandWordsAreTheElevenLegal := by
  refine fun w i => (decodeCommand_ok_iff w i).trans ⟨?_, ?_⟩
  · rintro ⟨rfl | ⟨g, rfl⟩ | rfl | rfl, rfl⟩
    · exact .inl ⟨rfl, rfl⟩
    · exact .inr (.inl ⟨g, rfl, rfl⟩)
    · exact .inr (.inr (.inl ⟨rfl, rfl⟩))
    · exact .inr (.inr (.inr ⟨rfl, rfl⟩))
  · rintro (⟨rfl, rfl⟩ | ⟨g, rfl, rfl⟩ | ⟨rfl, rfl⟩ | ⟨rfl, rfl⟩)
    · exact ⟨.inl rfl, rfl⟩
    · exact ⟨.inr (.inl ⟨g, rfl⟩), rfl⟩
    · exact ⟨.inr (.inr (.inl rfl)), rfl⟩
    · exact ⟨.inr (.inr (.inr rfl)), rfl⟩

/-- Settles O3: an illegal word fails the first acceptance check, and the refusal changes `ERR` and `ERRCODE` alone. -/
theorem illegalCommandWords : Obligations.IllegalCommandWords := by
  refine fun w => ⟨decodeCommand_error_iff w, fun hillegal s hidle => ?_⟩
  have hissue := issue_illegal ((decodeCommand_error_iff w).2 hillegal) s
  exact (exec_wr_cmd_idle s w hidle).trans (congrArg Host.Outcome.next hissue)

/-- Settles O1. -/
theorem specWordsDecode : Obligations.SpecWordsDecode := by
  unfold Obligations.SpecWordsDecode
  decide

/-- Settles O4: the named offsets one by one, then the slots and the reserved offsets. -/
theorem offsetSelectsRegister : Obligations.OffsetSelectsRegister := by
  refine ⟨rfl, rfl, rfl, rfl, rfl, rfl, rfl, rfl, rfl, rfl, rfl, portRegAt_gain, fun a h => portRegAt_reserved a ?_⟩
  simpa [reservedOffset] using h

/-- Settles O33: the operands pass the checks, the accepted command is ready, and O29 says what it does. -/
theorem quantCallConvertsBlock : Obligations.QuantCallConvertsBlock := by
  intro s src dst n hidle hrst he hlegal hin hapart
  have hok : (s.quantOperands src dst n).acceptance (commandWord .quant) = .ok .quant := by
    refine acceptance_of_legal rfl rfl fun hlen b hb => ?_
    obtain ⟨hsrc, hdst, hsrcRange, hdstRange⟩ := hlegal hlen
    obtain rfl | rfl : b = (src, n.toNat) ∨ b = (dst, n.toNat) := by simpa [quantOperands_usedBlocks] using hb
    · exact ⟨hsrc, hsrcRange⟩
    · exact ⟨hdst, hdstRange⟩
  have hfootprint : (s.quantOperands src dst n).footprintIn .quant := by
    intro b hb j hj
    obtain rfl | rfl : b = (src, n.toNat) ∨ b = (dst, n.toNat) := by simpa [quantOperands_usedBlocks] using hb
    · exact (hin j hj).1
    · exact (hin j hj).2
  have hblocks : dst.toNat ≤ src.toNat ∨ src.toNat + 4 * n.toNat ≤ dst.toNat :=
    hapart.imp_left (Nat.le_of_add_right_le ·)
  obtain ⟨t, hrun, ht, hblock, hother⟩ :=
    quantCommandConvertsBlock _ (ready_of_acceptance hok rfl hfootprint) hblocks
  refine ⟨t, ?_, ?_, ?_, fun i => readWord_of_readBlock_map hblock, hother⟩
  · rw [run_quantCall hidle hrst he (n.toNat + 1), issue_accepted hok]
    exact hrun
  · rw [ht]
    simp only [hidle]
    rfl
  · rw [ht]
    rfl

/-- Settles O35: by induction on the element steps left, alone and with a round of `WAIT` for each. -/
theorem acceptedCommandCompletes : Obligations.AcceptedCommandCompletes := by
  intro s i hinv hbusy he hdecode hin
  have h := hinv.underway hbusy hdecode hin
  obtain ⟨-, hidx⟩ := hinv.running hbusy
  refine ⟨fun k hk => ⟨_, h.run_elements he (by omega), (h.afterElements k).busy, afterElements_idx_add (by omega)⟩,
    _, h.run_command he hidx, completed_busy s i, completed_done s i, fun later hlater => h.run_wait hidx hlater s.pRdata⟩

/-- Settles O34: each line's records are its transactions encoded; a look of `WAIT` goes on or goes back. -/
theorem hostLinesExpandToRecords : Obligations.HostLinesExpandToRecords := by
  refine ⟨fun _ _ => rfl, fun _ => rfl, fun _ => rfl, fun _ _ _ => rfl, fun k src dst n tgt => ?_, fun _ _ _ _ _ => rfl,
    fun _ _ _ _ _ => rfl, fun _ => rfl, fun _ _ => rfl, fun k => ?_, fun _ _ => rfl, wait_events,
    fun s rest he => ⟨step_await_over he, ?_⟩⟩
  · rw [← portRecord_cmd_ramp k]
    rfl
  · rw [← slotMask_eq k]
    rfl
  · rintro hread others later rfl hothers hlater
    simpa [wait_events] using step_await_again he hread hothers hlater

end Sys2Proof.Machine

/-! # Proofs for `40_quantizer.md`: the float-to-Q23 quantizer and `QUANT` (R90 to R92) -/

/-! Both forms of the quantizer (R90) are one function of the exact value: scale by `2^23`, truncate toward zero, saturate. That they
agree is that the bit fields compute this function; its bounds, its symmetry and its order (R92) are those of the function. -/

namespace Sys2Proof.Machine

/-! ### The exponent of magnitude 1.0, which is `2^149` units -/

theorem fFrac_lt (w : Word) : fFrac w < 2 ^ 23 := (w.extractLsb' 0 23).isLt

theorem fUnits_ge_of_exp_ge {w : Word} (h : 127 ≤ fExp w) : 2 ^ 149 ≤ fUnits w := by
  rw [fUnits, if_neg (by omega)]
  calc 2 ^ 149 = 2 ^ 23 * 2 ^ 126 := by rw [← Nat.pow_add]
    _ ≤ (2 ^ 23 + fFrac w) * 2 ^ (fExp w - 1) :=
      Nat.mul_le_mul (Nat.le_add_right _ _) (Nat.pow_le_pow_right (by decide) (by omega))

theorem fUnits_lt_of_exp_lt {w : Word} (h : fExp w < 127) : fUnits w < 2 ^ 149 := by
  have hfrac := fFrac_lt w
  unfold fUnits
  split_ifs
  · omega
  · calc (2 ^ 23 + fFrac w) * 2 ^ (fExp w - 1) < 2 ^ 24 * 2 ^ (fExp w - 1) :=
          Nat.mul_lt_mul_of_pos_right (by omega) (Nat.two_pow_pos _)
      _ ≤ 2 ^ 24 * 2 ^ 125 := Nat.mul_le_mul_left _ (Nat.pow_le_pow_right (by decide) (by omega))
      _ = 2 ^ 149 := by rw [← Nat.pow_add]

/-! ### The comparison and the sign flip -/

theorem fle32_eq_true_iff (a b : Word) :
    fle32 a b = true ↔ fIsNaN a = false ∧ fIsNaN b = false ∧ fValue a ≤ fValue b := by
  simp [fle32, fOrdered, and_assoc]

/-- The sign flip makes no NaN. -/
theorem fIsNaN_flip {w : Word} (h : fIsNaN w = false) : fIsNaN (w ^^^ 0x80000000#32) = false := by
  rwa [fIsNaN_eq_false_iff, magnitude_flip, ← fIsNaN_eq_false_iff]

theorem fUnits_flip (w : Word) : fUnits (w ^^^ 0x80000000#32) = fUnits w :=
  (fUnits_inj _ _).2 (magnitude_flip w)

/-! ### Scaling, truncation and saturation -/

/-- `trunc(val(w) * Q_SCALE)`: of the units of `2^-149`, scaled by `2^23`, `2^126` make one. -/
def scaledTrunc (w : Word) : Int := (fValue w).tdiv (2 ^ 126)

/-- The saturation to `[Q_MIN, Q_MAX]`. -/
def saturate (x : Int) : Int := max Config.qMin (min Config.qMax x)

/-- Truncation toward zero divides the magnitude and keeps the sign. -/
theorem scaledTrunc_eq (w : Word) :
    scaledTrunc w = if fSign w then -((fUnits w / 2 ^ 126 : Nat) : Int) else ((fUnits w / 2 ^ 126 : Nat) : Int) := by
  have hpos : (fUnits w : Int).tdiv (2 ^ 126) = ((fUnits w / 2 ^ 126 : Nat) : Int) := (Int.ofNat_tdiv _ _).symm
  rw [scaledTrunc, fValue]
  split_ifs
  · rw [Int.neg_tdiv, hpos]
  · exact hpos

theorem scaledTrunc_mono {v w : Word} (h : fValue v ≤ fValue w) : scaledTrunc v ≤ scaledTrunc w :=
  Int.tdiv_le_tdiv (by decide) h

theorem scaledTrunc_flip (w : Word) : scaledTrunc (w ^^^ 0x80000000#32) = -scaledTrunc w := by
  rw [scaledTrunc, fValue_flip, Int.neg_tdiv, scaledTrunc]

theorem saturate_mono {x y : Int} (h : x ≤ y) : saturate x ≤ saturate y :=
  max_le_max le_rfl (min_le_min le_rfl h)

theorem saturate_bounds (x : Int) : -8388608 ≤ saturate x ∧ saturate x ≤ 8388607 := by
  simp only [saturate, Config.qMin, Config.qMax]
  omega

theorem saturate_of_bounds {x : Int} (hmin : -8388608 ≤ x) (hmax : x ≤ 8388607) : saturate x = x := by
  simp only [saturate, Config.qMin, Config.qMax]
  omega

/-- From magnitude 1.0 on the bound of the sign is reached. -/
theorem saturate_scaledTrunc_of_ge {w : Word} (h : 2 ^ 149 ≤ fUnits w) :
    saturate (scaledTrunc w) = if fSign w then Config.qMin else Config.qMax := by
  rw [scaledTrunc_eq]
  simp only [saturate, Config.qMin, Config.qMax]
  split_ifs <;> omega

/-- Below magnitude 1.0 nothing saturates. -/
theorem saturate_scaledTrunc_of_lt {w : Word} (h : fUnits w < 2 ^ 149) : saturate (scaledTrunc w) = scaledTrunc w := by
  rw [scaledTrunc_eq]
  apply saturate_of_bounds <;> split_ifs <;> omega

/-! ### The form on exact values -/

theorem q23Real_nan {w : Word} (h : fIsNaN w = true) : q23Real w = 0 := by
  simp [q23Real, h, Config.qnanQ23]

/-- The bounds of `q23Real` on the scaled value are those of the saturation on the truncated one; an infinity saturates. -/
theorem q23Real_eq_saturate {w : Word} (h : fIsNaN w = false) : q23Real w = saturate (scaledTrunc w) := by
  cases hinf : fIsInf w with
  | true =>
    have hge : 2 ^ 149 ≤ fUnits w := fUnits_ge_of_exp_ge (by rw [fExp_of_fIsInf hinf]; decide)
    simp [q23Real, h, hinf, saturate_scaledTrunc_of_ge hge]
  | false =>
    have hscale : (fValue w * Config.qScale).tdiv (2 ^ 149) = scaledTrunc w := by
      rw [show (2 : Int) ^ 149 = 2 ^ 126 * Config.qScale by decide]
      exact Int.mul_tdiv_mul_of_pos_left (fValue w) (2 ^ 126) (by decide)
    simp only [q23Real, h, hinf, hscale, Bool.false_eq_true, if_false]
    rw [scaledTrunc_eq, fValue]
    simp only [saturate, Config.qMin, Config.qMax, Config.qScale]
    cases fSign w with
    | true =>
      rw [if_pos rfl, if_pos rfl]
      split_ifs <;> omega
    | false =>
      rw [if_neg Bool.false_ne_true, if_neg Bool.false_ne_true]
      split_ifs <;> omega

theorem q23Real_bounds (w : Word) : -8388608 ≤ q23Real w ∧ q23Real w ≤ 8388607 := by
  cases h : fIsNaN w with
  | true => simp [q23Real_nan h]
  | false =>
    rw [q23Real_eq_saturate h]
    exact saturate_bounds _

/-! ### The form on bit fields -/

theorem q23_nan {w : Word} (h : fIsNaN w = true) : q23 w = 0#32 := by
  obtain ⟨hexp, hfrac⟩ : fExp w = 255 ∧ fFrac w ≠ 0 := by simpa [fIsNaN] using h
  simp [q23, hexp, hfrac, Config.qnanQ23]

theorem q23_of_exp_ge {w : Word} (hnan : fIsNaN w = false) (h : 127 ≤ fExp w) :
    q23 w = BitVec.ofInt 32 (if fSign w then Config.qMin else Config.qMax) := by
  have hnot : ¬ (fExp w = 255 ∧ fFrac w ≠ 0) := by simpa [fIsNaN] using hnan
  simp only [q23, if_neg hnot, if_pos h]

theorem q23_of_exp_zero {w : Word} (h : fExp w = 0) : q23 w = 0#32 := by
  simp [q23, h]

/-- The cut at a shift of 24 is no case of its own: the shift itself gives 0 there. -/
theorem q23_of_exp_lt {w : Word} (hne : fExp w ≠ 0) (h : fExp w < 127) :
    q23 w = BitVec.ofInt 32 (if fSign w then -(((2 ^ 23 + fFrac w) >>> (127 - fExp w) : Nat) : Int)
      else (((2 ^ 23 + fFrac w) >>> (127 - fExp w) : Nat) : Int)) := by
  have hcut : (if 24 ≤ 127 - fExp w then 0 else (2 ^ 23 + fFrac w) >>> (127 - fExp w)) =
      (2 ^ 23 + fFrac w) >>> (127 - fExp w) := by
    split_ifs with hsh
    · have hfrac := fFrac_lt w
      have hsig : 2 ^ 23 + fFrac w < 2 ^ (127 - fExp w) :=
        (by omega : 2 ^ 23 + fFrac w < 2 ^ 24).trans_le (Nat.pow_le_pow_right (by decide) hsh)
      rw [Nat.shiftRight_eq_div_pow, Nat.div_eq_of_lt hsig]
    · rfl
  have hnot : ¬ (fExp w = 255 ∧ fFrac w ≠ 0) := by omega
  simp only [q23, if_neg hnot, if_neg h.not_ge, if_neg hne, hcut]

/-! ### The two forms agree -/

/-- Below exponent 127 the division by `2^126` takes back the shift of the exponent and shifts right by what is left. -/
theorem fUnits_div_of_exp_lt {w : Word} (hne : fExp w ≠ 0) (h : fExp w < 127) :
    fUnits w / 2 ^ 126 = (2 ^ 23 + fFrac w) >>> (127 - fExp w) := by
  have hpow : 2 ^ 126 = 2 ^ (127 - fExp w) * 2 ^ (fExp w - 1) := by
    rw [← Nat.pow_add]
    congr 1
    omega
  rw [fUnits, if_neg hne, hpow, Nat.mul_div_mul_right _ _ (Nat.two_pow_pos _), Nat.shiftRight_eq_div_pow]

/-- The bit fields compute the function of the exact value, by the ranges of the exponent. -/
theorem q23_eq_saturate {w : Word} (hnan : fIsNaN w = false) : q23 w = BitVec.ofInt 32 (saturate (scaledTrunc w)) := by
  rcases Nat.lt_or_ge (fExp w) 127 with hlt | hge
  · rw [saturate_scaledTrunc_of_lt (fUnits_lt_of_exp_lt hlt), scaledTrunc_eq]
    by_cases hzero : fExp w = 0
    · have hunits : fUnits w / 2 ^ 126 = 0 := by
        have hfrac := fFrac_lt w
        rw [fUnits, if_pos hzero]
        omega
      rw [q23_of_exp_zero hzero, hunits]
      simp
    · rw [q23_of_exp_lt hzero hlt, fUnits_div_of_exp_lt hzero hlt]
  · rw [q23_of_exp_ge hnan hge, saturate_scaledTrunc_of_ge (fUnits_ge_of_exp_ge hge)]

theorem q23_eq_ofInt_q23Real (w : Word) : q23 w = BitVec.ofInt 32 (q23Real w) := by
  cases h : fIsNaN w with
  | true =>
    rw [q23_nan h, q23Real_nan h]
    rfl
  | false => rw [q23_eq_saturate h, q23Real_eq_saturate h]

theorem toInt_q23 (w : Word) : (q23 w).toInt = q23Real w := by
  obtain ⟨hmin, hmax⟩ := q23Real_bounds w
  rw [q23_eq_ofInt_q23Real]
  exact BitVec.toInt_ofInt_eq_self (by decide) (by omega) (by omega)

/-- A word that is the sign extension of 24 bits repeats bit 23 above it. -/
theorem getLsbD_of_toInt_bounds {x : Word} (hmin : -8388608 ≤ x.toInt) (hmax : x.toInt ≤ 8388607) {j : Nat} (hj : 24 ≤ j)
    (hj' : j < 32) : x.getLsbD j = x.getLsbD 23 := by
  have hext : x = (BitVec.ofInt 24 x.toInt).signExtend 32 := by
    apply BitVec.eq_of_toInt_eq
    rw [BitVec.toInt_signExtend_of_le (by decide), BitVec.toInt_ofInt_eq_self (by decide) (by omega) (by omega)]
  rw [hext, BitVec.getLsbD_signExtend, BitVec.getLsbD_signExtend, if_neg (by omega), if_pos (by decide), BitVec.msb_eq_getLsbD_last]
  simp [hj']

end Sys2Proof.Machine

/-! The statements about the quantizer (`40_quantizer.md` R90 to R92). -/

namespace Sys2Proof.Machine

/-- Settles O44: both forms are the saturation of the truncated scaled value, which fits in 24 bits. -/
theorem quantizerFormsAgree : Obligations.QuantizerFormsAgree := by
  intro w
  obtain ⟨hmin, hmax⟩ := q23Real_bounds w
  rw [← toInt_q23] at hmin hmax
  exact ⟨q23_eq_ofInt_q23Real w, toInt_q23 w, fun j => getLsbD_of_toInt_bounds hmin hmax⟩

/-- Settles O45: below magnitude 1.0 nothing saturates, and truncation toward zero is odd. -/
theorem quantizerBoundedAndOdd : Obligations.QuantizerBoundedAndOdd := by
  intro w
  obtain ⟨hmin, hmax⟩ := q23Real_bounds w
  rw [toInt_q23, toInt_q23]
  refine ⟨hmin, hmax, fun hnan hlt => ?_⟩
  have hlt' : fUnits (w ^^^ 0x80000000#32) < 2 ^ 149 := (fUnits_flip w).trans_lt hlt
  rw [q23Real_eq_saturate hnan, q23Real_eq_saturate (fIsNaN_flip hnan), saturate_scaledTrunc_of_lt hlt,
    saturate_scaledTrunc_of_lt hlt', scaledTrunc_flip]

/-- Settles O46: truncation and saturation are monotone. -/
theorem quantizerMonotone : Obligations.QuantizerMonotone := by
  intro v w h
  obtain ⟨hv, hw, hle⟩ := (fle32_eq_true_iff v w).1 h
  rw [toInt_q23, toInt_q23, q23Real_eq_saturate hv, q23Real_eq_saturate hw]
  exact saturate_mono (scaledTrunc_mono hle)

/-- Settles O22: both accesses of the element succeed, and its one write is `q23` of the word read. -/
theorem quantElementStep : Obligations.QuantElementStep := by
  intro s hbusy hidx src dst hsrc hsrcReach hdst hdstReach
  have hnone : s.firstFault (s.elementAccesses .quant) = none := by
    refine firstFault_eq_none fun a ha => ?_
    obtain rfl | rfl : a = src ∨ a = dst := by simpa [State.elementAccesses] using ha
    · exact ⟨hsrc, hsrcReach⟩
    · exact ⟨hdst, hdstReach⟩
  exact exec_element_next (.inl rfl) hbusy hidx hnone

end Sys2Proof.Machine

/-! # Proofs for `41_ramped_scaler.md`: the crossing, the ramp step and `RAMP` (R100 to R109) -/

/-! The crossing (R100), and the element step of `RAMP` (R102, R103, R107). -/

namespace Sys2Proof.Machine

/-! ### The crossing -/

theorem fge32_eq_true_iff (a b : Word) :
    fge32 a b = true ↔ fIsNaN a = false ∧ fIsNaN b = false ∧ fValue b ≤ fValue a := by
  simp [fge32, fOrdered, and_assoc]

theorem fValue_nonpos_iff (w : Word) : fValue w ≤ 0 ↔ fIsZero w = true ∨ fSign w = true := by
  rw [fIsZero_iff, ← fUnits_eq_zero_iff, fValue]
  cases fSign w <;> simp

theorem fValue_nonneg_iff (w : Word) : 0 ≤ fValue w ↔ fIsZero w = true ∨ fSign w = false := by
  rw [fIsZero_iff, ← fUnits_eq_zero_iff, fValue]
  cases fSign w <;> simp

/-- A crossing by values: between two samples that are no NaN, zero is reached or passed (R100). -/
theorem crossing_iff (p y : Word) : crossing p y = true ↔ fIsNaN p = false ∧ fIsNaN y = false ∧
    (fValue p ≤ 0 ∧ 0 ≤ fValue y ∨ 0 ≤ fValue p ∧ fValue y ≤ 0) := by
  have hnan : fIsNaN 0#32 = false := by decide
  have hzero : fValue 0#32 = 0 := by decide
  rw [crossing, Bool.or_eq_true, Bool.and_eq_true, Bool.and_eq_true]
  simp only [fle32_eq_true_iff, fge32_eq_true_iff, hnan, hzero]
  tauto

/-- A NaN is never part of a crossing. -/
theorem crossing_nan (p : Word) {y : Word} (h : fIsNaN y = true) : crossing p y = false := by
  rw [← Bool.not_eq_true, crossing_iff, h]
  simp

/-! ### The scale after an element -/

theorem scaleAfter_held {tgt sw : Word} {p : Option Word} (y : Word) (h : p = none ∨ feq32 sw tgt = true) :
    scaleAfter tgt p y sw = sw := by
  rcases h with rfl | heq
  · rfl
  · cases p <;> simp [scaleAfter, fne32, heq]

theorem scaleAfter_nan_output (tgt sw : Word) (p : Option Word) {y : Word} (h : fIsNaN y = true) :
    scaleAfter tgt p y sw = sw := by
  cases p <;> simp [scaleAfter, crossing_nan _ h]

theorem scaleAfter_previous (s : State) (y : Word) : scaleAfter s.target s.previous y s.sw =
    if s.idx ≠ 0#32 ∧ fne32 s.sw s.target = true ∧ crossing s.prev y = true then rampstep s.sw s.target else s.sw := by
  by_cases h0 : s.idx = 0#32 <;> simp [scaleAfter, State.previous, h0]

/-! ### The element step -/

theorem ramp_element_sw {s : State} {g : Slot} {e : Element} (h : s.element (.ramp g) = .ok e) :
    e.sw = scaleAfter s.target s.previous (fmul32 s.input s.sw) s.sw := by
  have hbody : e = s.loopBody (.ramp g) := checked_ok ((element_eq s (.ramp g)).symm.trans h)
  rw [← rampScale_eq, hbody]
  rfl

/-- The element step of `RAMP` when both of its accesses succeed (R102, R136). -/
theorem exec_ramp_element {s : State} (g : Slot) (hbusy : s.busy = true) (hidx : s.idx.toNat < s.len.toNat)
    (hsrc : formable (elementAddress s.src1 s.idx.toNat) = true) (hsrcReach : s.reaches (elementAddress s.src1 s.idx.toNat) = true)
    (hdst : formable (elementAddress s.dst s.idx.toNat) = true) (hdstReach : s.reaches (elementAddress s.dst s.idx.toNat) = true) :
    exec (.ramp g) s = .next { s with
      mem := Memory.writeWord s.mem (elementAddress s.dst s.idx.toNat) (fmul32 s.input s.sw)
      sw := scaleAfter s.target s.previous (fmul32 s.input s.sw) s.sw
      prev := fmul32 s.input s.sw
      idx := s.idx + 1#32 } := by
  have hnone : s.firstFault (s.elementAccesses (.ramp g)) = none := by
    refine firstFault_eq_none fun a ha => ?_
    obtain rfl | rfl : a = elementAddress s.src1 s.idx.toNat ∨ a = elementAddress s.dst s.idx.toNat := by
      simpa [State.elementAccesses] using ha
    · exact ⟨hsrc, hsrcReach⟩
    · exact ⟨hdst, hdstReach⟩
  rw [exec_element_next (.inr (.inl ⟨g, rfl⟩)) hbusy hidx hnone, ← rampScale_eq]
  rfl

end Sys2Proof.Machine

/-! How far the sum of two words is from the exact one, and what a step of `RAMP_STEP` does to the value of a scale (R101). -/

namespace Sys2Proof.Machine

/-! ### The error of a rounding -/

/-- Below `2^(24+e)` units the last place is at most `2^e`, and the rounding at most half of that away. -/
theorem roundMagnitude_error {n e : Nat} (h : n < 2 ^ (24 + e)) :
    2 * ((n : Int) - magUnits (roundMagnitude n 0)).natAbs ≤ 2 ^ e := by
  obtain ⟨hle, hnorm⟩ := roundShift_significand n 0
  have hshift : max (Nat.log2 n + 1 - 24) 0 ≤ e := by
    rcases Nat.eq_zero_or_pos n with rfl | hpos
    · simp
    · have := (Nat.log2_lt hpos.ne').2 h
      omega
  have hplace : 2 ^ max (Nat.log2 n + 1 - 24) 0 ≤ 2 ^ e := Nat.pow_le_pow_right (by decide) hshift
  obtain ⟨-, habove, hbelow, -⟩ := roundShift_nearest n (max (Nat.log2 n + 1 - 24) 0)
  unfold roundMagnitude
  dsimp only at *
  generalize max (Nat.log2 n + 1 - 24) 0 = sh at *
  rw [Nat.sub_zero] at hnorm ⊢
  rw [magUnits_significand hle (by omega)]
  rw [Nat.add_mul, Nat.mul_assoc] at habove
  rw [Nat.mul_assoc] at hbelow
  omega

theorem fValue_round32 (neg : Bool) {n k : Nat} (h : roundMagnitude n k < 0x7F800000) :
    fValue (round32 neg n k) = if neg then -(magUnits (roundMagnitude n k) : Int) else magUnits (roundMagnitude n k) := by
  rw [fValue, fSign_round32, fUnits_eq_magUnits, magnitude_round32, Nat.min_eq_left h.le]

/-- A sum below `2^(24+e)` units in magnitude is finite, and at most half of `2^e` units from the exact one. -/
theorem fadd32_near {a b : Word} (ha : fExp a ≠ 255) (hb : fExp b ≠ 255) {e : Nat} (he : e ≤ 228)
    (h : (fValue a + fValue b).natAbs < 2 ^ (24 + e)) :
    fExp (fadd32 a b) ≠ 255 ∧ 2 * (fValue (fadd32 a b) - (fValue a + fValue b)).natAbs ≤ 2 ^ e := by
  have herror := roundMagnitude_error h
  have hfin : roundMagnitude (fValue a + fValue b).natAbs 0 < 0x7F800000 := by
    have hle : 2 ^ (24 + e) ≤ 2 ^ 252 := Nat.pow_le_pow_right (by decide) (by omega)
    rw [← Nat.not_le, roundMagnitude_overflow_iff]
    omega
  rw [fadd32_finite ha hb]
  generalize fValue a + fValue b = x at *
  refine ⟨(fExp_ne_255_iff _).2 (by rw [magnitude_round32]; omega), ?_⟩
  rw [fValue_round32 _ hfin]
  by_cases h0 : x = 0
  · subst h0
    split_ifs <;> omega
  · simp only [if_neg h0, decide_eq_true_eq]
    split_ifs <;> omega

/-- Below `2^15`, which is the word `0x47000000`, a word is finite. -/
theorem finite_of_fUnits_lt {w : Word} (h : fUnits w < 2 ^ 164) : fExp w ≠ 255 := by
  have hunits : fUnits 0x47000000#32 = 2 ^ 164 := by decide
  have hmag : magnitude 0x47000000#32 = 0x47000000 := rfl
  rw [← hunits, fUnits_lt_iff, hmag] at h
  exact (fExp_ne_255_iff w).2 (by omega)

theorem natAbs_fValue (w : Word) : (fValue w).natAbs = fUnits w := by
  unfold fValue
  split_ifs <;> omega

/-! ### The absorbed step -/

/-- From `2^17` on the values of the magnitudes are at least `2^143` units apart. -/
theorem magUnits_gap {m m' : Nat} (hm : 0x48000000 ≤ m) (h : m < m') : magUnits m + 2 ^ 143 ≤ magUnits m' := by
  obtain ⟨e, q, rfl, hq, hn⟩ := exists_significand m
  calc magUnits (e * 2 ^ 23 + q) + 2 ^ 143 ≤ q * 2 ^ e + 2 ^ e := by
        rw [magUnits_significand hq.le hn]
        exact Nat.add_le_add_left (Nat.pow_le_pow_right (by decide) (by omega)) _
    _ = magUnits (e * 2 ^ 23 + (q + 1)) := by
        rw [magUnits_significand hq (by omega), Nat.succ_mul]
    _ ≤ magUnits m' := magUnits_strictMono.monotone (by omega)

/-- A value less than half a gap away from that of a magnitude above `2^17` is rounded to it. -/
theorem roundMagnitude_of_near {m n : Nat} (hm : 0x48000000 < m) (h : ((n : Int) - magUnits m).natAbs < 2 ^ 142) :
    roundMagnitude n 0 = m := by
  have hnear := (roundMagnitude_nearest n 0 m).1
  have hunits : magUnits 0x48000000 + 2 ^ 143 ≤ magUnits m := magUnits_gap le_rfl hm
  rcases Nat.lt_trichotomy (roundMagnitude n 0) m with hlt | heq | hgt
  · have hgap : magUnits (roundMagnitude n 0) + 2 ^ 143 ≤ magUnits m := by
      rcases Nat.lt_or_ge (roundMagnitude n 0) 0x48000000 with hsmall | hlarge
      · have := magUnits_strictMono hsmall
        omega
      · exact magUnits_gap hlarge hlt
    omega
  · exact heq
  · have hgap := magUnits_gap hm.le hgt
    omega

/-- A finite scale above `2^17` in magnitude absorbs every step below half of its last place (R107 (a)). -/
theorem fadd32_absorbed {a b : Word} (ha : fExp a ≠ 255) (hlarge : 2 ^ 166 < fUnits a) (hb : fExp b ≠ 255)
    (hsmall : fUnits b < 2 ^ 142) : fadd32 a b = a := by
  have hmag : 0x48000000 < magnitude a := by
    have hunits : fUnits 0x48000000#32 = 2 ^ 166 := by decide
    rwa [← hunits, fUnits_lt_iff] at hlarge
  have hsum : fValue a + fValue b ≠ 0 ∧ decide (fValue a + fValue b < 0) = fSign a ∧
      (((fValue a + fValue b).natAbs : Int) - fUnits a).natAbs < 2 ^ 142 := by
    have hvalue : fValue a = if fSign a then -(fUnits a : Int) else fUnits a := rfl
    have hstep := natAbs_fValue b
    cases hsign : fSign a with
    | true =>
      rw [hsign, if_pos rfl] at hvalue
      exact ⟨by omega, decide_eq_true (by omega), by omega⟩
    | false =>
      rw [hsign, if_neg Bool.false_ne_true] at hvalue
      exact ⟨by omega, decide_eq_false (by omega), by omega⟩
  obtain ⟨hne, hsign, hnear⟩ := hsum
  rw [fUnits_eq_magUnits] at hnear
  rw [fadd32_finite ha hb, if_neg hne, hsign, round32, roundMagnitude_of_near hmag hnear,
    Nat.min_eq_left ((fExp_ne_255_iff a).1 ha).le, withSign_magnitude]

/-! ### The moved scale and the snap -/

/-- The exact value of a scale moved by `RAMP_STEP` toward the target. -/
def rampTowards (sw tgt : Word) : Int :=
  fValue sw + if fValue sw < fValue tgt then fValue Config.rampStep else -fValue Config.rampStep

theorem fValue_rampStep : fValue Config.rampStep = 8454660 * 2 ^ 118 := by decide

/-- Below `2^15` in magnitude the moved scale is within `2^140` units, which is `2^-9`, of the exact one. -/
theorem rampMoved_near {sw tgt : Word} (hsw : fUnits sw < 2 ^ 164) (htgt : fExp tgt ≠ 255) :
    fExp (rampMoved sw tgt) ≠ 255 ∧ (fValue (rampMoved sw tgt) - rampTowards sw tgt).natAbs ≤ 2 ^ 140 := by
  have hfin : fExp sw ≠ 255 := finite_of_fUnits_lt hsw
  have hstep : fExp Config.rampStep ≠ 255 := by decide
  have hflip : fExp (Config.rampStep ^^^ 0x80000000#32) ≠ 255 := by rwa [fExp_flip]
  have hbound : (fValue sw).natAbs < 2 ^ 164 := (natAbs_fValue sw).trans_lt hsw
  have hlt := flt32_iff (not_nan_not_inf_of_finite hfin).1 (not_nan_not_inf_of_finite htgt).1
  unfold rampMoved rampTowards
  simp only [hlt, fsub32]
  split_ifs
  · obtain ⟨hfinite, hnear⟩ := fadd32_near hfin hstep (e := 141) (by decide) (by rw [fValue_rampStep]; omega)
    exact ⟨hfinite, by omega⟩
  · obtain ⟨hfinite, hnear⟩ := fadd32_near hfin hflip (e := 141) (by decide) (by rw [fValue_flip, fValue_rampStep]; omega)
    rw [fValue_flip] at hnear
    exact ⟨hfinite, by omega⟩

theorem fabs32_sign_magnitude (w : Word) : fSign (fabs32 w) = false ∧ magnitude (fabs32 w) = magnitude w := by
  have hbits : (0x7FFFFFFF#32).toNat = 2 ^ 31 - 1 := rfl
  have htoNat : (fabs32 w).toNat = magnitude w := by
    rw [fabs32, BitVec.toNat_and, hbits, Nat.and_two_pow_sub_one_eq_mod, magnitude]
  have hlt := magnitude_lt w
  refine ⟨?_, by rw [magnitude, htoNat, Nat.mod_eq_of_lt hlt]⟩
  rw [fSign, BitVec.getLsbD, htoNat, Nat.testBit_lt_two_pow hlt]

/-- The rounded distance is below `RAMP_EPS` exactly when the exact one is below the midpoint of `RAMP_EPS` and the magnitude
before it. -/
theorem distance_below_rampEps_iff {a b : Word} (ha : fExp a ≠ 255) (hb : fExp b ≠ 255) :
    flt32 (fabs32 (fsub32 a b)) Config.rampEps = true ↔ (fValue a - fValue b).natAbs < 16909319 * 2 ^ 118 := by
  have hmid : magUnits 0x3C010203 + magUnits (0x3C010203 + 1) = 2 * (16909319 * 2 ^ 118) := by decide
  have heps : fIsNaN Config.rampEps = false ∧ fSign Config.rampEps = false ∧ magnitude Config.rampEps = 0x3C010203 + 1 := by decide
  obtain ⟨hepsNaN, hepsSign, hepsMag⟩ := heps
  have hround := lt_roundMagnitude_iff (m := 0x3C010203) rfl (fValue a - fValue b).natAbs 0
  have hsub : magnitude (fsub32 a b) = min (roundMagnitude (fValue a - fValue b).natAbs 0) 0x7F800000 := by
    rw [fsub32, fadd32_finite ha (by rwa [fExp_flip]), magnitude_round32, fValue_flip, Int.sub_eq_add_neg]
  obtain ⟨hsign, hmag⟩ := fabs32_sign_magnitude (fsub32 a b)
  rw [hsub] at hmag
  have hnan : fIsNaN (fabs32 (fsub32 a b)) = false := by
    rw [fIsNaN_eq_false_iff, hmag]
    exact Nat.min_le_right _ _
  rw [flt32_iff hnan hepsNaN, fValue_lt_iff, hsign, hepsSign, hmag, hepsMag]
  rw [hmid] at hround
  simp only [Bool.false_eq_true, false_and, true_and, false_or, or_false]
  omega

/-- The ramp step ends at the target or at the moved scale, by the exact distance that is left (R101). -/
theorem rampstep_cases {sw tgt : Word} (hmoved : fExp (rampMoved sw tgt) ≠ 255) (htgt : fExp tgt ≠ 255) :
    (fValue (rampMoved sw tgt) - fValue tgt).natAbs < 16909319 * 2 ^ 118 ∧ rampstep sw tgt = tgt ∨
    16909319 * 2 ^ 118 ≤ (fValue (rampMoved sw tgt) - fValue tgt).natAbs ∧ rampstep sw tgt = rampMoved sw tgt := by
  have hiff := distance_below_rampEps_iff hmoved htgt
  unfold rampstep
  dsimp only
  split_ifs with hsnap
  · exact .inl ⟨hiff.1 hsnap, rfl⟩
  · exact .inr ⟨Nat.le_of_not_lt fun h => hsnap (hiff.2 h), rfl⟩

end Sys2Proof.Machine

/-! The statements about the ramped scaler (`41_ramped_scaler.md` R100 to R107, and R115 for the gain of 1.0). -/

namespace Sys2Proof.Machine

/-- Settles O49: a moved scale is one `RAMP_STEP` nearer but for `2^-9`, and the snap takes over before it can pass the target. -/
theorem rampStepMovesTowardTarget : Obligations.RampStepMovesTowardTarget := by
  intro sw tgt hsw htgt
  have hfin : fExp sw ≠ 255 := finite_of_fUnits_lt hsw
  obtain ⟨hmovedFin, hnear⟩ := rampMoved_near hsw htgt
  obtain ⟨hnan, -⟩ := not_nan_not_inf_of_finite hfin
  obtain ⟨htgtNaN, -⟩ := not_nan_not_inf_of_finite htgt
  obtain ⟨hmovedNaN, -⟩ := not_nan_not_inf_of_finite hmovedFin
  have hdistance := distance_below_rampEps_iff hfin htgt
  unfold rampTowards at hnear
  rw [fValue_rampStep] at hnear
  rw [fne32, Bool.not_eq_true', ← Bool.not_eq_true, feq32_iff hnan htgtNaN, flt32_iff hnan htgtNaN, flt32_iff htgtNaN hnan]
  rcases rampstep_cases hmovedFin htgt with ⟨hclose, heq⟩ | ⟨hfar, heq⟩
  · rw [heq, flt32_iff hnan htgtNaN, flt32_iff htgtNaN hnan, fle32_iff htgtNaN htgtNaN]
    exact ⟨fun h => ⟨h, le_rfl⟩, fun h => ⟨h, le_rfl⟩, fun _ _ => rfl⟩
  · rw [heq, flt32_iff hnan hmovedNaN, flt32_iff hmovedNaN hnan, fle32_iff hmovedNaN htgtNaN, fle32_iff htgtNaN hmovedNaN]
    refine ⟨fun h => ?_, fun h => ?_, fun hne hsnap => ?_⟩
    · rw [if_pos h] at hnear
      omega
    · rw [if_neg (by omega)] at hnear
      omega
    · have hclose := hdistance.1 hsnap
      split_ifs at hnear <;> omega

/-- Settles O48: above `2^17` the ramp step is less than half of the last place. -/
theorem rampStepAbsorbed : Obligations.RampStepAbsorbed :=
  ⟨fun _ hfin hlarge => ⟨fadd32_absorbed hfin hlarge (by decide) (by decide), fadd32_absorbed hfin hlarge (by decide) (by decide)⟩,
    by decide, by decide, by decide, by decide⟩

/-- Settles O36, effect by effect: of an engine step only the element changes the scale, and it holds it there. -/
theorem rampScaleHeld : Obligations.RampScaleHeld := by
  intro s t g hexec h
  cases exec_command_effect (.inr (.inl ⟨g, rfl⟩)) hexec with
  | idle | completion => rfl
  | element e mem hbusy hidx he =>
    exact (ramp_element_sw he).trans (scaleAfter_held _ (h.imp_left fun h0 => if_pos h0))

/-- Settles O37: the output is the canonical NaN, which is part of no crossing. -/
theorem rampNanScale : Obligations.RampNanScale := by
  intro s g hbusy hidx hnan src dst hsrc hsrcReach hdst hdstReach
  have hout : fmul32 s.input s.sw = 0x7FC00000#32 := fmul32_nan (.inr hnan)
  rw [exec_ramp_element g hbusy hidx hsrc hsrcReach hdst hdstReach, hout, scaleAfter_nan_output _ _ _ (by decide)]

/-- Settles O41: the exact product with `2^149` units is a magnitude's own value, which is not rounded. -/
theorem multiplyByOneIsIdentity : Obligations.MultiplyByOneIsIdentity := by
  intro x hnan
  have hone : fSign 0x3F800000#32 = false ∧ fUnits 0x3F800000#32 = 2 ^ 149 := by decide
  obtain ⟨hsign, hunits⟩ := hone
  have hid : fmul32 x 0x3F800000#32 = x := by
    cases hinf : fIsInf x with
    | true => rw [fmul32_inf hinf (by decide) (by decide), hsign, Bool.bne_false, infinity_fSign hinf]
    | false =>
      have hle := (fIsNaN_eq_false_iff x).1 hnan
      have hne : magnitude x ≠ 0x7F800000 := fun h => by simp [(fIsInf_iff x).2 h] at hinf
      rw [fmul32_finite ((fExp_ne_255_iff x).2 (by omega)) (by decide), hsign, hunits, Bool.bne_false, fUnits_eq_magUnits,
        round32_exact _ _ hle, withSign_magnitude]
  exact ⟨hid, (fmul32_comm _ _).trans hid⟩

/-- Settles O47: a value is at most zero when it is a zero or its sign is set, and at least zero when it is a zero or its sign is
clear. -/
theorem crossingByZeroOrSign : Obligations.CrossingByZeroOrSign := by
  intro p y
  rw [crossing_iff, fValue_nonpos_iff, fValue_nonneg_iff, fValue_nonneg_iff, fValue_nonpos_iff]
  cases fSign p <;> cases fSign y <;> simp [or_comm]

/-- Settles O23: the element step, with the condition of the scale's step written out. -/
theorem rampElementStep : Obligations.RampElementStep := by
  intro s g hbusy hidx src dst hsrc hsrcReach hdst hdstReach y
  rw [exec_ramp_element g hbusy hidx hsrc hsrcReach hdst hdstReach, scaleAfter_previous]
  rfl

end Sys2Proof.Machine

/-! # Proofs for `42_zip_interleaver.md`: `ZIP` and `ZIPQ` (R115 to R117) -/

/-! Both commands are one interleaver: each element stores the two scaled samples next to each other, as they are (`ZIP`) or
quantized (`ZIPQ`). -/

namespace Sys2Proof.Machine

/-! ### Two words next to each other -/

/-- The writes of two words that follow each other leave every word below them alone. -/
theorem Memory.readWord_writeWord_pair_below (m : Memory) {a b : Nat} (v w : Word) (h : b + 4 ≤ a) :
    Memory.readWord (Memory.writeWord (Memory.writeWord m a v) (a + 4) w) b = Memory.readWord m b := by
  rw [Memory.readWord_writeWord_other _ w (by omega), Memory.readWord_writeWord_other m v (by omega)]

/-! ### The element -/

/-- The word of channel 2 at `IDX`, as `State.input` is that of channel 1 (R115). -/
def State.input2 (s : State) : Word := Memory.readWord s.mem (elementAddress s.src2 s.idx.toNat)

/-- The instruction interleaves the two channels: its element stores `out` of each scaled sample at output elements `2n` and `2n+1` and
keeps `SW` and `PREV`, and its completion step sets the flags alone (R115, R116, R136). -/
structure Interleaves (i : Instr) (out : Word → Word) : Prop where
  command : IsCommand i
  loopBody (s : State) : s.loopBody i =
    ⟨[(elementAddress s.dst (2 * s.idx.toNat), out (fmul32 s.input s.kscale)),
      (elementAddress s.dst (2 * s.idx.toNat + 1), out (fmul32 s.input2 s.kscale))], s.sw, s.prev⟩
  elementAccesses (s : State) : s.elementAccesses i =
    [elementAddress s.src1 s.idx.toNat, elementAddress s.src2 s.idx.toNat, elementAddress s.dst (2 * s.idx.toNat),
      elementAddress s.dst (2 * s.idx.toNat + 1)]
  finish (s : State) : s.finish i = s.complete

theorem zip_interleaves : Interleaves .zip fun y => y where
  command := .inr (.inr (.inl rfl))
  loopBody _ := rfl
  elementAccesses _ := rfl
  finish _ := rfl

theorem zipq_interleaves : Interleaves .zipq q23 where
  command := .inr (.inr (.inr rfl))
  loopBody _ := rfl
  elementAccesses _ := rfl
  finish _ := rfl

section
variable {i : Instr} {out : Word → Word} {s : State} {n : Nat}

/-- The element step: both inputs are of the memory before it, even where the first word stored lies on the second input (R115). -/
theorem Interleaves.elementStep_eq (h : Interleaves i out) (s : State) :
    s.elementStep i = { s with
      mem := Memory.writeWord
        (Memory.writeWord s.mem (elementAddress s.dst (2 * s.idx.toNat)) (out (fmul32 s.input s.kscale)))
        (elementAddress s.dst (2 * s.idx.toNat + 1)) (out (fmul32 s.input2 s.kscale))
      idx := s.idx + 1#32 } := by
  rw [State.elementStep, h.loopBody]
  rfl

/-- Where the four accesses of the element can be performed, the instruction means the element step (R136). -/
theorem Interleaves.exec_eq (h : Interleaves i out) (hbusy : s.busy = true) (hidx : s.idx.toNat < s.len.toNat)
    (haccess : ∀ a, a = elementAddress s.src1 s.idx.toNat ∨ a = elementAddress s.src2 s.idx.toNat ∨
      a = elementAddress s.dst (2 * s.idx.toNat) ∨ a = elementAddress s.dst (2 * s.idx.toNat + 1) →
      formable a = true ∧ s.reaches a = true) :
    exec i s = .next (s.elementStep i) := by
  refine exec_element_next h.command hbusy hidx (firstFault_eq_none fun a ha => haccess a ?_)
  simpa [h.elementAccesses] using ha

/-! ### The elements of a command -/

/-- The elements change the memory and `IDX` alone. -/
theorem Interleaves.afterElements_frame (h : Interleaves i out) (s : State) (n : Nat) :
    s.afterElements i n = { s with mem := (s.afterElements i n).mem, idx := (s.afterElements i n).idx } := by
  induction n with
  | zero => rfl
  | succ n ih =>
    rw [State.afterElements_succ, h.elementStep_eq, ih]

/-- Element `n` stores `out` of the scaled samples it finds at `4n` in each channel (R115). -/
theorem Interleaves.mem_succ (h : Interleaves i out) (h0 : s.idx = 0#32) (hn : n ≤ s.len.toNat) :
    (s.afterElements i (n + 1)).mem = Memory.writeWord
      (Memory.writeWord (s.afterElements i n).mem (s.dst.toNat + 8 * n)
        (out (fmul32 (Memory.readWord (s.afterElements i n).mem (s.src1.toNat + 4 * n)) s.kscale)))
      (s.dst.toNat + 8 * n + 4)
        (out (fmul32 (Memory.readWord (s.afterElements i n).mem (s.src2.toNat + 4 * n)) s.kscale)) := by
  have hidx := State.afterElements_idx i h0 hn
  have hframe := h.afterElements_frame s n
  have hsrc2 : (s.afterElements i n).src2 = s.src2 := by rw [hframe]
  have hkscale : (s.afterElements i n).kscale = s.kscale := by rw [hframe]
  have hfirst : elementAddress s.dst (2 * n) = s.dst.toNat + 8 * n := by
    rw [elementAddress]
    omega
  rw [State.afterElements_succ, h.elementStep_eq]
  simp only [State.input, State.input2, hidx, hsrc2, hkscale, State.afterElements_src1, State.afterElements_dst,
    elementAddress_succ, hfirst]
  rfl

/-- The bytes outside the words stored so far are as they were. -/
theorem Interleaves.readByte_other (h : Interleaves i out) (h0 : s.idx = 0#32) (hn : n ≤ s.len.toNat) {a : Nat}
    (ha : a < s.dst.toNat ∨ s.dst.toNat + 8 * n ≤ a) :
    Memory.readByte (s.afterElements i n).mem a = Memory.readByte s.mem a := by
  induction n with
  | zero => rfl
  | succ n ih =>
    rw [h.mem_succ h0 (by omega), Memory.readByte_writeWord_other _ _ (by omega),
      Memory.readByte_writeWord_other _ _ (by omega)]
    exact ih (by omega) (by omega)

/-- The words of a channel apart from the output block are as they were. -/
theorem Interleaves.channel_kept (h : Interleaves i out) (h0 : s.idx = 0#32) {base k : Nat}
    (hapart : apart s.dst.toNat (8 * s.len.toNat) base (4 * s.len.toNat)) (hn : n ≤ s.len.toNat) (hk : k < s.len.toNat) :
    Memory.readWord (s.afterElements i n).mem (base + 4 * k) = Memory.readWord s.mem (base + 4 * k) := by
  unfold apart at hapart
  exact Memory.readWord_congr fun y h1 h2 => h.readByte_other h0 hn (by omega)

/-- The loop invariant: the output elements stored so far are the scaled samples of the two channels in turn, through `out` (R117). -/
theorem Interleaves.stored (h : Interleaves i out) (h0 : s.idx = 0#32)
    (hapart1 : apart s.dst.toNat (8 * s.len.toNat) s.src1.toNat (4 * s.len.toNat))
    (hapart2 : apart s.dst.toNat (8 * s.len.toNat) s.src2.toNat (4 * s.len.toNat))
    (hn : n ≤ s.len.toNat) {k : Nat} (hk : k < n) :
    Memory.readWord (s.afterElements i n).mem (s.dst.toNat + 8 * k) =
      out (fmul32 (Memory.readWord s.mem (s.src1.toNat + 4 * k)) s.kscale) ∧
    Memory.readWord (s.afterElements i n).mem (s.dst.toNat + 8 * k + 4) =
      out (fmul32 (Memory.readWord s.mem (s.src2.toNat + 4 * k)) s.kscale) := by
  induction n with
  | zero => omega
  | succ n ih =>
    rw [h.mem_succ h0 (by omega), h.channel_kept h0 hapart1 (by omega) hn, h.channel_kept h0 hapart2 (by omega) hn]
    obtain hlt | rfl : k < n ∨ k = n := by omega
    · rw [Memory.readWord_writeWord_pair_below _ _ _ (by omega), Memory.readWord_writeWord_pair_below _ _ _ (by omega)]
      exact ih (by omega) hlt
    · rw [Memory.readWord_writeWord_other _ _ (by omega)]
      exact ⟨Memory.readWord_writeWord_same .., Memory.readWord_writeWord_same ..⟩

/-- The state a whole command leaves: `BUSY`, `DONE`, `IDX` and the memory are all that has changed (R136). -/
theorem Interleaves.finish_frame (h : Interleaves i out) (h0 : s.idx = 0#32) :
    (s.afterElements i s.len.toNat).finish i =
      { s with mem := (s.afterElements i s.len.toNat).mem, busy := false, done := true, idx := s.len } := by
  have hidx : (s.afterElements i s.len.toNat).idx = s.len :=
    BitVec.eq_of_toNat_eq (State.afterElements_idx i h0 (Nat.le_refl _))
  rw [h.finish, State.complete, h.afterElements_frame, hidx]

/-- The whole command, left alone with its output apart from both inputs (R117). -/
theorem Interleaves.run_command (h : Interleaves i out) (hready : s.Ready i)
    (hapart1 : apart s.dst.toNat (8 * s.len.toNat) s.src1.toNat (4 * s.len.toNat))
    (hapart2 : apart s.dst.toNat (8 * s.len.toNat) s.src2.toNat (4 * s.len.toNat)) :
    ∃ t : State, Host.Core.run Sys2Proof.core (s.len.toNat + 1) s = .next t ∧
      t = { s with mem := t.mem, busy := false, done := true, idx := s.len } ∧
      (∀ n, n < s.len.toNat →
        Memory.readWord t.mem (s.dst.toNat + 8 * n) =
          out (fmul32 (Memory.readWord s.mem (s.src1.toNat + 4 * n)) s.kscale) ∧
        Memory.readWord t.mem (s.dst.toNat + 8 * n + 4) =
          out (fmul32 (Memory.readWord s.mem (s.src2.toNat + 4 * n)) s.kscale)) ∧
      ∀ a, a < s.dst.toNat ∨ s.dst.toNat + 8 * s.len.toNat ≤ a → Memory.readByte t.mem a = Memory.readByte s.mem a := by
  have hrun := hready.run_command
  rw [h.finish_frame hready.idx] at hrun
  exact ⟨_, hrun, rfl, fun _ => h.stored hready.idx hapart1 hapart2 (Nat.le_refl _),
    fun _ => h.readByte_other hready.idx (Nat.le_refl _)⟩

end

end Sys2Proof.Machine

/-! The statements about the interleaver (`42_zip_interleaver.md` R115 to R117). -/

namespace Sys2Proof.Machine

/-- Settles O24: the four accesses succeed, and the two writes are the scaled samples. -/
theorem zipElementStep : Obligations.ZipElementStep := by
  intro s hbusy hidx in1 in2 out1 out2 haccess
  rw [zip_interleaves.exec_eq hbusy hidx haccess, zip_interleaves.elementStep_eq]
  rfl

/-- Settles O25: as O24, with the writes quantized. -/
theorem zipqElementStep : Obligations.ZipqElementStep := by
  intro s hbusy hidx in1 in2 out1 out2 haccess
  rw [zipq_interleaves.exec_eq hbusy hidx haccess, zipq_interleaves.elementStep_eq]
  rfl

/-- Settles O31: the interleaver that stores each product as it is. -/
theorem zipCommandInterleaves : Obligations.ZipCommandInterleaves :=
  fun _ => zip_interleaves.run_command

/-- Settles O32: the interleaver that stores each product quantized. -/
theorem zipqCommandInterleavesQuantized : Obligations.ZipqCommandInterleavesQuantized :=
  fun _ => zipq_interleaves.run_command

end Sys2Proof.Machine

/-! # Proofs for `43_host_port.md`: the register writes, issue and acceptance, and the turns of the engine (R130 to R143) -/

/-! What an issued command word comes to: the acceptance checks of a word that decodes, in their order (R133 to R135, R153). -/

namespace Sys2Proof.Machine

/-! ### The blocks a command uses -/

/-- Every base register the command uses is aligned (R54, R134). -/
def State.blocksAligned (s : State) (i : Instr) : Prop := ∀ b ∈ s.usedBlocks i, b.1.toNat % 4 = 0

/-- Every block the command uses ends inside the address space (R134). -/
def State.blocksFit (s : State) (i : Instr) : Prop := ∀ b ∈ s.usedBlocks i, b.1.toNat + 4 * b.2 ≤ 2 ^ 32

theorem any_misaligned_iff (s : State) (i : Instr) : (s.usedBlocks i).any misaligned = true ↔ ¬ s.blocksAligned i := by
  simp only [State.blocksAligned, ← misaligned_eq_false_iff, List.any_eq_true, not_forall, Bool.not_eq_false, exists_prop]

theorem any_outOfRange_iff (s : State) (i : Instr) : (s.usedBlocks i).any outOfRange = true ↔ ¬ s.blocksFit i := by
  simp only [State.blocksFit, ← outOfRange_eq_false_iff, List.any_eq_true, not_forall, Bool.not_eq_false, exists_prop]

/-- `QUANT` and `RAMP` use `SRC1` and `DST`, both with `LEN` words; they do not look at `SRC2` (R58, R134). -/
theorem usedBlocks_oneInput (s : State) {i : Instr} (hi : i = .quant ∨ ∃ g, i = .ramp g) :
    s.usedBlocks i = [(s.src1, s.len.toNat), (s.dst, s.len.toNat)] := by
  obtain rfl | ⟨g, rfl⟩ := hi <;> rfl

/-- `ZIP` and `ZIPQ` use `SRC1` and `SRC2` with `LEN` words and `DST` with `2*LEN` (R58, R134). -/
theorem usedBlocks_zip (s : State) {i : Instr} (hi : i = .zip ∨ i = .zipq) :
    s.usedBlocks i = [(s.src1, s.len.toNat), (s.src2, s.len.toNat), (s.dst, 2 * s.len.toNat)] := by
  obtain rfl | rfl := hi <;> rfl

theorem blocksAligned_oneInput (s : State) {i : Instr} (hi : i = .quant ∨ ∃ g, i = .ramp g) :
    s.blocksAligned i ↔ s.src1.toNat % 4 = 0 ∧ s.dst.toNat % 4 = 0 := by
  simp [State.blocksAligned, usedBlocks_oneInput s hi]

theorem blocksFit_oneInput (s : State) {i : Instr} (hi : i = .quant ∨ ∃ g, i = .ramp g) :
    s.blocksFit i ↔ s.src1.toNat + 4 * s.len.toNat ≤ 2 ^ 32 ∧ s.dst.toNat + 4 * s.len.toNat ≤ 2 ^ 32 := by
  simp [State.blocksFit, usedBlocks_oneInput s hi]

theorem blocksAligned_zip (s : State) {i : Instr} (hi : i = .zip ∨ i = .zipq) :
    s.blocksAligned i ↔ s.src1.toNat % 4 = 0 ∧ s.src2.toNat % 4 = 0 ∧ s.dst.toNat % 4 = 0 := by
  simp [State.blocksAligned, usedBlocks_zip s hi]

theorem blocksFit_zip (s : State) {i : Instr} (hi : i = .zip ∨ i = .zipq) :
    s.blocksFit i ↔ s.src1.toNat + 4 * s.len.toNat ≤ 2 ^ 32 ∧ s.src2.toNat + 4 * s.len.toNat ≤ 2 ^ 32 ∧
      s.dst.toNat + 8 * s.len.toNat ≤ 2 ^ 32 := by
  simp [State.blocksFit, usedBlocks_zip s hi, ← Nat.mul_assoc]

theorem lacksGain_zip (s : State) {i : Instr} (hi : i = .zip ∨ i = .zipq) : s.lacksGain i = false := by
  obtain rfl | rfl := hi <;> rfl

theorem lacksGain_ramp {s : State} {g : Slot} {b : Bool} (h : s.gainValid g = b) : s.lacksGain (.ramp g) = !b :=
  congrArg not h

/-! ### The words of the commands (R71) -/

theorem decodeCommand_quantWord : decodeCommand 0x00000001#32 = .ok .quant := by decide

theorem decodeCommand_rampWord : ∀ g : Slot, decodeCommand (0x00000002#32 + BitVec.ofNat 32 (16 * g.val)) = .ok (.ramp g) := by
  decide

theorem decodeCommand_zipWord : decodeCommand 0x00000003#32 = .ok .zip := by decide

theorem decodeCommand_zipqWord : decodeCommand 0x00000004#32 = .ok .zipq := by decide

/-- What holds of every word of a one-input command whose slot, if it has one, is valid. -/
theorem oneInput_words {s : State} {P : Word → Instr → Prop}
    (h : ∀ {c i}, (i = .quant ∨ ∃ g, i = .ramp g) → decodeCommand c = .ok i → s.lacksGain i = false → P c i) :
    P 0x00000001#32 .quant ∧
    ∀ g : Slot, s.gainValid g = true → P (0x00000002#32 + BitVec.ofNat 32 (16 * g.val)) (.ramp g) :=
  ⟨h (.inl rfl) decodeCommand_quantWord rfl,
    fun g hvalid => h (.inr ⟨g, rfl⟩) (decodeCommand_rampWord g) (lacksGain_ramp hvalid)⟩

/-- What holds of both words of the zip commands. -/
theorem zip_words {P : Word → Instr → Prop}
    (h : ∀ {c i}, (i = .zip ∨ i = .zipq) → decodeCommand c = .ok i → P c i) :
    P 0x00000003#32 .zip ∧ P 0x00000004#32 .zipq :=
  ⟨h (.inl rfl) decodeCommand_zipWord, h (.inr rfl) decodeCommand_zipqWord⟩

/-! ### The word of a command issued while no command runs -/

section
variable {s : State} {c : Word} {i : Instr}

theorem exec_issue_refused {code : ErrCode} (hidle : s.busy = false) (h : s.acceptance c = .error code) :
    exec (.wr .cmd c) s = .next (s.refuse code) := by
  rw [exec_wr_cmd_idle s c hidle, State.issue, h]

/-- A command with its slot valid and, if it has elements, its blocks aligned and in range is accepted (R134, R135). -/
theorem exec_issue_accepted (hdecode : decodeCommand c = .ok i) (hidle : s.busy = false) (hgain : s.lacksGain i = false)
    (hlegal : s.len ≠ 0#32 → s.blocksAligned i ∧ s.blocksFit i) : exec (.wr .cmd c) s = .next (s.accept c i) := by
  have hok : s.acceptance c = .ok i := acceptance_of_legal hdecode hgain fun hlen b hb =>
    have ⟨halign, hfit⟩ := hlegal hlen
    ⟨halign b hb, hfit b hb⟩
  rw [exec_wr_cmd_idle s c hidle, issue_accepted hok]

/-- The slot is checked first, whatever `LEN` and the addresses are (R134, R153). -/
theorem exec_issue_nogain (hdecode : decodeCommand c = .ok i) (hidle : s.busy = false) (hgain : s.lacksGain i = true) :
    exec (.wr .cmd c) s = .next (s.refuse .nogain) :=
  exec_issue_refused hidle (by simp [State.acceptance, hdecode, hgain])

/-- The alignment is checked next, whatever the ends of the blocks are (R134, R153). -/
theorem exec_issue_misaligned (hdecode : decodeCommand c = .ok i) (hidle : s.busy = false) (hgain : s.lacksGain i = false)
    (hlen : s.len ≠ 0#32) (halign : ¬ s.blocksAligned i) : exec (.wr .cmd c) s = .next (s.refuse .misaligned) := by
  have hany := (any_misaligned_iff s i).2 halign
  exact exec_issue_refused hidle (by simp [State.acceptance, hdecode, hgain, hlen, hany])

/-- The range is checked last (R134, R153). -/
theorem exec_issue_range (hdecode : decodeCommand c = .ok i) (hidle : s.busy = false) (hgain : s.lacksGain i = false)
    (hlen : s.len ≠ 0#32) (halign : s.blocksAligned i) (hfit : ¬ s.blocksFit i) :
    exec (.wr .cmd c) s = .next (s.refuse .range) := by
  have hnone : (s.usedBlocks i).any misaligned = false :=
    Bool.eq_false_iff.2 fun hany => (any_misaligned_iff s i).1 hany halign
  have hany := (any_outOfRange_iff s i).2 hfit
  refine exec_issue_refused hidle ?_
  simp [State.acceptance, hdecode, hgain, hlen, hnone, hany]

end

end Sys2Proof.Machine

/-! The other register writes (R137 to R141), and that no transaction disturbs a running command (R132, R137, R142). -/

namespace Sys2Proof.Machine

/-- The registers the lock covers (R137). -/
abbrev IsLocked (r : PortReg) : Prop :=
  r = .cmd ∨ r = .src1 ∨ r = .src2 ∨ r = .dst ∨ r = .len ∨ r = .target ∨ r = .kscale ∨ r = .gvalid ∨ ∃ k, r = .gain k

theorem writeReg_locked_busy {s : State} {r : PortReg} (hr : IsLocked r) (v : Word) (hbusy : s.busy = true) :
    s.writeReg r v = s.refuse .busywr := by
  obtain rfl | rfl | rfl | rfl | rfl | rfl | rfl | rfl | ⟨k, rfl⟩ := hr
  all_goals
    rw [State.writeReg]
    exact locked_busy _ hbusy

/-- The flags in an acknowledgement, each cleared by its own bit (R138). -/
theorem acknowledge_eq (s : State) (v : Word) : s.acknowledge v = { s with
    done := if v.getLsbD 1 then false else s.done
    err := if v.getLsbD 2 then false else s.err
    errcode := if v.getLsbD 2 then .noError else s.errcode } := by
  unfold State.acknowledge
  cases v.getLsbD 1 <;> cases v.getLsbD 2 <;> simp

theorem gainValid_discardGains (s : State) (v : Word) (k : Slot) :
    (s.discardGains v).gainValid k = (s.gainValid k && !v.getLsbD k.val) := by
  simp [State.gainValid]

theorem gain_createGain_same (s : State) (k : Slot) (v : Word) : (s.createGain k v).gain k = v :=
  s.gain_setGain_same k v

theorem gain_createGain_other (s : State) {j k : Slot} (v : Word) (h : j ≠ k) : (s.createGain k v).gain j = s.gain j :=
  s.gain_setGain_other v h

theorem gainValid_createGain (s : State) (j k : Slot) (v : Word) :
    (s.createGain k v).gainValid j = (s.gainValid j || decide (j = k)) := by
  have hbit : (1#Config.ng <<< k.val).getLsbD j.val = decide (j = k) := by
    revert j k
    decide
  rw [State.gainValid, State.createGain_gvalid, BitVec.getLsbD_or, hbit, State.gainValid]

/-- Whatever a write does while a command runs, the engine does not see it (R137, R142). -/
theorem WriteEffect.engineView {s t : State} {r : PortReg} {v : Word} (heffect : WriteEffect s r v t) (hbusy : s.busy = true) :
    t.engineView = s.engineView := by
  rw [heffect.frame_of_busy hbusy]
  rfl

end Sys2Proof.Machine

/-! The turns of the engine (R136). -/

namespace Sys2Proof.Machine

/-- A listed turn of the engine is the turn it has when nothing is listed. -/
theorem step_engine_event {s : State} {rest : List Event} (he : s.events = .engine :: rest) :
    step s = runActivity (State.engineTurn { s with events := rest }) := by
  simp [step, State.nextActivity, he, State.eventTurn]

theorem runActivity_engineTurn_idle {s : State} (hidle : s.busy = false) : runActivity s.engineTurn = .next s := by
  simp [State.engineTurn, hidle, runActivity]

theorem runActivity_engineTurn_busy {s : State} {i : Instr} (hbusy : s.busy = true) (hdecode : decodeCommand s.cmd = .ok i) :
    runActivity s.engineTurn = exec i s := by
  simp [State.engineTurn, hbusy, runActivity, decode, hdecode]

theorem exec_command_idle {s : State} {i : Instr} (hi : IsCommand i) (hidle : s.busy = false) : exec i s = .next s := by
  rw [exec_command hi, engineStep_idle _ _ hidle]

theorem exec_command_completion {s : State} {i : Instr} (hi : IsCommand i) (hbusy : s.busy = true)
    (hidx : s.len.toNat ≤ s.idx.toNat) : exec i s = .next (s.finish i) := by
  rw [exec_command hi, engineStep_completion _ _ hbusy hidx]

end Sys2Proof.Machine

/-! The statements about the host port (`43_host_port.md` R130 to R143). -/

namespace Sys2Proof.Machine

/-- Settles O15: the premises are the checks on the two blocks, and acceptance is `State.accept`. -/
theorem acceptOneInputCommand : Obligations.AcceptOneInputCommand := by
  intro s hidle hlegal
  refine oneInput_words (P := fun c i => exec (.wr .cmd c) s = .next (s.accept c i)) fun hi hdecode hgain => ?_
  refine exec_issue_accepted hdecode hidle hgain fun hlen => ?_
  obtain ⟨hsrc, hdst, hrange⟩ := hlegal hlen
  exact ⟨(blocksAligned_oneInput s hi).2 ⟨hsrc, hdst⟩, (blocksFit_oneInput s hi).2 hrange⟩

/-- Settles O16: as O15, with the checks on three blocks. -/
theorem acceptZipCommand : Obligations.AcceptZipCommand := by
  intro s hidle hlegal
  refine zip_words (P := fun c i => exec (.wr .cmd c) s = .next (s.accept c i)) fun hi hdecode => ?_
  refine exec_issue_accepted hdecode hidle (lacksGain_zip s hi) fun hlen => ?_
  obtain ⟨hsrc1, hsrc2, hdst, hrange⟩ := hlegal hlen
  exact ⟨(blocksAligned_zip s hi).2 ⟨hsrc1, hsrc2, hdst⟩, (blocksFit_zip s hi).2 hrange⟩

/-- Settles O17: check by check, in their order. -/
theorem refusalOfLegalCommands : Obligations.RefusalOfLegalCommands := by
  intro s hidle refused ramp aligned1 fits1 aligned2 fits2
  have halign2 {i : Instr} (hi : i = .zip ∨ i = .zipq) : s.blocksAligned i ↔ aligned2 := by
    rw [blocksAligned_zip s hi]
    tauto
  refine ⟨fun g hinvalid => exec_issue_nogain (decodeCommand_rampWord g) hidle (lacksGain_ramp hinvalid),
    fun hlen halign => ?_, fun hlen halign hfit => ?_, fun hlen halign => ?_, fun hlen halign hfit => ?_⟩
  · refine oneInput_words (P := fun c _ => exec (.wr .cmd c) s = refused .misaligned) fun hi hdecode hgain => ?_
    exact exec_issue_misaligned hdecode hidle hgain hlen (mt (blocksAligned_oneInput s hi).1 halign)
  · refine oneInput_words (P := fun c _ => exec (.wr .cmd c) s = refused .range) fun hi hdecode hgain => ?_
    exact exec_issue_range hdecode hidle hgain hlen ((blocksAligned_oneInput s hi).2 halign) (mt (blocksFit_oneInput s hi).1 hfit)
  · refine zip_words (P := fun c _ => exec (.wr .cmd c) s = refused .misaligned) fun hi hdecode => ?_
    exact exec_issue_misaligned hdecode hidle (lacksGain_zip s hi) hlen (mt (halign2 hi).1 halign)
  · refine zip_words (P := fun c _ => exec (.wr .cmd c) s = refused .range) fun hi hdecode => ?_
    exact exec_issue_range hdecode hidle (lacksGain_zip s hi) hlen ((halign2 hi).2 halign) (mt (blocksFit_zip s hi).1 hfit)

/-- Settles O57: a write leaves the view by its effect, a read changes nothing the view shows. -/
theorem hostTransactionsDoNotDisturb : Obligations.HostTransactionsDoNotDisturb :=
  fun s hbusy r => ⟨fun v => ⟨_, exec_wr r v s, (writeReg_effect s r v).engineView hbusy⟩, _, rfl, rfl⟩

/-- Settles O7, turn by turn. -/
theorem stepRunsDecodedInstruction : Obligations.StepRunsDecodedInstruction := by
  refine ⟨fun s r rest i => step_port, fun s rest i he hbusy hdecode => ?_, fun s i => step_engine, fun s he hidle => ?_,
    fun s rest he hidle => ?_, fun s hidle => ?_⟩
  · exact (step_engine_event he).trans (runActivity_engineTurn_busy (s := { s with events := rest }) hbusy hdecode)
  · rw [step, State.nextActivity, he]
    exact runActivity_engineTurn_idle hidle
  · exact (step_engine_event he).trans (runActivity_engineTurn_idle (s := { s with events := rest }) hidle)
  · exact ⟨exec_command_idle (.inl rfl) hidle, fun g => exec_command_idle (.inr (.inl ⟨g, rfl⟩)) hidle,
      exec_command_idle (.inr (.inr (.inl rfl))) hidle, exec_command_idle (.inr (.inr (.inr rfl))) hidle⟩

/-- Settles O9: the lock refuses the write. -/
theorem writeWhileBusyDropped : Obligations.WriteWhileBusyDropped := by
  intro s r v hbusy hr
  rw [exec_wr, writeReg_locked_busy hr v hbusy]
  rfl

/-- Settles O10. -/
theorem writeStatusAcknowledges : Obligations.WriteStatusAcknowledges :=
  fun s v => ⟨s.acknowledge v, exec_wr .status v s, acknowledge_eq s v, rfl⟩

/-- Settles O11. -/
theorem writeCtrlSetsEnable : Obligations.WriteCtrlSetsEnable :=
  fun s v => exec_wr .ctrl v s

/-- Settles O12: the lock lets the write through, and a slot discarded is invalid. -/
theorem writeGvalidDiscards : Obligations.WriteGvalidDiscards := by
  intro s v hidle
  refine ⟨s.discardGains v, ?_, rfl, gainValid_discardGains s v, fun k hk => exec_rd_invalid_gain ?_⟩
  · rw [exec_wr, State.writeReg, locked_idle _ hidle]
  · rw [gainValid_discardGains, hk, Bool.not_true, Bool.and_false]

/-- Settles O13: the lock lets the write through. -/
theorem writeGainCreates : Obligations.WriteGainCreates := by
  intro s k v hidle
  refine ⟨s.createGain k v, ?_, rfl, gain_createGain_same s k v, ?_, fun j hj => ⟨gain_createGain_other s v hj, ?_⟩⟩
  · rw [exec_wr, State.writeReg, locked_idle _ hidle]
  · simp [gainValid_createGain]
  · simp [gainValid_createGain, hj]

/-- Settles O26: with `IDX = LEN` each command takes its completion step. -/
theorem completionStep : Obligations.CompletionStep := by
  intro s hbusy hidx
  have hexec {i : Instr} (hi : IsCommand i) : exec i s = .next (s.finish i) :=
    exec_command_completion hi hbusy (by rw [hidx])
  exact ⟨hexec (.inl rfl), hexec (.inr (.inr (.inl rfl))), hexec (.inr (.inr (.inr rfl))),
    fun g => hexec (.inr (.inl ⟨g, rfl⟩))⟩

end Sys2Proof.Machine

/-! The statement about the sticky error code (`60_exceptions.md` R154). -/

namespace Sys2Proof.Machine

/-- A refusal that finds `ERR = 1` changes nothing at all. -/
theorem refuse_of_err {s : State} (herr : s.err = true) (code : ErrCode) : s.refuse code = s := by
  cases s
  subst herr
  rfl

/-- Settles O18: the code turns on the `ERR` a refusal finds, and the first refusal sets the `ERR` that the second one finds. -/
theorem firstErrorSticks : Obligations.FirstErrorSticks := by
  refine fun s code => ⟨s.refuse_err code, fun hclear => ?_, fun hset => ?_, refuse_of_err (s.refuse_err code)⟩
  · simp [hclear]
  · rw [refuse_of_err hset]

end Sys2Proof.Machine

/-! The statement about a register write during reset (`70_reset_and_hazards.md` R170). -/

namespace Sys2Proof.Machine

/-- While `rst = 1` a port record never reaches the register port: the step is `State.portInReset`. -/
theorem step_port_in_reset {s : State} {r : BitVec 40} {rest : List Event} (he : s.events = .port r :: rest)
    (hrst : s.rst = true) : step s = State.portInReset { s with events := rest } r := by
  simp [step, State.nextActivity, he, State.eventTurn, hrst, runActivity]

theorem portInReset_write {r : BitVec 40} {reg : PortReg} {v : Word} (s : State) (hdecode : decodeRecord r = .ok (.wr reg v)) :
    s.portInReset r = .next s := by
  simp [State.portInReset, hdecode]

/-- Settles O52: the record is taken by the port in reset, which drops a write whatever its register. -/
theorem writeDuringResetIgnored : Obligations.WriteDuringResetIgnored := by
  intro s r rest reg v hevents hrst hdecode
  calc step s = State.portInReset { s with events := rest } r := step_port_in_reset hevents hrst
    _ = .next { s with events := rest } := portInReset_write _ hdecode

end Sys2Proof.Machine
